-- ==== Sys2Proof/Word.lean ====
section
/-! DEFINITION. The byte, and the names of the two byte buffers. -/

namespace Sys2Proof

/-- One byte of a buffer, one symbol value, one serialized tree node (R6, R51). -/
abbrev Byte := BitVec 8

/-- The two disjoint byte buffers (R32, R50). -/
inductive Buffer where
  | sym
  | art
deriving DecidableEq, Repr

end Sys2Proof
end

