-- ==== Sys2Proof/Config.lean ====
section
/-! DEFINITION. What is fixed for one engine instance (R6, R7, R8), and the one free value the spec leaves. -/

namespace Sys2Proof

/-- The reserved marker value (R6). -/
def marker : Byte := 0x00

/-- The largest number of internal nodes of a tree (R7). -/
def maxInt : Nat := 254

/-- The largest length of a codeword in bits, and so the largest depth of a leaf (R7). -/
def maxCw : Nat := 254

/-- The two parameters the spec leaves OPEN, "model argument" (R8, D3): the capacities of `SYM` and `ART`. -/
structure Params where
  symCap : Nat
  artCap : Nat
deriving DecidableEq, Repr

/-- The range R8 gives the two capacities. -/
def Params.ok (p : Params) : Bool :=
  decide (1 ≤ p.symCap ∧ p.symCap ≤ 2 ^ 32 - 1 ∧ 3 ≤ p.artCap ∧ p.artCap ≤ 2 ^ 32 - 1)

/-- The capacities of the instance that `State.reset` is. DESIGN CHOICE (log entry 1): R8 leaves them open.
Unsafe: no statement rests on these two numbers. -/
def Params.chosen : Params := { symCap := 65536, artCap := 65536 }

/-- FREE VALUE (log entry 2): what byte `i` of a buffer holds when nothing has written it since the `epoch`-th reset
(R188, U1: "never zero by default"). It has no body: a claim about it is true whatever it is. -/
opaque Config.unwritten (epoch : Nat) (b : Buffer) (i : Nat) : Byte

end Sys2Proof
end

