-- ==== Sys2Proof/Syntax.lean ====
section
/-! DEFINITION. The rows of the opcode table: ten commands, six reserved codes, and the five words of the engine's data
streams (tree bytes, codeword bits, packed message bytes). -/

namespace Sys2Proof

/-- One constructor per row of `spec/opcode_table.json`. The first sixteen are the values of the 4-bit command word
(R70). The last five are words of the streams a command reads out of `ART` (R72, R75, R77). -/
inductive Instr where
  | nop
  | clear
  | train
  | tser
  | encode
  | compress
  | tdes
  | decode
  | expand
  | codeword
  | reservedA
  | reservedB
  | reservedC
  | reservedD
  | reservedE
  | reservedF
  /-- The tree byte `0x00`: an internal node (R72). -/
  | treeInternal
  /-- A tree byte `v`, `v ≠ 0x00`: a leaf of value `v` (R72). -/
  | treeLeaf (v : Byte)
  /-- The codeword bit `0` (R75). -/
  | codeLeft
  /-- The codeword bit `1` (R75). -/
  | codeRight
  /-- One packed message byte: eight message bits, least significant first (R77). -/
  | msgByte (b : Byte)
deriving DecidableEq, Repr

end Sys2Proof
end

