-- ==== Sys2Proof/WellFormed.lean ====
section
/-! DEFINITION. Which terms of `Instr` stand for an encoding. -/

namespace Sys2Proof

/-- A leaf's byte is not the reserved marker (R72: "`b` in `0x01 .. 0xFF`: a leaf of value `b`"). Nothing else has an
operand that an encoding could not hold. -/
def Instr.wellFormed : Instr → Bool
  | .treeLeaf v => v != marker
  | .nop | .clear | .train | .tser | .encode | .compress | .tdes | .decode | .expand | .codeword => true
  | .reservedA | .reservedB | .reservedC | .reservedD | .reservedE | .reservedF => true
  | .treeInternal | .codeLeft | .codeRight | .msgByte _ => true

end Sys2Proof
end

