-- ==== Sys2Proof/Decode.lean ====
section
/-! DEFINITION. The decoder, total on any bytes, and after it the encoder. The engine reads words in four places, and the
same bits mean different things in each: a value written to `CMD` (R70), a byte of a serialized tree (R72), one bit of
a codeword (R75), a byte of the packed message (R77). -/

namespace Sys2Proof

/-- Where a word is read. -/
inductive Space where
  | command
  | treeByte
  | codeBit
  | message
deriving DecidableEq, Repr

/-- Why bytes are no word of a space. -/
inductive DecodeError where
  /-- there is no byte -/
  | noWord
  /-- a command word has four bits (R70), and a higher bit is set -/
  | wideCommand
  /-- a codeword bit is 0 or 1 (R75) -/
  | notABit
deriving DecidableEq, Repr

/-- The command of a 4-bit command word (R70, R150). Every value has one (R80). -/
def decodeCommand (c : BitVec 4) : Instr :=
  match c.toNat with
  | 0x0 => .nop
  | 0x1 => .clear
  | 0x2 => .train
  | 0x3 => .tser
  | 0x4 => .encode
  | 0x5 => .compress
  | 0x6 => .tdes
  | 0x7 => .decode
  | 0x8 => .expand
  | 0x9 => .codeword
  | 0xA => .reservedA
  | 0xB => .reservedB
  | 0xC => .reservedC
  | 0xD => .reservedD
  | 0xE => .reservedE
  | _ => .reservedF

/-- The node a tree byte stands for (R72). -/
def decodeTreeByte (b : Byte) : Instr :=
  if b = marker then .treeInternal else .treeLeaf b

/-- The branch a codeword bit stands for (R75); `true` is the bit 1. -/
def decodeCodeBit (bit : Bool) : Instr :=
  if bit then .codeRight else .codeLeft

/-- The word one byte is in a space. -/
def decodeByte (sp : Space) (b : Byte) : Except DecodeError Instr :=
  match sp with
  | .command => if b.toNat < 16 then .ok (decodeCommand (b.setWidth 4)) else .error .wideCommand
  | .treeByte => .ok (decodeTreeByte b)
  | .codeBit => if b = 0 then .ok (decodeCodeBit false) else if b = 1 then .ok (decodeCodeBit true) else .error .notABit
  | .message => .ok (.msgByte b)

/-- The decoder: the first word of some bytes of a space, and the bytes after it. Every word is one byte long. -/
def decode (sp : Space) (bytes : List Byte) : Except DecodeError (Instr × List Byte) :=
  match bytes with
  | [] => .error .noWord
  | b :: rest =>
    match decodeByte sp b with
    | .ok i => .ok (i, rest)
    | .error e => .error e

/-- The bytes of a word whose bits are `w`, numbered as the opcode table numbers them: the low byte first. -/
def tableBytes (nbits w : Nat) : List Byte :=
  (List.range (max 1 ((nbits + 7) / 8))).map fun k => BitVec.ofNat 8 (w / 256 ^ k)

/-- What the decoder reads at the one port where the engine takes an instruction from outside, `CMD` (log entry 3). -/
def decodeTableWord (nbits w : Nat) : Option Instr :=
  match decode .command (tableBytes nbits w) with
  | .ok (i, _) => some i
  | .error _ => none

/-- The space an instruction's word is read in. -/
def spaceOf : Instr → Space
  | .nop | .clear | .train | .tser | .encode | .compress | .tdes | .decode | .expand | .codeword => .command
  | .reservedA | .reservedB | .reservedC | .reservedD | .reservedE | .reservedF => .command
  | .treeInternal | .treeLeaf _ => .treeByte
  | .codeLeft | .codeRight => .codeBit
  | .msgByte _ => .message

/-- How many bits the opcode table gives a word of a space (R70, R72, R75, R77). -/
def wordBits : Space → Nat
  | .command => 4
  | .treeByte => 8
  | .codeBit => 1
  | .message => 8

/-- The word of an instruction, from the tables of R70, R72, R75 and R77. -/
def encodeByte : Instr → Byte
  | .nop => 0x0
  | .clear => 0x1
  | .train => 0x2
  | .tser => 0x3
  | .encode => 0x4
  | .compress => 0x5
  | .tdes => 0x6
  | .decode => 0x7
  | .expand => 0x8
  | .codeword => 0x9
  | .reservedA => 0xA
  | .reservedB => 0xB
  | .reservedC => 0xC
  | .reservedD => 0xD
  | .reservedE => 0xE
  | .reservedF => 0xF
  | .treeInternal => 0x00
  | .treeLeaf v => v
  | .codeLeft => 0
  | .codeRight => 1
  | .msgByte b => b

/-- The encoder: the bytes of an instruction's word. -/
def encode (i : Instr) : List Byte := [encodeByte i]

end Sys2Proof
end

