-- ==== Sys2Proof/Machine/State.lean ====
section
/-! DEFINITION. The state of the engine as plain data, the ways a step can stop, and the state after reset. -/

namespace Sys2Proof.Machine

/-- Why the machine stops. The seven fault KINDS of R160 are not among these: a command that raises one ends in a next
state (`ErrKind`, `raise`). -/
inductive Fault where
  /-- Raised by TSER, ENCODE, COMPRESS, DECODE, EXPAND and CODEWORD when `TREE_VALID = 1` but an arena or `AIDX` entry they
  follow does not exist, or a walk does not end within the bounds of R40, which says that no such state arises. Raised by the
  codeword-bit and message-byte words, whatever `TREE_VALID` is, when they are taken inside the message stream and the child
  they go to does not exist (log entries 4 and 11). No run reaches either. Safe: the model stops where the spec says nothing. -/
  | treeUnreadable
deriving DecidableEq, Repr

/-- Why the machine has no meaning for what it is asked to do. -/
inductive Refusal where
  /-- Raised by `exec` for an instruction that has no meaning yet. Safe. -/
  | notModelled (mnemonic : String)
  /-- Raised by a host access to a register number 13 or above, which "do not exist; a model refuses a host access to
  them" (R37, U12). Safe. -/
  | noSuchRegister
  /-- Raised by a host access to a buffer index at or beyond the capacity, which "is outside the engine; a model refuses
  it" (R56). Safe. -/
  | indexBeyondCapacity
  /-- Raised by a word of a data stream (tree byte, codeword bit, message byte) when no command is reading that stream,
  or when the command has read its last word (the tree is complete, the cursor is at `BIT_LEN`): R72, R75 and R77 give these
  encodings a meaning only inside the command that reads them. Safe, and no run reaches it (log entry 4). -/
  | noOpenStream
deriving DecidableEq, Repr

/-- The seven fault kinds (R160). -/
inductive ErrKind where
  | symbolNotFound
  | ambiguousAlphabet
  | malformedArtifact
  | noTree
  | capacityExceeded
  | badRange
  | illegalCommand
deriving DecidableEq, Repr

/-- The `kind` field of an arena entry (R26). -/
inductive NodeKind where
  | leaf
  | internal
deriving DecidableEq, Repr

/-- One entry of the node arena, the source's Symbol (R26). Indices and frequencies are numbers: both are bounded, so
that their widths are unobservable (D7; log entry 7). -/
structure Node where
  kind : NodeKind
  value : Byte
  freq : Nat
  left : Option Nat
  right : Option Nat
  parent : Option Nat
deriving DecidableEq, Repr

/-- An entry of the deserializer's paired stacks: the current parent and its count of children remaining (R133). -/
structure StackEntry where
  par : Nat
  rem : Nat
deriving DecidableEq, Repr

/-- The deserializer's transient state (R35, R133): the nodes read so far, the paired stacks (top first), the leaf values
already met, the number of internal nodes, and the cursor into `ART`. -/
structure DeserCtx where
  nodes : List Node
  stk : List StackEntry
  seen : List Byte
  nint : Nat
  ap : Nat
deriving DecidableEq, Repr

/-- The decoder's transient state (R35, R121, R122): the current node, the symbols emitted so far, and the cursor into
the message. -/
structure WalkCtx where
  cur : Nat
  out : List Byte
  bi : Nat
deriving DecidableEq, Repr

/-- The transient state whose words the opcode table gives encodings of their own. It is `idle` between commands (R35:
"dead when the command ends"), and so in every state a run reaches (log entry 4). -/
inductive Work where
  | idle
  | deser (c : DeserCtx)
  | walk (c : WalkCtx)
deriving DecidableEq, Repr

/-- What the outside world can do to the engine: the four host accesses of R82 (a write to register 0 runs a command,
R24) and the reset input (R185). A written register value is given at the width of the widest register. -/
inductive HostAct where
  | writeReg (n : Nat) (v : BitVec 254)
  | readReg (n : Nat)
  | writeByte (b : Buffer) (i : Nat) (v : Byte)
  | readByte (b : Buffer) (i : Nat)
  | reset
deriving DecidableEq, Repr

/-- The contents of a byte buffer: the bytes written since reset, by index, rising strictly. An index that is not listed
holds no written value. -/
abbrev Memory := List Host.Cell

/-- The state of the engine (R20). -/
structure State where
  /-- the instance's constants (R8, R36); no step changes them -/
  params : Params
  /-- `STATUS.TREE_VALID`, bit 0 (R23) -/
  treeValid : Bool
  /-- `STATUS.FAULT_SEEN`, bit 1 (R23) -/
  faultSeen : Bool
  /-- `STATUS.ERR`, bits 4:2 (R23, R160); `none` is the code 0 -/
  err : Option ErrKind
  /-- `ERR_INFO`, register 2 (R25) -/
  errInfo : BitVec 40
  /-- `SYM_LEN`, register 3 (R21) -/
  symLen : BitVec 32
  /-- `ART_LEN`, register 4 (R21) -/
  artLen : BitVec 32
  /-- `MSG_OFF`, register 5 (R33) -/
  msgOff : BitVec 32
  /-- `BIT_LEN`, register 6 (R33) -/
  bitLen : BitVec 40
  /-- `ARG`, register 7 (R34) -/
  arg : BitVec 8
  /-- `CW_LEN`, register 8 (R34) -/
  cwLen : BitVec 8
  /-- `CW_BITS`, register 9 (R34) -/
  cwBits : BitVec 254
  /-- `ALPHA_SIZE`, register 10 (R29) -/
  alphaSize : BitVec 8
  /-- `NODE_CNT`, register 11 (R29) -/
  nodeCnt : BitVec 9
  /-- `ROOT`, register 12 (R29) -/
  root : BitVec 9
  /-- the node arena `N`, its meaningful entries `0 .. NODE_CNT-1` (R26); none while there is no tree (U7) -/
  arena : List Node
  /-- the alphabet index `AIDX`, its meaningful entries `0 .. ALPHA_SIZE-1` (R30); none while there is no tree (U7) -/
  aidx : List Nat
  /-- the buffer `SYM` (R32) -/
  sym : Memory
  /-- the buffer `ART` (R32) -/
  art : Memory
  /-- the transient state of a command that reads a data stream (R35) -/
  work : Work
  /-- the host's actions still to come, next first (the model's own field, log entry 5) -/
  input : List HostAct
  /-- the value the host's last read returned (the model's own field, log entry 5) -/
  hostRead : BitVec 254
  /-- how many resets there have been, the argument of the free value `Config.unwritten` (the model's own field, log
  entry 2) -/
  epoch : Nat
deriving DecidableEq, Repr

/-- The state after the `epoch`-th reset of an instance, with the host's actions still to come (R38, R185): every
register 0, no tree, no byte of either buffer written. -/
def State.resetWith (p : Params) (epoch : Nat) (hostRead : BitVec 254) (input : List HostAct) : State where
  params := p
  treeValid := false
  faultSeen := false
  err := none
  errInfo := 0
  symLen := 0
  artLen := 0
  msgOff := 0
  bitLen := 0
  arg := 0
  cwLen := 0
  cwBits := 0
  alphaSize := 0
  nodeCnt := 0
  root := 0
  arena := []
  aidx := []
  sym := []
  art := []
  work := .idle
  input := input
  hostRead := hostRead
  epoch := epoch

/-- The engine right after reset (R185): idle, waiting for the host. -/
def State.reset : State := State.resetWith Params.chosen 0 0 []

/-- How a meaning ends. -/
abbrev Result := Host.Outcome State Fault Refusal

end Sys2Proof.Machine
end

