-- ==== Sys2Proof/Machine/Flags.lean ====
section
/-! DEFINITION. The status register, its error codes, and the fault record. -/

namespace Sys2Proof.Machine

/-- The code of a fault kind in `STATUS.ERR` (R160). -/
def errCode : ErrKind → BitVec 3
  | .symbolNotFound => 1
  | .ambiguousAlphabet => 2
  | .malformedArtifact => 3
  | .noTree => 4
  | .capacityExceeded => 5
  | .badRange => 6
  | .illegalCommand => 7

/-- `STATUS.ERR`: 0 is "no fault" (R160). -/
def errField (e : Option ErrKind) : BitVec 3 :=
  match e with
  | none => 0
  | some k => errCode k

/-- `STATUS` as the host reads it (R23): bit 0 `TREE_VALID`, bit 1 `FAULT_SEEN`, bits 4:2 `ERR`, bits 7:5 read as 0. -/
def statusWord (s : State) : BitVec 8 :=
  (0 : BitVec 3) ++ errField s.err ++ BitVec.ofBool s.faultSeen ++ BitVec.ofBool s.treeValid

/-- `ERR_INFO` for a position and a value: `val * 2^32 + pos` (R25, R170). -/
def errInfoOf (pos : Nat) (val : Byte) : BitVec 40 :=
  val ++ BitVec.ofNat 32 pos

/-- The end of a command without fault: `STATUS.ERR <- 0`, `ERR_INFO <- 0` (R25 and each command's pseudocode). -/
def succeed (s : State) : State :=
  { s with err := none, errInfo := 0 }

end Sys2Proof.Machine
end

