-- ==== Sys2Proof/Machine/Ops.lean ====
section
/-! DEFINITION. The shared operations: reading and writing a buffer, raising a fault, the stages of a composite command,
arena entries. -/

namespace Sys2Proof.Machine

/-! ### A byte buffer -/

/-- The byte written last at an index, if one was written since reset (R52). -/
def Memory.peek : Memory → Nat → Option Byte
  | [], _ => none
  | (b, w) :: m, a => if a = b then some w else Memory.peek m a

/-- Writing one byte (R52). The list stays sorted by index. -/
def Memory.poke : Memory → Nat → Byte → Memory
  | [], a, v => [(a, v)]
  | (b, w) :: m, a, v =>
    if a < b then (a, v) :: (b, w) :: m
    else if a = b then (a, v) :: m
    else (b, w) :: Memory.poke m a v

/-- Writing bytes at rising indices from `off` on (R157). -/
def Memory.pokeAll (m : Memory) (off : Nat) : List Byte → Memory
  | [] => m
  | v :: vs => Memory.pokeAll (Memory.poke m off v) (off + 1) vs

/-- The canonical form: the indices rise strictly. An unlisted index reads as no written value, so that no entry can equal
it. -/
def Memory.wf (m : Memory) : Bool :=
  decide ((m.map Prod.fst).Pairwise (· < ·))

/-- A buffer's contents. -/
def bufferOf (s : State) : Buffer → Memory
  | .sym => s.sym
  | .art => s.art

/-- A buffer's capacity (R8). -/
def capacityOf (p : Params) : Buffer → Nat
  | .sym => p.symCap
  | .art => p.artCap

/-- The number of the register that holds a buffer's length (R21). -/
def lengthRegister : Buffer → Nat
  | .sym => 3
  | .art => 4

/-- `MemRead(buf, i, 1)`: the last byte written, and for a byte that nothing has written since reset the free value (R52,
R188, U1). -/
def readByte (s : State) (b : Buffer) (i : Nat) : Byte :=
  (Memory.peek (bufferOf s b) i).getD (Config.unwritten s.epoch b i)

/-- `MemWrite(buf, i, 1, v)` (R52). -/
def writeByte (s : State) (b : Buffer) (i : Nat) (v : Byte) : State :=
  match b with
  | .sym => { s with sym := Memory.poke s.sym i v }
  | .art => { s with art := Memory.poke s.art i v }

/-! ### Faults (R170) -/

/-- Fault entry, `raise F(pos, val)`, in a command or stage that is not TRAIN or TDES (R170). There is no return from it
beside it: "there is nothing to return from" (R173). -/
def raise (k : ErrKind) (pos : Nat) (val : Byte) (s : State) : State :=
  { s with err := some k, faultSeen := true, errInfo := errInfoOf pos val }

/-- The tree is invalidated: `TREE_VALID`, `ALPHA_SIZE`, `NODE_CNT`, `ROOT` become 0, and the arena and `AIDX` are
unreadable from here on (R170, R172, U7). -/
def dropTree (s : State) : State :=
  { s with treeValid := false, alphaSize := 0, nodeCnt := 0, root := 0, arena := [], aidx := [] }

/-- Fault entry in a TRAIN or TDES stage: the tree is invalidated as well (R170). -/
def raiseInTree (k : ErrKind) (pos : Nat) (val : Byte) (s : State) : State :=
  raise k pos val (dropTree s)

/-- A tree is in place: `TREE_VALID = 1` and the registers of R29 describe it. -/
def installTree (nodes : List Node) (aidx : List Nat) (root : Nat) (s : State) : State :=
  { s with
    treeValid := true
    alphaSize := BitVec.ofNat 8 aidx.length
    nodeCnt := BitVec.ofNat 9 nodes.length
    root := BitVec.ofNat 9 root
    arena := nodes
    aidx := aidx }

/-- The next stage of a composite command runs only when the stage before it did not fault (R140). -/
def andThen (r : Result) (f : State → Result) : Result :=
  match r with
  | .next t => if t.err = none then f t else .next t
  | .fault x => .fault x
  | .refused x => .refused x

/-! ### The arena (R26) -/

/-- A new leaf (R94, R134). -/
def newLeaf (value : Byte) (freq : Nat) (parent : Option Nat) : Node :=
  { kind := .leaf, value := value, freq := freq, left := none, right := none, parent := parent }

/-- A new internal node; its `value` reads as 0 (R26, R98, R134). -/
def newInternal (left right : Option Nat) (freq : Nat) (parent : Option Nat) : Node :=
  { kind := .internal, value := 0, freq := freq, left := left, right := right, parent := parent }

/-- `N[n].kind`. -/
def kindAt (nodes : List Node) (n : Nat) : Option NodeKind :=
  nodes[n]?.map (·.kind)

/-- `N[n].value`. -/
def valueAt (nodes : List Node) (n : Nat) : Option Byte :=
  nodes[n]?.map (·.value)

/-- `N[n].freq`; an entry that does not exist has none, and counts 0. -/
def freqAt (nodes : List Node) (n : Nat) : Nat :=
  match nodes[n]? with
  | some nd => nd.freq
  | none => 0

/-- `N[n].left`. -/
def leftAt (nodes : List Node) (n : Nat) : Option Nat :=
  nodes[n]?.bind (·.left)

/-- `N[n].right`. -/
def rightAt (nodes : List Node) (n : Nat) : Option Nat :=
  nodes[n]?.bind (·.right)

/-- `N[n].parent`. -/
def parentAt (nodes : List Node) (n : Nat) : Option Nat :=
  nodes[n]?.bind (·.parent)

/-- `N[n].parent <- p`. -/
def setParent (nodes : List Node) (n p : Nat) : List Node :=
  nodes.modify n fun nd => { nd with parent := some p }

/-- `N[n].left <- c`. -/
def setLeft (nodes : List Node) (n c : Nat) : List Node :=
  nodes.modify n fun nd => { nd with left := some c }

/-- `N[n].right <- c`. -/
def setRight (nodes : List Node) (n c : Nat) : List Node :=
  nodes.modify n fun nd => { nd with right := some c }

end Sys2Proof.Machine
end

