-- ==== Sys2Proof/Machine/Operands.lean ====
section
/-! DEFINITION. The operand forms (R157) and the bit packing of the message (R54, R77). -/

namespace Sys2Proof.Machine

/-- The number of bytes that hold `n` bits (R9). -/
def ceil8 (n : Nat) : Nat := (n + 7) / 8

/-- `SYM[i]` (R157). -/
def symByte (s : State) (i : Nat) : Byte := readByte s .sym i

/-- `ART[i]` (R157). -/
def artByte (s : State) (i : Nat) : Byte := readByte s .art i

/-- `SYM[0 .. SYM_LEN-1]` (R32). -/
def symbols (s : State) : List Byte :=
  (List.range s.symLen.toNat).map (symByte s)

/-- `ART[0 .. ART_LEN-1]` (R32). -/
def artifact (s : State) : List Byte :=
  (List.range s.artLen.toNat).map (artByte s)

/-- Bit `i` of a byte sequence, least significant bit of each byte first (R54, R77). -/
def bitOf (byteAt : Byte) (i : Nat) : Bool := byteAt.getLsbD (i % 8)

/-- Message bit `i`: bit `i mod 8` of `ART[MSG_OFF + i div 8]` (R54, R120). -/
def msgBit (s : State) (i : Nat) : Bool :=
  bitOf (artByte s (s.msgOff.toNat + i / 8)) i

/-- The `BIT_LEN` message bits, in the order the decoder consumes them (R120). -/
def messageBits (s : State) : List Bool :=
  (List.range s.bitLen.toNat).map (msgBit s)

/-- The number whose bit `i` is the `i`-th of `bits`. -/
def bitsValue : List Bool → Nat
  | [] => 0
  | b :: bs => b.toNat + 2 * bitsValue bs

/-- Byte `j` of the packed message: its bit `b` is bit `8j + b` of the sequence, and 0 past the end (R77). -/
def packByte (bits : List Bool) (j : Nat) : Byte :=
  BitVec.ofNat 8 (bitsValue ((bits.drop (8 * j)).take 8))

/-- `Pack(B)` (R77). -/
def pack (bits : List Bool) : List Byte :=
  (List.range (ceil8 bits.length)).map (packByte bits)

/-- `Unpack(P, L)` (R77). -/
def unpack (bytes : List Byte) (len : Nat) : List Bool :=
  (List.range len).map fun i => bitOf (bytes.getD (i / 8) 0) i

end Sys2Proof.Machine
end

