-- ==== Sys2Proof/Machine/Decoder.lean ====
section
/-! DEFINITION. The decoder: the walk of the tree, DECODE, and the words of the message stream (codeword bits and message
bytes). -/

namespace Sys2Proof.Machine

/-- `N[CUR].left` for the bit 0, `N[CUR].right` for the bit 1 (R75, R121). -/
def childOf (nodes : List Node) (cur : Nat) (bit : Bool) : Option Nat :=
  if bit then rightAt nodes cur else leftAt nodes cur

/-- One bit of the walk: the step of R121, and the emit of R122 when it arrives at a leaf. -/
def walkBit (nodes : List Node) (root : Nat) (c : WalkCtx) (bit : Bool) : Option WalkCtx :=
  match childOf nodes c.cur bit with
  | none => none
  | some n =>
    match nodes[n]? with
    | none => none
    | some nd =>
      match nd.kind with
      | .leaf => some { cur := root, out := c.out ++ [nd.value], bi := c.bi + 1 }
      | .internal => some { cur := n, out := c.out, bi := c.bi + 1 }

/-- The bits of a sequence, each walked in turn. -/
def walkBits (nodes : List Node) (root : Nat) : WalkCtx → List Bool → Option WalkCtx
  | c, [] => some c
  | c, bit :: bits =>
    match walkBit nodes root c bit with
    | none => none
    | some c' => walkBits nodes root c' bits

/-- The decoder at the start of a message: at the root, nothing emitted (R121). -/
def walkStart (s : State) : WalkCtx := { cur := s.root.toNat, out := [], bi := 0 }

/-- The tests DECODE makes before its first bit (R124, R169). -/
def decodeTests (s : State) : Option ErrKind :=
  if s.treeValid = false then some .noTree
  else if s.params.artCap < s.artLen.toNat ∨ s.artLen.toNat < s.msgOff.toNat
      ∨ 8 * (s.artLen.toNat - s.msgOff.toNat) < s.bitLen.toNat then some .badRange
  else none

/-- The end of DECODE: an unfinished walk is dropped (R123), and the symbols go to `SYM` if they fit (R124). -/
def finishWalk (out : List Byte) (s : State) : Result :=
  if s.params.symCap < out.length then .next (raise .capacityExceeded 0 0 s)
  else .next (succeed { s with sym := Memory.pokeAll s.sym 0 out, symLen := BitVec.ofNat 32 out.length })

/-- The stage DECODE (R124). -/
def decodeStage (s : State) : Result :=
  match decodeTests s with
  | some k => .next (raise k 0 0 s)
  | none =>
    match walkBits s.arena s.root.toNat (walkStart s) (messageBits s) with
    | none => .fault .treeUnreadable
    | some c => finishWalk c.out s

/-- DECODE (R124). -/
def execDecode (s : State) : Result := decodeStage s

/-! ### The words of the message stream -/

/-- The message stream is read: the state in which DECODE is at the start of its message. -/
def openMessage (s : State) : State := { s with work := .walk (walkStart s) }

/-- The decoder takes the next bits of the message, while DECODE reads it (R120 to R122). DESIGN CHOICE (log entry 4): the
tests DECODE makes before its first bit (`NoTree` and `BadRange`, R124) are not made again at a word. With `TREE_VALID = 0`,
a moment the spec does not have, the word walks the arena as it stands, and stops in `treeUnreadable` where the child it
goes to does not exist (log entry 11). -/
def takeBits (bits : List Bool) (s : State) : Result :=
  match s.work with
  | .walk c =>
    if s.bitLen.toNat ≤ c.bi then .refused .noOpenStream
    else
      match walkBits s.arena s.root.toNat c bits with
      | none => .fault .treeUnreadable
      | some c' => .next { s with work := .walk c' }
  | .idle => .refused .noOpenStream
  | .deser _ => .refused .noOpenStream

/-- The bits of a message byte that the decoder has still to take: from the cursor's bit on, and none at or beyond
`BIT_LEN` (R77, R124: "the bits of the last byte at positions `BIT_LEN mod 8` and above are not read"). -/
def bitsOfByte (b : Byte) (bi bitLen : Nat) : List Bool :=
  (List.range' bi (min (8 - bi % 8) (bitLen - bi))).map (bitOf b)

/-- The cursor of the decoder, 0 when it is not reading. -/
def walkCursor (s : State) : Nat :=
  match s.work with
  | .walk c => c.bi
  | .idle => 0
  | .deser _ => 0

/-- The codeword bit 0: go to the left child (R75, R121, R122). -/
def execCodeLeft (s : State) : Result := takeBits [false] s

/-- The codeword bit 1: go to the right child (R75, R121, R122). -/
def execCodeRight (s : State) : Result := takeBits [true] s

/-- A packed message byte: its message bits, least significant first (R77, R120). -/
def execMsgByte (b : Byte) (s : State) : Result :=
  takeBits (bitsOfByte b (walkCursor s) s.bitLen.toNat) s

end Sys2Proof.Machine
end

