-- ==== Sys2Proof/Machine/TreeConstructor.lean ====
section
/-! DEFINITION. The tree constructor (FrequencyTable, priority queue, TreeBuilder, AlphabetIndex) and TRAIN. The histogram
and the live set are local to the command, as R35 allows. -/

namespace Sys2Proof.Machine

/-- `H[v]`: how often `v` occurs in the input (R90). -/
def histogram (syms : List Byte) (v : Byte) : Nat := syms.count v

/-- The values `1..255`, ascending (R6). -/
def symbolValues : List Byte := (List.range' 1 255).map (BitVec.ofNat 8)

/-- The values that occur, ascending: `A` before any filler (R93). -/
def occurring (syms : List Byte) : List Byte :=
  symbolValues.filter fun v => decide (0 < histogram syms v)

/-- One turn of "while `|A| < 2`, add to `A` the smallest value of `1..255` not yet in `A`" (R93). -/
def addFiller (a : List Byte) : List Byte :=
  if a.length < 2 then
    match symbolValues.find? (fun v => !a.contains v) with
    | some f => symbolValues.filter fun v => v == f || a.contains v
    | none => a
  else a

/-- `A` with its filler leaves, ascending (R93). -/
def trainedAlphabet (syms : List Byte) : List Byte :=
  addFiller (addFiller (occurring syms))

/-- The leaves `N[0 .. k-1]` (R94). -/
def leaves (syms : List Byte) : List Node :=
  (trainedAlphabet syms).map fun v => newLeaf v (histogram syms v) none

/-- The tree under construction: the arena, and the live set as a list without repeats (R35, R95). -/
structure Builder where
  nodes : List Node
  live : List Nat
deriving DecidableEq, Repr

/-- Whether the key `(freq, index)` of node `a` is less than that of node `b` (R95). -/
def keyLess (nodes : List Node) (a b : Nat) : Bool :=
  decide (freqAt nodes a < freqAt nodes b ∨ (freqAt nodes a = freqAt nodes b ∧ a < b))

/-- The live node with the least key (R95). -/
def leastKey (nodes : List Node) : List Nat → Option Nat
  | [] => none
  | n :: ns =>
    match leastKey nodes ns with
    | none => some n
    | some m => if keyLess nodes m n then some m else some n

/-- `PQ_ExtractMin`: the node with the least key, and the live set without it (R95). -/
def extractMin (nodes : List Node) (live : List Nat) : Option (Nat × List Nat) :=
  match leastKey nodes live with
  | none => none
  | some n => some (n, live.erase n)

/-- One merge step: the first selected node becomes the left child, the second the right child (R98). -/
def mergeStep (t : Builder) : Builder :=
  match extractMin t.nodes t.live with
  | none => t
  | some (a, live₁) =>
    match extractMin t.nodes live₁ with
    | none => t
    | some (b, live₂) =>
      { nodes :=
          setParent (setParent t.nodes a t.nodes.length) b t.nodes.length
            ++ [newInternal (some a) (some b) (freqAt t.nodes a + freqAt t.nodes b) none]
        live := live₂ ++ [t.nodes.length] }

/-- "While `|LIVE| > 1`: merge step" (R98), at most `fuel` times; `k - 1` steps are all there are (R99). -/
def mergeAll : Nat → Builder → Builder
  | 0, t => t
  | fuel + 1, t => if 1 < t.live.length then mergeAll fuel (mergeStep t) else t

/-- `PQ_Init`: all leaves are live (R95). -/
def initialBuilder (syms : List Byte) : Builder :=
  { nodes := leaves syms, live := List.range (leaves syms).length }

/-- The arena TRAIN builds (R94 to R99). -/
def trainedArena (syms : List Byte) : List Node :=
  (mergeAll (leaves syms).length (initialBuilder syms)).nodes

/-- The stage TRAIN (R103). After the build `AIDX[j] = j` (R102) and the root is the node created last (R99). -/
def trainStage (s : State) : Result :=
  if s.params.symCap < s.symLen.toNat then .next (raiseInTree .badRange 0 0 s)
  else
    match (symbols s).findIdx? (· == marker) with
    | some i => .next (raiseInTree .ambiguousAlphabet i 0 s)
    | none =>
      .next (succeed (installTree (trainedArena (symbols s)) (List.range (trainedAlphabet (symbols s)).length)
        ((trainedArena (symbols s)).length - 1) s))

/-- TRAIN (R103). -/
def execTrain (s : State) : Result := trainStage s

end Sys2Proof.Machine
end

