-- ==== Sys2Proof/Machine/Encoder.lean ====
section
/-! DEFINITION. The encoder: alphabet lookup, codeword derivation, CODEWORD and ENCODE. -/

namespace Sys2Proof.Machine

/-- What a lookup in the alphabet index finds. -/
inductive Lookup where
  | found (leaf : Nat)
  | notFound
  /-- an entry of `AIDX` or of the arena does not exist: no state with a tree as R40 says -/
  | unreadable
deriving DecidableEq, Repr

/-- The search loop of R110 over `AIDX[lo .. hi)`; `hi - lo` turns are enough. -/
def searchIndex (nodes : List Node) (aidx : List Nat) (v : Byte) : Nat → Nat → Nat → Lookup
  | 0, _, _ => .notFound
  | fuel + 1, lo, hi =>
    if lo < hi then
      match aidx[(lo + hi) / 2]? with
      | none => .unreadable
      | some i =>
        match valueAt nodes i with
        | none => .unreadable
        | some w =>
          if w = v then .found i
          else if w < v then searchIndex nodes aidx v fuel ((lo + hi) / 2 + 1) hi
          else searchIndex nodes aidx v fuel lo ((lo + hi) / 2)
    else .notFound

/-- `Lookup(v)` (R110). -/
def lookup (s : State) (v : Byte) : Lookup :=
  searchIndex s.arena s.aidx v s.alphaSize.toNat 0 s.alphaSize.toNat

/-- The walk of R111 from a node to the root, at most `fuel` steps. Each bit is put before the ones already collected,
which is the reversal of R111. -/
def climb (nodes : List Node) : Nat → Nat → List Bool → Option (List Bool)
  | fuel, n, bits =>
    match nodes[n]? with
    | none => none
    | some nd =>
      match nd.parent with
      | none => some bits
      | some p =>
        match fuel with
        | 0 => none
        | fuel + 1 =>
          match nodes[p]? with
          | none => none
          | some _ => climb nodes fuel p ((leftAt nodes p != some n) :: bits)

/-- `Code(leaf)` (R111). -/
def codeOf (nodes : List Node) (leaf : Nat) : Option (List Bool) :=
  climb nodes maxCw leaf []

/-- `CODEWORD` (R113). -/
def codewordStage (s : State) : Result :=
  if s.treeValid = false then .next (raise .noTree 0 0 { s with cwLen := 0, cwBits := 0 })
  else
    match lookup s s.arg with
    | .unreadable => .fault .treeUnreadable
    | .notFound => .next (raise .symbolNotFound 0 s.arg { s with cwLen := 0, cwBits := 0 })
    | .found leaf =>
      match codeOf s.arena leaf with
      | none => .fault .treeUnreadable
      | some c =>
        .next (succeed { s with cwLen := BitVec.ofNat 8 c.length, cwBits := BitVec.ofNat 254 (bitsValue c) })

/-- What the validation pass of ENCODE finds (R115). -/
inductive Scan where
  | clean
  | bad (k : ErrKind) (i : Nat) (v : Byte)
  /-- a lookup met an entry that does not exist -/
  | unreadable
deriving DecidableEq, Repr

/-- The validation pass over the symbols from index `i` on: the first offending byte decides (R115, R169). -/
def scanSymbols (s : State) : Nat → List Byte → Scan
  | _, [] => .clean
  | i, v :: vs =>
    if v = marker then .bad .ambiguousAlphabet i 0
    else
      match lookup s v with
      | .unreadable => .unreadable
      | .notFound => .bad .symbolNotFound i v
      | .found _ => scanSymbols s (i + 1) vs

/-- The codeword of one symbol value with the current tree. -/
def symbolCode (s : State) (v : Byte) : Option (List Bool) :=
  match lookup s v with
  | .found leaf => codeOf s.arena leaf
  | .notFound => none
  | .unreadable => none

/-- `Bits(S)`: the codewords of a sequence, one after another with no delimiters (R114). -/
def encodeBits (s : State) : List Byte → Option (List Bool)
  | [] => some []
  | v :: vs =>
    match symbolCode s v with
    | none => none
    | some c =>
      match encodeBits s vs with
      | none => none
      | some rest => some (c ++ rest)

/-- The writes of ENCODE once every test has passed (R115). -/
def storeMessage (bits : List Bool) (s : State) : State :=
  { s with
    art := Memory.pokeAll s.art s.msgOff.toNat (pack bits)
    artLen := BitVec.ofNat 32 (s.msgOff.toNat + ceil8 bits.length)
    bitLen := BitVec.ofNat 40 bits.length }

/-- The stage ENCODE (R115). -/
def encodeStage (s : State) : Result :=
  if s.treeValid = false then .next (raise .noTree 0 0 s)
  else if s.params.symCap < s.symLen.toNat ∨ s.params.artCap < s.msgOff.toNat then .next (raise .badRange 0 0 s)
  else
    match scanSymbols s 0 (symbols s) with
    | .unreadable => .fault .treeUnreadable
    | .bad k i v => .next (raise k i v s)
    | .clean =>
      match encodeBits s (symbols s) with
      | none => .fault .treeUnreadable
      | some bits =>
        if s.params.artCap < s.msgOff.toNat + ceil8 bits.length then .next (raise .capacityExceeded 0 0 s)
        else .next (succeed (storeMessage bits s))

/-- CODEWORD (R113). -/
def execCodeword (s : State) : Result := codewordStage s

/-- ENCODE (R115). -/
def execEncode (s : State) : Result := encodeStage s

end Sys2Proof.Machine
end

