-- ==== Sys2Proof/Machine/Codec.lean ====
section
/-! DEFINITION. The artifact codec: TSER, TDES, the tree bytes TDES reads, and the composites COMPRESS and EXPAND. -/

namespace Sys2Proof.Machine

/-! ### Serializing -/

/-- `Pre(n)` (R130), for a node with at most `fuel` levels below and at it. -/
def preorder (nodes : List Node) : Nat → Nat → Option (List Byte)
  | 0, _ => none
  | fuel + 1, n =>
    match nodes[n]? with
    | none => none
    | some nd =>
      match nd.kind with
      | .leaf => some [nd.value]
      | .internal =>
        match nd.left, nd.right with
        | some l, some r =>
          match preorder nodes fuel l, preorder nodes fuel r with
          | some bl, some br => some (marker :: (bl ++ br))
          | _, _ => none
        | _, _ => none

/-- `TreeBytes = Pre(ROOT)` (R130). A tree has at most `maxCw + 1` levels (R40). -/
def treeBytes (s : State) : Option (List Byte) :=
  preorder s.arena (maxCw + 1) s.root.toNat

/-- The writes of TSER once every test has passed (R132). -/
def storeTree (bytes : List Byte) (s : State) : State :=
  { s with
    art := Memory.pokeAll s.art 0 bytes
    artLen := BitVec.ofNat 32 s.nodeCnt.toNat
    msgOff := BitVec.ofNat 32 s.nodeCnt.toNat
    bitLen := 0 }

/-- The stage TSER (R132). -/
def tserStage (s : State) : Result :=
  if s.treeValid = false then .next (raise .noTree 0 0 s)
  else if s.params.artCap < s.nodeCnt.toNat then .next (raise .capacityExceeded 0 0 s)
  else
    match treeBytes s with
    | none => .fault .treeUnreadable
    | some bytes => .next (succeed (storeTree bytes s))

/-- TSER (R132). -/
def execTser (s : State) : Result := tserStage s

/-! ### Deserializing -/

/-- The deserializer after the root's byte (R136). -/
def deserStart : DeserCtx :=
  { nodes := [newInternal none none 0 none], stk := [{ par := 0, rem := 2 }], seen := [], nint := 1, ap := 1 }

/-- One deserializer step with tree byte `b` (R134): the new node is linked to the parent on top of the stacks, which is
popped when it is complete, and a new internal node is pushed. The counts and the cursor of R136 move with it. -/
def deserStep (c : DeserCtx) (b : Byte) : DeserCtx :=
  match c.stk with
  | [] => c
  | top :: rest =>
    { nodes :=
        (if top.rem = 2 then setLeft c.nodes top.par c.nodes.length else setRight c.nodes top.par c.nodes.length)
          ++ [if b = marker then newInternal none none 0 (some top.par) else newLeaf b 0 (some top.par)]
      stk :=
        (if b = marker then [{ par := c.nodes.length, rem := 2 }] else [])
          ++ (if top.rem - 1 = 0 then rest else { par := top.par, rem := top.rem - 1 } :: rest)
      seen := if b = marker then c.seen else b :: c.seen
      nint := if b = marker then c.nint + 1 else c.nint
      ap := c.ap + 1 }

/-- The tests M4 and M5 of a tree byte, and its step (R136, R137). A failed test gives the position and the value it
reports. -/
def takeTreeByte (c : DeserCtx) (b : Byte) : Except (Nat × Byte) DeserCtx :=
  if b = marker ∧ c.nint = maxInt then .error (c.ap, 0)
  else if b ≠ marker ∧ b ∈ c.seen then .error (c.ap, b)
  else .ok (deserStep c b)

/-- The loop of R136 over the bytes of `ART` from the cursor on; when they end before the tree does, that is M3. -/
def deserialize (artLen : Nat) : List Byte → DeserCtx → Except (Nat × Byte) DeserCtx
  | [], c => if c.stk = [] then .ok c else .error (artLen, 0)
  | b :: bs, c =>
    if c.stk = [] then .ok c
    else
      match takeTreeByte c b with
      | .error e => .error e
      | .ok c' => deserialize artLen bs c'

/-- Put a leaf into an index that is sorted by value (R135). -/
def insertByValue (nodes : List Node) (n : Nat) : List Nat → List Nat
  | [] => [n]
  | m :: ms =>
    if (valueAt nodes n).getD 0 ≤ (valueAt nodes m).getD 0 then n :: m :: ms else m :: insertByValue nodes n ms

/-- The arena indices of the leaves in ascending order of value (R30, R135). -/
def leafIndex (nodes : List Node) : List Nat :=
  ((List.range nodes.length).filter fun n => kindAt nodes n = some .leaf).foldr (insertByValue nodes) []

/-- The tests TDES makes before its loop: the range of `ART_LEN`, M1 and M2 (R136, R137, R169). -/
def tdesTests (s : State) : Option (ErrKind × Byte) :=
  if s.params.artCap < s.artLen.toNat then some (.badRange, 0)
  else if s.artLen = 0 then some (.malformedArtifact, 0)
  else if artByte s 0 ≠ marker then some (.malformedArtifact, artByte s 0)
  else none

/-- The end of TDES: the tree is in place, the root is node 0, and `MSG_OFF` is the index of the first byte after the tree
(R135). -/
def finishTree (c : DeserCtx) (s : State) : State :=
  succeed (installTree c.nodes (leafIndex c.nodes) 0 { s with msgOff := BitVec.ofNat 32 c.ap })

/-- The stage TDES (R136). -/
def tdesStage (s : State) : Result :=
  match tdesTests s with
  | some (k, val) => .next (raiseInTree k 0 val s)
  | none =>
    match deserialize s.artLen.toNat ((artifact s).drop 1) deserStart with
    | .error (pos, val) => .next (raiseInTree .malformedArtifact pos val s)
    | .ok c => .next (finishTree c s)

/-- TDES (R136). -/
def execTdes (s : State) : Result := tdesStage s

/-! ### The words of the tree stream -/

/-- The tree stream is read: the state in which TDES has read the root's byte. -/
def openTree (s : State) : State := { s with work := .deser deserStart }

/-- The deserializer takes the next byte of the tree, while TDES reads it and the tree is incomplete (R134, R136). A failed
test M4 or M5 ends the command in its fault. DESIGN CHOICE (log entry 4): the word is taken wherever the cursor stands, also at
or past `ART_LEN`; M3, the end of the bytes, is not tested here but by the step before it takes a word
(`treeStreamStep`), and the tests TDES makes before its loop (`BadRange`, M1, M2) are not made again. -/
def takeTreeWord (b : Byte) (s : State) : Result :=
  match s.work with
  | .deser c =>
    if c.stk = [] then .refused .noOpenStream
    else
      match takeTreeByte c b with
      | .error (pos, val) => .next (raiseInTree .malformedArtifact pos val { s with work := .idle })
      | .ok c' => .next { s with work := .deser c' }
  | .idle => .refused .noOpenStream
  | .walk _ => .refused .noOpenStream

/-- The tree byte of an internal node (R72, R134). -/
def execTreeInternal (s : State) : Result := takeTreeWord marker s

/-- The tree byte of a leaf of value `v` (R72, R134). -/
def execTreeLeaf (v : Byte) (s : State) : Result := takeTreeWord v s

/-! ### Whole artifacts -/

/-- COMPRESS: TRAIN, TSER, ENCODE (R142). -/
def execCompress (s : State) : Result :=
  andThen (andThen (trainStage s) tserStage) encodeStage

/-- `BIT_LEN <- 8 * (ART_LEN - MSG_OFF)`: every bit of every remaining byte (R144). -/
def feedAllBits (s : State) : State :=
  { s with bitLen := BitVec.ofNat 40 (8 * (s.artLen.toNat - s.msgOff.toNat)) }

/-- EXPAND: TDES, all remaining bits, DECODE (R144). -/
def execExpand (s : State) : Result :=
  andThen (tdesStage s) fun t => decodeStage (feedAllBits t)

end Sys2Proof.Machine
end

