-- ==== Sys2Proof/Machine/System.lean ====
section
/-! DEFINITION. The system commands: NOP, CLEAR, and the reserved codes. -/

namespace Sys2Proof.Machine

/-- NOP: nothing, not even `STATUS` (R151). -/
def execNop (s : State) : Result := .next s

/-- CLEAR: every register back to its reset value; the buffers keep their bytes, and the tree is gone (R152, R38). -/
def execClear (s : State) : Result :=
  .next { dropTree (succeed s) with
    faultSeen := false
    symLen := 0
    artLen := 0
    msgOff := 0
    bitLen := 0
    arg := 0
    cwLen := 0
    cwBits := 0 }

/-- A reserved command code raises `IllegalCommand(0, c)` (R153). -/
def illegalCommand (c : Byte) (s : State) : Result :=
  .next (raise .illegalCommand 0 c s)

/-- Code `0xA` (R153). -/
def execReservedA (s : State) : Result := illegalCommand 0xA s

/-- Code `0xB` (R153). -/
def execReservedB (s : State) : Result := illegalCommand 0xB s

/-- Code `0xC` (R153). -/
def execReservedC (s : State) : Result := illegalCommand 0xC s

/-- Code `0xD` (R153). -/
def execReservedD (s : State) : Result := illegalCommand 0xD s

/-- Code `0xE` (R153). -/
def execReservedE (s : State) : Result := illegalCommand 0xE s

/-- Code `0xF` (R153). -/
def execReservedF (s : State) : Result := illegalCommand 0xF s

end Sys2Proof.Machine
end

