-- ==== Sys2Proof/Machine/Dispatch.lean ====
section
/-! DEFINITION. One arm per instruction. -/

namespace Sys2Proof.Machine

/-- What an instruction does (R150 for the commands). -/
def exec (i : Instr) (s : State) : Host.Outcome State Fault Refusal :=
  match i with
  | .nop => Sys2Proof.Machine.execNop s
  | .clear => Sys2Proof.Machine.execClear s
  | .train => Sys2Proof.Machine.execTrain s
  | .tser => Sys2Proof.Machine.execTser s
  | .encode => Sys2Proof.Machine.execEncode s
  | .compress => Sys2Proof.Machine.execCompress s
  | .tdes => Sys2Proof.Machine.execTdes s
  | .decode => Sys2Proof.Machine.execDecode s
  | .expand => Sys2Proof.Machine.execExpand s
  | .codeword => Sys2Proof.Machine.execCodeword s
  | .reservedA => Sys2Proof.Machine.execReservedA s
  | .reservedB => Sys2Proof.Machine.execReservedB s
  | .reservedC => Sys2Proof.Machine.execReservedC s
  | .reservedD => Sys2Proof.Machine.execReservedD s
  | .reservedE => Sys2Proof.Machine.execReservedE s
  | .reservedF => Sys2Proof.Machine.execReservedF s
  | .treeInternal => Sys2Proof.Machine.execTreeInternal s
  | .treeLeaf v => Sys2Proof.Machine.execTreeLeaf v s
  | .codeLeft => Sys2Proof.Machine.execCodeLeft s
  | .codeRight => Sys2Proof.Machine.execCodeRight s
  | .msgByte b => Sys2Proof.Machine.execMsgByte b s

end Sys2Proof.Machine
end

