-- ==== Sys2Proof/Machine/HostPort.lean ====
section
/-! DEFINITION. What the host can do between commands, how the words of a data stream are read inside a command, and the one
step built from both. -/

namespace Sys2Proof.Machine

/-! ### The register space (R21, R37) -/

/-- What a host read of register `n` returns; a register 13 or above does not exist (R21, R24, R37). -/
def registerValue (s : State) (n : Nat) : Option (BitVec 254) :=
  match n with
  | 0 => some 0
  | 1 => some ((statusWord s).setWidth 254)
  | 2 => some (s.errInfo.setWidth 254)
  | 3 => some (s.symLen.setWidth 254)
  | 4 => some (s.artLen.setWidth 254)
  | 5 => some (s.msgOff.setWidth 254)
  | 6 => some (s.bitLen.setWidth 254)
  | 7 => some (s.arg.setWidth 254)
  | 8 => some (s.cwLen.setWidth 254)
  | 9 => some s.cwBits
  | 10 => some (s.alphaSize.setWidth 254)
  | 11 => some (s.nodeCnt.setWidth 254)
  | 12 => some (s.root.setWidth 254)
  | _ => none

/-- A host read of a register. -/
def hostReadReg (n : Nat) (s : State) : Result :=
  match registerValue s n with
  | some v => .next { s with hostRead := v }
  | none => .refused .noSuchRegister

/-- The command word of a value written to `CMD`: the register has four bits (R21, R24; log entry 6). -/
def commandWord (v : BitVec 254) : BitVec 4 := v.setWidth 4

/-- A host write of a register: register 0 runs a command (R24, R150), a read-write register takes the value truncated to
its width, and a write to a read-only register is ignored (R37). -/
def hostWriteReg (n : Nat) (v : BitVec 254) (s : State) : Result :=
  match n with
  | 0 => exec (decodeCommand (commandWord v)) s
  | 1 => .next s
  | 2 => .next s
  | 3 => .next { s with symLen := v.setWidth 32 }
  | 4 => .next { s with artLen := v.setWidth 32 }
  | 5 => .next { s with msgOff := v.setWidth 32 }
  | 6 => .next { s with bitLen := v.setWidth 40 }
  | 7 => .next { s with arg := v.setWidth 8 }
  | 8 => .next s
  | 9 => .next s
  | 10 => .next s
  | 11 => .next s
  | 12 => .next s
  | _ => .refused .noSuchRegister

/-! ### The buffers (R32, R56) -/

/-- A host read of a buffer byte. -/
def hostReadByte (b : Buffer) (i : Nat) (s : State) : Result :=
  if i < capacityOf s.params b then .next { s with hostRead := (readByte s b i).setWidth 254 }
  else .refused .indexBeyondCapacity

/-- A host write of a buffer byte. -/
def hostWriteByte (b : Buffer) (i : Nat) (v : Byte) (s : State) : Result :=
  if i < capacityOf s.params b then .next (writeByte s b i v)
  else .refused .indexBeyondCapacity

/-- The reset input (R185): every register at its reset value, the buffers' contents unspecified anew. What the host has
still to do, and what it read last, is not the engine's. -/
def hostReset (s : State) : State :=
  State.resetWith s.params (s.epoch + 1) s.hostRead s.input

/-- One action of the host. -/
def hostAct (a : HostAct) (s : State) : Result :=
  match a with
  | .writeReg n v => hostWriteReg n v s
  | .readReg n => hostReadReg n s
  | .writeByte b i v => hostWriteByte b i v s
  | .readByte b i => hostReadByte b i s
  | .reset => .next (hostReset s)

/-! ### The streams inside a command -/

/-- TDES at work, one step (R136): the tree is complete, or the bytes have ended (M3), or the next tree byte is taken. -/
def treeStreamStep (c : DeserCtx) (s : State) : Result :=
  if c.stk = [] then .next (finishTree c { s with work := .idle })
  else if s.artLen.toNat ≤ c.ap then
    .next (raiseInTree .malformedArtifact s.artLen.toNat 0 { s with work := .idle })
  else exec (decodeTreeByte (artByte s c.ap)) s

/-- The next word of the message at the cursor: a whole message byte where one begins, otherwise one bit (R120, R157). -/
def messageWord (s : State) (bi : Nat) : Instr :=
  if bi % 8 = 0 then .msgByte (artByte s (s.msgOff.toNat + bi / 8)) else decodeCodeBit (msgBit s bi)

/-- DECODE at work, one step (R124): the bits have run out (R123), or the next word of the message is taken. -/
def messageStreamStep (c : WalkCtx) (s : State) : Result :=
  if s.bitLen.toNat ≤ c.bi then finishWalk c.out { s with work := .idle }
  else exec (messageWord s c.bi) s

/-! ### The step -/

/-- One step. Between commands the host acts (R61), and a command it starts runs to its end in that one step (R13, R24,
R200); with nothing to do the engine waits. Inside a command, a state no run from reset reaches, the next word of the
stream is taken (log entry 4). -/
def advance (s : State) : Result :=
  match s.work with
  | .idle =>
    match s.input with
    | [] => .next s
    | a :: rest => hostAct a { s with input := rest }
  | .deser c => treeStreamStep c s
  | .walk c => messageStreamStep c s

/-- The host's next action is to write a command word, and the engine is between commands. -/
def placeCommand (w : Nat) (s : State) : State :=
  { s with work := .idle, input := .writeReg 0 (BitVec.ofNat 254 w) :: s.input }

end Sys2Proof.Machine
end

