-- ==== Sys2Proof/Machine/Step.lean ====
section
/-! DEFINITION. The step, and how an instruction is placed where the step takes its next one. -/

namespace Sys2Proof.Machine

/-- One step of the engine and its host. -/
def step (s : State) : Host.Outcome State Fault Refusal := advance s

/-- The instruction whose bits are `w`, stored where the step takes its next instruction: the host's next action is to
write it to `CMD`. -/
def State.withFetchWord (s : State) (_nbits w : Nat) : State := placeCommand w s

end Sys2Proof.Machine
end

