-- ==== Sys2Proof/Machine/HostScript.lean ====
section
/-! DEFINITION. The host script (R82) and its pseudo-instructions (R83), as lists of host actions. -/

namespace Sys2Proof.Machine

/-- A mnemonic line: "same as `WR CMD, <code>`" (R82). -/
def runCommand (i : Instr) : HostAct := .writeReg 0 ((encodeByte i).setWidth 254)

/-- `WB buf, off, v0`; `WB buf, off+1, v1`; … -/
def writeBytesFrom (b : Buffer) : Nat → List Byte → List HostAct
  | _, [] => []
  | off, v :: vs => .writeByte b off v :: writeBytesFrom b (off + 1) vs

/-- `LD buf, b0 b1 … b(n-1)`: the bytes, then the length register (R83). -/
def loadBuffer (b : Buffer) (bytes : List Byte) : List HostAct :=
  writeBytesFrom b 0 bytes ++ [.writeReg (lengthRegister b) (BitVec.ofNat 254 bytes.length)]

/-- `RB buf, off => v0`; `RB buf, off+1 => v1`; …: each read with the value it is to return. -/
def expectBytesFrom (b : Buffer) : Nat → List Byte → List (HostAct × BitVec 254)
  | _, [] => []
  | off, v :: vs => (.readByte b off, v.setWidth 254) :: expectBytesFrom b (off + 1) vs

/-- `EXPECT buf = b0 … b(n-1)` (R83). -/
def expectBuffer (b : Buffer) (bytes : List Byte) : List (HostAct × BitVec 254) :=
  (.readReg (lengthRegister b), BitVec.ofNat 254 bytes.length) :: expectBytesFrom b 0 bytes

/-- The field `ERR` of a value read from `STATUS` (R23). -/
def errOfStatus (v : BitVec 254) : BitVec 3 := v.extractLsb' 2 3

/-- Whether two reads, of `STATUS` and of `ERR_INFO`, meet `EXPECT FAULT <name>, pos, val` (R83). -/
def meetsExpectFault (k : ErrKind) (pos : Nat) (val : Byte) (status info : BitVec 254) : Bool :=
  errOfStatus status == errCode k && info == (errInfoOf pos val).setWidth 254

/-- Whether a read of `STATUS` meets `EXPECT OK` (R83). -/
def meetsExpectOk (status : BitVec 254) : Bool := errOfStatus status == 0

/-- The spaces of a script line's triple (R82). -/
inductive LineSpace where
  | reg
  | sym
  | art
deriving DecidableEq, Repr

/-- The triple that encodes a writing line of a script, `(space, index, value)`; a reading line has none (R82), and neither
has the reset input. -/
def lineTriple : HostAct → Option (LineSpace × Nat × Nat)
  | .writeReg n v => some (.reg, n, v.toNat)
  | .writeByte .sym i v => some (.sym, i, v.toNat)
  | .writeByte .art i v => some (.art, i, v.toNat)
  | .readReg _ => none
  | .readByte _ _ => none
  | .reset => none

end Sys2Proof.Machine
end

