-- ==== Sys2Proof/Safety.lean ====
section
/-! DEFINITION. What a well-formed tree and a well-formed state are (R26, R27, R28, R30, R40), and the vocabulary of the
statements. -/

namespace Sys2Proof.Machine

/-- The node reached from `n` by following `parent` `d` times. -/
def ancestor (nodes : List Node) : Nat → Nat → Option Nat
  | 0, n => some n
  | d + 1, n =>
    match parentAt nodes n with
    | none => none
    | some p => ancestor nodes d p

/-- The node reached from `n` along the branches of a bit sequence (R75). -/
def follow (nodes : List Node) : Nat → List Bool → Option Nat
  | n, [] => some n
  | n, bit :: bits =>
    match childOf nodes n bit with
    | none => none
    | some m => follow nodes m bits

/-- How many leaves an arena has. -/
def leafCount (nodes : List Node) : Nat :=
  ((List.range nodes.length).filter fun n => kindAt nodes n = some .leaf).length

/-- `TreeOK` (R40), with the record shapes of R26. `nodes` are the entries `N[0 .. NODE_CNT-1]`, `aidx` the entries
`AIDX[0 .. ALPHA_SIZE-1]`. -/
structure TreeOK (nodes : List Node) (aidx : List Nat) (root k : Nat) : Prop where
  alphaLow : 2 ≤ k
  alphaHigh : k ≤ 255
  nodeCount : nodes.length = 2 * k - 1
  rootBound : root < nodes.length
  rootInternal : kindAt nodes root = some .internal
  rootParent : parentAt nodes root = none
  /-- every other node hangs under exactly one side of an internal parent -/
  linked : ∀ n < nodes.length, n ≠ root → ∃ p < nodes.length, parentAt nodes n = some p ∧
    kindAt nodes p = some .internal ∧ (leftAt nodes p = some n ↔ ¬ rightAt nodes p = some n)
  /-- every internal node has two different children, whose parent it is -/
  children : ∀ n < nodes.length, kindAt nodes n = some .internal → ∃ l < nodes.length, ∃ r < nodes.length,
    leftAt nodes n = some l ∧ rightAt nodes n = some r ∧ l ≠ r ∧ parentAt nodes l = some n ∧ parentAt nodes r = some n
  /-- following `parent` reaches the root in at most 254 steps -/
  reach : ∀ n < nodes.length, ∃ d < maxCw + 1, ancestor nodes d n = some root
  leaves : leafCount nodes = k
  leafValue : ∀ n < nodes.length, kindAt nodes n = some .leaf → valueAt nodes n ≠ some marker
  leafDistinct : ∀ m < nodes.length, ∀ n < nodes.length, kindAt nodes m = some .leaf → kindAt nodes n = some .leaf →
    valueAt nodes m = valueAt nodes n → m = n
  /-- a leaf has no children, and an internal node's value reads as 0 (R26) -/
  leafShape : ∀ n < nodes.length, kindAt nodes n = some .leaf → leftAt nodes n = none ∧ rightAt nodes n = none
  internalShape : ∀ n < nodes.length, kindAt nodes n = some .internal → valueAt nodes n = some 0
  indexSize : aidx.length = k
  indexLeaf : ∀ n ∈ aidx, n < nodes.length ∧ kindAt nodes n = some .leaf
  indexAll : ∀ n < nodes.length, kindAt nodes n = some .leaf → n ∈ aidx
  indexSorted : (aidx.map fun n => (valueAt nodes n).getD 0).Pairwise (· < ·)

/-- Every internal node's frequency is the sum of its children's (R26, R40). After TDES all are 0. -/
def FreqOK (nodes : List Node) : Prop :=
  ∀ n < nodes.length, ∀ l < nodes.length, ∀ r < nodes.length, leftAt nodes n = some l → rightAt nodes n = some r →
    freqAt nodes n = freqAt nodes l + freqAt nodes r

/-- The tree state of a state whose `TREE_VALID` is 1 (R40). -/
def TreeReady (s : State) : Prop :=
  s.treeValid = true ∧ s.nodeCnt.toNat = s.arena.length ∧
    TreeOK s.arena s.aidx s.root.toNat s.alphaSize.toNat

/-- The tree state of a state whose `TREE_VALID` is 0 (R170, R38). -/
def NoTreeHeld (s : State) : Prop :=
  s.treeValid = false ∧ s.alphaSize = 0 ∧ s.nodeCnt = 0 ∧ s.root = 0 ∧ s.arena = [] ∧ s.aidx = []

/-- The bytes of a buffer lie below its capacity and are in canonical form (R32, R56). -/
def BufferOK (m : Memory) (cap : Nat) : Prop :=
  Memory.wf m = true ∧ ∀ c ∈ m, c.1 < cap

/-- The invariant of the engine between commands. -/
structure StateOK (s : State) : Prop where
  params : s.params.ok = true
  sym : BufferOK s.sym s.params.symCap
  art : BufferOK s.art s.params.artCap
  /-- R40: `TREE_VALID = 1` says that there is a tree, with summed frequencies -/
  tree : s.treeValid = true → TreeReady s ∧ FreqOK s.arena
  noTree : s.treeValid = false → NoTreeHeld s
  /-- R35: no transient state between commands -/
  idle : s.work = .idle
  /-- R23: an error code in `ERR` has set `FAULT_SEEN` -/
  sticky : s.err ≠ none → s.faultSeen = true
  /-- R25: no fault, no fault record -/
  record : s.err = none → s.errInfo = 0
  /-- R164: `NoTree` is raised with `TREE_VALID = 0`, and nothing but a TRAIN or TDES stage sets it -/
  noTreeErr : s.err = some .noTree → s.treeValid = false
  /-- R170: a `MalformedArtifact` has invalidated the tree -/
  malformedErr : s.err = some .malformedArtifact → s.treeValid = false
  /-- R34: `CW_LEN` is at most 254, and `CW_BITS[i] = 0` from `CW_LEN` on -/
  codeLength : s.cwLen.toNat ≤ maxCw
  codeBits : ∀ i, s.cwLen.toNat ≤ i → s.cwBits.getLsbD i = false

/-- The codeword of a symbol value with the current tree, empty for a value that has none. -/
def codeword (s : State) (v : Byte) : List Bool := (symbolCode s v).getD []

/-- A value of the trained alphabet (R15): the value of a leaf of the tree. -/
def InAlphabet (nodes : List Node) (v : Byte) : Prop :=
  ∃ n < nodes.length, kindAt nodes n = some .leaf ∧ valueAt nodes n = some v

/-- A derivation of the grammar `Tree` (R73). -/
inductive ParseTree where
  | leaf (v : Byte)
  | node (l r : ParseTree)
deriving DecidableEq, Repr

/-- The bytes a derivation derives (R73). -/
def ParseTree.bytes : ParseTree → List Byte
  | .leaf v => [v]
  | .node l r => marker :: (l.bytes ++ r.bytes)

/-- The leaf bytes of a derivation, in order. -/
def ParseTree.values : ParseTree → List Byte
  | .leaf v => [v]
  | .node l r => l.values ++ r.values

/-- A derivation TDES accepts: its first byte is the marker, its leaf bytes are no markers and pairwise distinct (R138). -/
def ParseTree.accepted (t : ParseTree) : Prop :=
  t.bytes.head? = some marker ∧ marker ∉ t.values ∧ t.values.Nodup

/-- The arena's node `n` has the shape and the leaf values of a derivation. -/
def Shaped (nodes : List Node) : ParseTree → Nat → Prop
  | .leaf v, n => kindAt nodes n = some .leaf ∧ valueAt nodes n = some v
  | .node l r, n => kindAt nodes n = some .internal ∧
      ∃ a b, leftAt nodes n = some a ∧ rightAt nodes n = some b ∧ Shaped nodes l a ∧ Shaped nodes r b

/-- A code in which no codeword of one value of `a` is the beginning of another's (R112). -/
def PrefixFree (a : List Byte) (code : Byte → List Bool) : Prop :=
  ∀ u ∈ a, ∀ v ∈ a, u ≠ v → ¬ code u <+: code v

/-- `sum over v in A of H[v] * len(v)` (R105). -/
def weightedLength (syms a : List Byte) (code : Byte → List Bool) : Nat :=
  (a.map fun v => histogram syms v * (code v).length).sum

/-- The state after a fault that leaves the tree alone (R170): the code in `ERR`, `FAULT_SEEN` set, and
`ERR_INFO = val * 2^32 + pos`; nothing else changes. -/
def faulted (k : ErrKind) (pos : Nat) (val : Byte) (s : State) : State :=
  { s with err := some k, faultSeen := true, errInfo := BitVec.ofNat 40 (val.toNat * 2 ^ 32 + pos) }

/-- The state after a fault in a TRAIN or TDES stage (R170): the tree is invalidated as well. -/
def faultedInTree (k : ErrKind) (pos : Nat) (val : Byte) (s : State) : State :=
  { s with
    err := some k
    faultSeen := true
    errInfo := BitVec.ofNat 40 (val.toNat * 2 ^ 32 + pos)
    treeValid := false
    alphaSize := 0
    nodeCnt := 0
    root := 0
    arena := []
    aidx := [] }

/-- After `n` bytes of `ART` the tree is still incomplete and every byte was a legal one (R136, R137): the root's byte is the
marker, after each of them some internal node still lacks a child, no 255th internal node was met, and no leaf value was
met twice. -/
def IncompleteTree (s : State) (n : Nat) : Prop :=
  1 ≤ n ∧ artByte s 0 = marker ∧
    (∀ m, 1 ≤ m → m ≤ n →
      ((List.range m).map (artByte s)).countP (· != marker) ≤ ((List.range m).map (artByte s)).countP (· == marker)) ∧
    ((List.range n).map (artByte s)).countP (· == marker) ≤ maxInt ∧
    (((List.range n).map (artByte s)).filter (· != marker)).Nodup

/-- What `ERR_INFO` records of a fault `k` that the elementary command `i` raises in state `s` (R171), with the datum the
fault is about: ENCODE's first byte that is the marker or has no leaf (R115), TRAIN's first marker (R91), and the conditions
M1 to M5 of R137. -/
def FaultRecord (s : State) (i : Instr) (k : ErrKind) (pos : Nat) (val : Byte) : Prop :=
  match k with
  | .symbolNotFound =>
    (i = .codeword ∧ lookup s s.arg = .notFound ∧ pos = 0 ∧ val = s.arg) ∨
    (i = .encode ∧ pos < s.symLen.toNat ∧ val = symByte s pos ∧ val ≠ marker ∧ lookup s val = .notFound ∧
      ∀ j < pos, symByte s j ≠ marker ∧ lookup s (symByte s j) ≠ .notFound)
  | .ambiguousAlphabet =>
    (i = .train ∨ (i = .encode ∧ ∀ j < pos, lookup s (symByte s j) ≠ .notFound)) ∧
      pos < s.symLen.toNat ∧ symByte s pos = marker ∧ (∀ j < pos, symByte s j ≠ marker) ∧ val = 0
  | .malformedArtifact =>
    i = .tdes ∧
      ((s.artLen = 0 ∧ pos = 0 ∧ val = 0) ∨
       (s.artLen ≠ 0 ∧ artByte s 0 ≠ marker ∧ pos = 0 ∧ val = artByte s 0) ∨
       (IncompleteTree s s.artLen.toNat ∧ pos = s.artLen.toNat ∧ val = 0) ∨
       (IncompleteTree s pos ∧ pos < s.artLen.toNat ∧ artByte s pos = marker ∧
         ((List.range pos).map (artByte s)).countP (· == marker) = maxInt ∧ val = 0) ∨
       (IncompleteTree s pos ∧ pos < s.artLen.toNat ∧ val = artByte s pos ∧ val ≠ marker ∧
         val ∈ (List.range pos).map (artByte s)))
  | .noTree => pos = 0 ∧ val = 0
  | .capacityExceeded => pos = 0 ∧ val = 0
  | .badRange => pos = 0 ∧ val = 0
  | .illegalCommand => pos = 0 ∧ val = encodeByte i

/-- Node `m` is in the live set when node `n` is made (R95, R97): it exists by then, and no earlier node has it as a child. -/
def LiveBefore (nodes : List Node) (n m : Nat) : Prop :=
  m < n ∧ ∀ n' < n, leftAt nodes n' ≠ some m ∧ rightAt nodes n' ≠ some m

/-- Two states hold the same tree (R20 (c), R29). -/
def SameTree (s t : State) : Prop :=
  s.treeValid = t.treeValid ∧ s.alphaSize = t.alphaSize ∧ s.nodeCnt = t.nodeCnt ∧ s.root = t.root ∧
    s.arena = t.arena ∧ s.aidx = t.aidx

end Sys2Proof.Machine
end

