-- ==== Sys2Proof/Certificates/Slice0/Obligations.lean ====
section
/-! DEFINITION. The statements for the provers. -/

open Sys2Proof Sys2Proof.Machine

/-! ### Encodings -/

/-- R70's sixteen command words, and a word of each data stream (R72, R75, R77), decode to what they stand for. -/
def Obligations.TableWordsDecode : Prop :=
  decode .command [0x00] = .ok (.nop, []) ∧ decode .command [0x01] = .ok (.clear, []) ∧
  decode .command [0x02] = .ok (.train, []) ∧ decode .command [0x03] = .ok (.tser, []) ∧
  decode .command [0x04] = .ok (.encode, []) ∧ decode .command [0x05] = .ok (.compress, []) ∧
  decode .command [0x06] = .ok (.tdes, []) ∧ decode .command [0x07] = .ok (.decode, []) ∧
  decode .command [0x08] = .ok (.expand, []) ∧ decode .command [0x09] = .ok (.codeword, []) ∧
  decode .command [0x0A] = .ok (.reservedA, []) ∧ decode .command [0x0B] = .ok (.reservedB, []) ∧
  decode .command [0x0C] = .ok (.reservedC, []) ∧ decode .command [0x0D] = .ok (.reservedD, []) ∧
  decode .command [0x0E] = .ok (.reservedE, []) ∧ decode .command [0x0F] = .ok (.reservedF, []) ∧
  decode .treeByte [0x00] = .ok (.treeInternal, []) ∧ decode .treeByte [0x61] = .ok (.treeLeaf 0x61, []) ∧
  decode .codeBit [0] = .ok (.codeLeft, []) ∧ decode .codeBit [1] = .ok (.codeRight, []) ∧
  decode .message [0x64] = .ok (.msgByte 0x64, [])

/-- Decoding an encoded well-formed instruction gives it back, whatever bytes follow. -/
def Obligations.DecodeOfEncode : Prop :=
  ∀ (i : Instr) (rest : List Byte), i.wellFormed = true → decode (spaceOf i) (encode i ++ rest) = .ok (i, rest)

/-- Encoding what was decoded gives the bytes back: the decoder reads well-formed instructions of the space it was asked
for only, from words that fit the space, and no two words of a space mean the same. What it refuses are the missing word,
a command word wider than 4 bits, and a codeword bit above 1. -/
def Obligations.EncodeOfDecode : Prop :=
  ∀ (sp : Space) (bytes : List Byte),
    (∀ i rest, decode sp bytes = .ok (i, rest) →
      spaceOf i = sp ∧ i.wellFormed = true ∧ encode i ++ rest = bytes ∧ (encodeByte i).toNat < 2 ^ wordBits sp) ∧
    (∀ e, decode sp bytes = .error e →
      (e = .noWord ∧ bytes = []) ∨
      (e = .wideCommand ∧ sp = .command ∧ ∃ b rest, bytes = b :: rest ∧ 16 ≤ b.toNat) ∨
      (e = .notABit ∧ sp = .codeBit ∧ ∃ b rest, bytes = b :: rest ∧ 2 ≤ b.toNat))

/-! ### Reset, the host's accesses, and the step -/

/-- R38: the state after reset and after CLEAR. Every register reads 0, there is no tree, and the transient state does not
exist; after reset no buffer byte has a value of its own (log entries 2 and 12), and CLEAR leaves the buffers unchanged, and
`work`, which is idle in every state with `StateOK`. So it is for the reset input in any state (R185; that it is an action of
the host is log entry 10), and for the state the machine starts in. Without a tree nothing reads the arena or the index: the
commands that would raise `NoTree` (R164, R186). -/
def Obligations.ResetAndClearValues : Prop :=
  (∀ s : State, ∃ t, hostAct .reset s = .next t ∧ (∀ n ≤ 12, registerValue t n = some 0) ∧ t.treeValid = false ∧
    t.work = .idle ∧ (∀ b i, Memory.peek (bufferOf t b) i = none) ∧ t.params = s.params) ∧
  (∀ (p : Params) (e : Nat) (h : BitVec 254) (acts : List HostAct),
    (∀ n ≤ 12, registerValue (State.resetWith p e h acts) n = some 0) ∧
    (State.resetWith p e h acts).treeValid = false ∧
    (State.resetWith p e h acts).work = .idle ∧
    ∀ b i, Memory.peek (bufferOf (State.resetWith p e h acts) b) i = none) ∧
  (∀ s : State, ∃ t, exec .clear s = .next t ∧ (∀ n ≤ 12, registerValue t n = some 0) ∧ t.treeValid = false ∧
    t.work = s.work ∧ ∀ b, bufferOf t b = bufferOf s b) ∧
  (∀ s : State, s.treeValid = false → ∀ i ∈ [Instr.tser, .encode, .decode, .codeword],
    ∃ t, exec i s = .next t ∧ t.err = some .noTree)

/-- R152: CLEAR puts every register back to its reset value and leaves `SYM` and `ART` unchanged, and no other command
clears `FAULT_SEEN`. -/
def Obligations.ClearResetsRegisters : Prop :=
  (∀ s : State, exec .clear s =
    .next { State.resetWith s.params s.epoch s.hostRead s.input with sym := s.sym, art := s.art, work := s.work }) ∧
  ∀ (i : Instr) (s t : State), exec i s = .next t → s.faultSeen = true → i ≠ .clear → t.faultSeen = true

/-- R151: NOP changes nothing. -/
def Obligations.NopChangesNothing : Prop :=
  ∀ s : State, exec .nop s = .next s

/-- R153: each reserved code raises `IllegalCommand(0, c)`, and nothing else changes. -/
def Obligations.ReservedCodesRaise : Prop :=
  ∀ (c : BitVec 4) (s : State), 10 ≤ c.toNat →
    exec (decodeCommand c) s = .next { s with
      err := some .illegalCommand
      faultSeen := true
      errInfo := BitVec.ofNat 40 (c.toNat * 2 ^ 32) } ∧
    errCode .illegalCommand = 7

/-- What a host read of each register returns (R21), among them the bits of `STATUS` (R23) and the codes of `ERR` (R160);
a read changes nothing of the engine. -/
def Obligations.RegisterReads : Prop :=
  (∀ s : State,
    (∃ v, registerValue s 1 = some v ∧
      v.toNat = s.treeValid.toNat + 2 * s.faultSeen.toNat + 4 * (errField s.err).toNat) ∧
    [2, 3, 4, 5, 6, 7, 8, 9, 10, 11, 12].map (fun n => (registerValue s n).map BitVec.toNat) =
      [some s.errInfo.toNat, some s.symLen.toNat, some s.artLen.toNat, some s.msgOff.toNat, some s.bitLen.toNat,
        some s.arg.toNat, some s.cwLen.toNat, some s.cwBits.toNat, some s.alphaSize.toNat, some s.nodeCnt.toNat,
        some s.root.toNat] ∧
    ∀ n v, registerValue s n = some v → hostAct (.readReg n) s = .next { s with hostRead := v }) ∧
  errField none = 0 ∧ errField (some .symbolNotFound) = 1 ∧ errField (some .ambiguousAlphabet) = 2 ∧
  errField (some .malformedArtifact) = 3 ∧ errField (some .noTree) = 4 ∧ errField (some .capacityExceeded) = 5 ∧
  errField (some .badRange) = 6 ∧ errField (some .illegalCommand) = 7

/-- R37: a write to a read-only register is ignored, a read of register 0 returns 0, a write to a read-write register stores
the value truncated to its width, and registers 13 and above do not exist. -/
def Obligations.HostRegisterAccess : Prop :=
  ∀ (s : State) (v : BitVec 254),
    (∀ n ∈ [1, 2, 8, 9, 10, 11, 12], hostAct (.writeReg n v) s = .next s) ∧
    hostAct (.readReg 0) s = .next { s with hostRead := 0 } ∧
    hostAct (.writeReg 3 v) s = .next { s with symLen := BitVec.ofNat 32 v.toNat } ∧
    hostAct (.writeReg 4 v) s = .next { s with artLen := BitVec.ofNat 32 v.toNat } ∧
    hostAct (.writeReg 5 v) s = .next { s with msgOff := BitVec.ofNat 32 v.toNat } ∧
    hostAct (.writeReg 6 v) s = .next { s with bitLen := BitVec.ofNat 40 v.toNat } ∧
    hostAct (.writeReg 7 v) s = .next { s with arg := BitVec.ofNat 8 v.toNat } ∧
    ∀ n, 13 ≤ n → hostAct (.writeReg n v) s = .refused .noSuchRegister ∧
      hostAct (.readReg n) s = .refused .noSuchRegister

/-- R52, R56: a host write below the capacity replaces that byte and no other, a host read returns the byte and changes
nothing of the engine, and an access at or beyond the capacity is refused. -/
def Obligations.BufferAccess : Prop :=
  ∀ (s : State) (b : Buffer) (i : Nat) (v : Byte),
    (i < capacityOf s.params b → ∃ t, hostAct (.writeByte b i v) s = .next t ∧
      (∀ c j, readByte t c j = if c = b ∧ j = i then v else readByte s c j) ∧
      t = { s with sym := t.sym, art := t.art }) ∧
    (i < capacityOf s.params b → hostAct (.readByte b i) s =
      .next { s with hostRead := BitVec.ofNat 254 (readByte s b i).toNat }) ∧
    (capacityOf s.params b ≤ i → hostAct (.writeByte b i v) s = .refused .indexBeyondCapacity ∧
      hostAct (.readByte b i) s = .refused .indexBeyondCapacity)

/-- Between commands the step is the host's next action, and without one the engine waits (R61, R185). -/
def Obligations.StepTakesHostAction : Prop :=
  ∀ s : State, s.work = .idle →
    (s.input = [] → step s = .next s) ∧
    ∀ a rest, s.input = a :: rest → step s = hostAct a { s with input := rest }

/-- A step runs the decoded instruction: when the host's next action writes `v` to `CMD`, the step is what the command of
that 4-bit word does, with the action taken off the list (R24, R150). -/
def Obligations.StepRunsCommand : Prop :=
  ∀ (s : State) (v : BitVec 254) (rest : List HostAct), s.work = .idle → s.input = .writeReg 0 v :: rest →
    step s = exec (decodeCommand (BitVec.ofNat 4 v.toNat)) { s with input := rest } ∧
    ∀ i, decode .command [BitVec.ofNat 8 (v.toNat % 16)] = .ok (i, []) → step s = exec i { s with input := rest }

/-- The word placed for the step is the one it runs. -/
def Obligations.PlacedWordRuns : Prop :=
  ∀ (s : State) (w : Nat) (i : Instr), w < 16 → decodeTableWord 8 w = some i →
    step (s.withFetchWord 8 w) = exec i { s with work := .idle }

/-- Inside a command the step runs the next word of the stream the command reads: TDES the tree byte at its cursor, DECODE
the message byte that begins at its cursor, or the one bit at it (R120, R136; the one-word step is the model's choice,
log entry 4). -/
def Obligations.StepRunsStreamWord : Prop :=
  (∀ (s : State) (c : DeserCtx), s.work = .deser c → c.stk ≠ [] → c.ap < s.artLen.toNat →
    ∀ i, decode .treeByte [artByte s c.ap] = .ok (i, []) → step s = exec i s) ∧
  (∀ (s : State) (c : WalkCtx), s.work = .walk c → c.bi < s.bitLen.toNat →
    (c.bi % 8 = 0 → ∀ i, decode .message [artByte s (s.msgOff.toNat + c.bi / 8)] = .ok (i, []) → step s = exec i s) ∧
    (c.bi % 8 ≠ 0 → ∀ i, decode .codeBit [BitVec.ofNat 8 (msgBit s c.bi).toNat] = .ok (i, []) → step s = exec i s))

/-! ### The tree constructor -/

/-- R104: TRAIN on an input without the reserved value builds a tree, and changes nothing but the tree state, `ERR` and
`ERR_INFO`. -/
def Obligations.TrainBuildsTree : Prop :=
  ∀ s : State, s.symLen.toNat ≤ s.params.symCap → (∀ i < s.symLen.toNat, symByte s i ≠ marker) →
    ∃ t, exec .train s = .next t ∧ TreeReady t ∧ FreqOK t.arena ∧ t.root.toNat = 2 * t.alphaSize.toNat - 2 ∧
      ((List.range t.arena.length).filter fun n => kindAt t.arena n = some .internal).length = t.alphaSize.toNat - 1 ∧
      t = { s with
        treeValid := true
        err := none
        errInfo := 0
        alphaSize := t.alphaSize
        nodeCnt := t.nodeCnt
        root := t.root
        arena := t.arena
        aidx := t.aidx }

/-- The leaves of a trained tree (R93, R94, R102): they are `N[0 .. k-1]` in ascending order of value, each with its
occurrence count; every value that occurs has one; fillers are there only when fewer than two values occur, and then they
are the values R93 lists; and `AIDX[j] = j`. -/
def Obligations.TrainedLeaves : Prop :=
  ∀ s t : State, exec .train s = .next t → t.err = none →
    ((t.arena.take t.alphaSize.toNat).map (·.value)).Pairwise (· < ·) ∧
    (∀ nd ∈ t.arena.take t.alphaSize.toNat, nd.kind = .leaf ∧ nd.value ≠ marker ∧
      nd.freq = (symbols s).count nd.value) ∧
    (∀ v ∈ symbols s, v ∈ (t.arena.take t.alphaSize.toNat).map (·.value)) ∧
    ((∃ u ∈ symbols s, ∃ v ∈ symbols s, u ≠ v) →
      ∀ v ∈ (t.arena.take t.alphaSize.toNat).map (·.value), v ∈ symbols s) ∧
    (symbols s = [] → (t.arena.take t.alphaSize.toNat).map (·.value) = [1, 2]) ∧
    (symbols s ≠ [] → (∀ u ∈ symbols s, u = 1) → (t.arena.take t.alphaSize.toNat).map (·.value) = [1, 2]) ∧
    (∀ v, v ≠ 1 → symbols s ≠ [] → (∀ u ∈ symbols s, u = v) →
      (t.arena.take t.alphaSize.toNat).map (·.value) = [1, v]) ∧
    t.aidx = List.range t.alphaSize.toNat

/-- The merge order (R95, R96, R98): the children of each internal node `n` of a trained tree are the two nodes with the
least keys `(freq, index)` among the nodes that are live when `n` is made, the lesser one on the left, and `n`'s frequency is
their sum. -/
def Obligations.TrainMergeOrder : Prop :=
  ∀ s t : State, exec .train s = .next t → t.err = none →
    ∀ n, t.alphaSize.toNat ≤ n → n < t.nodeCnt.toNat →
      ∃ a b, leftAt t.arena n = some a ∧ rightAt t.arena n = some b ∧ LiveBefore t.arena n a ∧ LiveBefore t.arena n b ∧
        (freqAt t.arena a < freqAt t.arena b ∨ (freqAt t.arena a = freqAt t.arena b ∧ a < b)) ∧
        freqAt t.arena n = freqAt t.arena a + freqAt t.arena b ∧
        ∀ m, LiveBefore t.arena n m → m ≠ a → m ≠ b →
          (freqAt t.arena b < freqAt t.arena m ∨ (freqAt t.arena b = freqAt t.arena m ∧ b < m))

/-- R100: two inputs with the same multiset of bytes give the same tree, entry by entry. -/
def Obligations.TrainByHistogram : Prop :=
  ∀ s s' t t' : State, (symbols s).Perm (symbols s') → exec .train s = .next t → exec .train s' = .next t' →
    t.err = none → t'.err = none → SameTree t t'

/-- R92: every count is at most `SYM_LEN`, they add up to it, and every frequency of the tree fits 32 bits. -/
def Obligations.TrainFrequencies : Prop :=
  ∀ s t : State, s.params.ok = true → exec .train s = .next t → t.err = none →
    (∀ v, (symbols s).count v ≤ s.symLen.toNat) ∧
    (((List.range' 1 255).map fun v => (symbols s).count (BitVec.ofNat 8 v)).sum = s.symLen.toNat) ∧
    (∀ n < t.arena.length, freqAt t.arena n ≤ s.symLen.toNat) ∧
    freqAt t.arena t.root.toNat = s.symLen.toNat ∧ s.symLen.toNat ≤ s.params.symCap ∧ s.params.symCap ≤ 2 ^ 32 - 1

/-- R91, and the range test before it (R103, R169): the faults of TRAIN. -/
def Obligations.TrainFaults : Prop :=
  ∀ s : State,
    (s.params.symCap < s.symLen.toNat → exec .train s = .next (faultedInTree .badRange 0 0 s)) ∧
    ∀ i < s.symLen.toNat, s.symLen.toNat ≤ s.params.symCap → symByte s i = 0x00 → (∀ j < i, symByte s j ≠ 0x00) →
      exec .train s = .next (faultedInTree .ambiguousAlphabet i 0 s)

/-- R105: ENCODE of the training sequence produces as many bits as the sum over the trained alphabet of frequency times
codeword length, and no prefix-free code for the trained alphabet makes that sum smaller. -/
def Obligations.TrainIsOptimal : Prop :=
  ∀ s t : State, exec .train s = .next t → t.err = none →
    (∀ w, s.params.ok = true → exec .encode t = .next w → w.err = none →
      w.bitLen.toNat = weightedLength (symbols s) (trainedAlphabet (symbols s)) (codeword t)) ∧
    ∀ other : Byte → List Bool, PrefixFree (trainedAlphabet (symbols s)) other →
      weightedLength (symbols s) (trainedAlphabet (symbols s)) (codeword t) ≤
        weightedLength (symbols s) (trainedAlphabet (symbols s)) other

/-! ### Lookup and codewords -/

/-- R110: the lookup finds the one leaf of a value if there is one, and nothing otherwise; 0 is never found. -/
def Obligations.LookupFindsLeaf : Prop :=
  ∀ s : State, TreeReady s →
    (∀ v n, lookup s v = .found n ↔
      n < s.arena.length ∧ kindAt s.arena n = some .leaf ∧ valueAt s.arena n = some v) ∧
    (∀ v, lookup s v = .notFound ↔ ¬ InAlphabet s.arena v) ∧
    lookup s 0 = .notFound

/-- R111: every leaf has a codeword, of 1 to 254 bits and as many as the leaf is deep, and following it from the root leads
to the leaf. -/
def Obligations.CodeLeadsToLeaf : Prop :=
  ∀ s : State, TreeReady s → ∀ n < s.arena.length, kindAt s.arena n = some .leaf →
    ∃ c, codeOf s.arena n = some c ∧ 1 ≤ c.length ∧ c.length ≤ 254 ∧
      ancestor s.arena c.length n = some s.root.toNat ∧ follow s.arena s.root.toNat c = some n

/-- R112: no codeword is the beginning of another. -/
def Obligations.CodesPrefixFree : Prop :=
  ∀ s : State, TreeReady s → ∀ u v, InAlphabet s.arena u → InAlphabet s.arena v → u ≠ v →
    ¬ codeword s u <+: codeword s v

/-- R113: CODEWORD. -/
def Obligations.CodewordCommand : Prop :=
  ∀ s : State,
    (s.treeValid = false → exec .codeword s = .next (faulted .noTree 0 0 { s with cwLen := 0, cwBits := 0 })) ∧
    (TreeReady s → ¬ InAlphabet s.arena s.arg →
      exec .codeword s = .next (faulted .symbolNotFound 0 s.arg { s with cwLen := 0, cwBits := 0 })) ∧
    (TreeReady s → InAlphabet s.arena s.arg →
      ∃ n t, n < s.arena.length ∧ kindAt s.arena n = some .leaf ∧ valueAt s.arena n = some s.arg ∧
        codeOf s.arena n = some (codeword s s.arg) ∧
        exec .codeword s = .next t ∧ t.cwLen.toNat = (codeword s s.arg).length ∧
        (∀ i < 254, t.cwBits.getLsbD i = (codeword s s.arg).getD i false) ∧
        t = { s with cwLen := t.cwLen, cwBits := t.cwBits, err := none, errInfo := 0 })

/-! ### Encoding -/

/-- R115: ENCODE. Its faults in their order, and what it writes: the packed codewords from `MSG_OFF` on, and no other byte
of `ART`. -/
def Obligations.EncodeCommand : Prop :=
  ∀ s : State,
    (s.treeValid = false → exec .encode s = .next (faulted .noTree 0 0 s)) ∧
    (s.treeValid = true → (s.params.symCap < s.symLen.toNat ∨ s.params.artCap < s.msgOff.toNat) →
      exec .encode s = .next (faulted .badRange 0 0 s)) ∧
    (TreeReady s → s.symLen.toNat ≤ s.params.symCap → s.msgOff.toNat ≤ s.params.artCap →
      (∀ i < s.symLen.toNat, (∀ j < i, InAlphabet s.arena (symByte s j)) →
        (symByte s i = 0x00 → exec .encode s = .next (faulted .ambiguousAlphabet i 0 s)) ∧
        (symByte s i ≠ 0x00 → ¬ InAlphabet s.arena (symByte s i) →
          exec .encode s = .next (faulted .symbolNotFound i (symByte s i) s))) ∧
      ((∀ i < s.symLen.toNat, InAlphabet s.arena (symByte s i)) →
        (s.params.artCap < s.msgOff.toNat + (((symbols s).flatMap (codeword s)).length + 7) / 8 →
          exec .encode s = .next (faulted .capacityExceeded 0 0 s)) ∧
        (s.msgOff.toNat + (((symbols s).flatMap (codeword s)).length + 7) / 8 ≤ s.params.artCap → s.params.ok = true →
          ∃ t, exec .encode s = .next t ∧
            t.bitLen.toNat = ((symbols s).flatMap (codeword s)).length ∧
            t.artLen.toNat = s.msgOff.toNat + (((symbols s).flatMap (codeword s)).length + 7) / 8 ∧
            (∀ j < (((symbols s).flatMap (codeword s)).length + 7) / 8, ∀ b < 8,
              (artByte t (s.msgOff.toNat + j)).getLsbD b =
                ((symbols s).flatMap (codeword s)).getD (8 * j + b) false) ∧
            (∀ i, i < s.msgOff.toNat ∨ t.artLen.toNat ≤ i → artByte t i = artByte s i) ∧
            t = { s with art := t.art, artLen := t.artLen, bitLen := t.bitLen, err := none, errInfo := 0 })))

/-- R116: after a TRAIN without fault, ENCODE of the same sequence raises neither `AmbiguousAlphabet` nor
`SymbolNotFound`. -/
def Obligations.EncodeAfterTrain : Prop :=
  ∀ s t u : State, exec .train s = .next t → t.err = none → SameTree t u → symbols u = symbols s →
    u.symLen = s.symLen → u.params = s.params →
    ∃ w, exec .encode u = .next w ∧ w.err ≠ some .ambiguousAlphabet ∧ w.err ≠ some .symbolNotFound

/-- R117: `BIT_LEN` after an ENCODE without fault is the sum of the codewords' lengths; with the tree trained on the same
sequence that is the sum over the alphabet of frequency times depth; and it is below `2^35`. -/
def Obligations.EncodeBitCount : Prop :=
  (∀ s t : State, s.params.ok = true → TreeReady s → exec .encode s = .next t → t.err = none →
    t.bitLen.toNat = ((symbols s).map fun v => (codeword s v).length).sum ∧
    t.bitLen.toNat ≤ 8 * (s.params.artCap - s.msgOff.toNat) ∧ t.bitLen.toNat < 2 ^ 35) ∧
  (∀ s t u w : State, s.params.ok = true → exec .train s = .next t → t.err = none → SameTree t u →
    u.params = s.params → symbols u = symbols s → exec .encode u = .next w → w.err = none →
    w.bitLen.toNat = weightedLength (symbols s) (trainedAlphabet (symbols s)) (codeword t))

/-- R77: packing and unpacking. -/
def Obligations.PackUnpack : Prop :=
  (∀ bits : List Bool, (pack bits).length = (bits.length + 7) / 8 ∧
    (∀ j < (bits.length + 7) / 8, ((pack bits).getD j 0).toNat =
      ((List.range 8).map fun b => if bits.getD (8 * j + b) false then 2 ^ b else 0).sum) ∧
    unpack (pack bits) bits.length = bits ∧
    unpack (pack bits) (8 * ((bits.length + 7) / 8)) = bits ++ List.replicate ((8 - bits.length % 8) % 8) false) ∧
  (∀ (bytes : List Byte) (n i : Nat), n ≤ 8 * bytes.length → i < n →
    (unpack bytes n)[i]? = some (decide ((bytes.getD (i / 8) 0).toNat / 2 ^ (i % 8) % 2 = 1))) ∧
  pack [] = [] ∧ pack [true, false, true] = [0x05]

/-- R54: message bit `i` is bit `i mod 8` of byte `MSG_OFF + i div 8`. -/
def Obligations.MessageBitPlace : Prop :=
  (∀ (s : State) (i : Nat),
    (msgBit s i).toNat = (artByte s (s.msgOff.toNat + i / 8)).toNat / 2 ^ (i % 8) % 2) ∧
  ∀ s : State, messageBits s =
    unpack ((List.range (ceil8 s.bitLen.toNat)).map fun j => artByte s (s.msgOff.toNat + j)) s.bitLen.toNat

/-! ### Decoding -/

/-- R126: with a valid tree the walk gives a result for every bit sequence, from the root on: it stands at an internal node
after it, no emitted value is 0, and it emits at most one symbol for each bit. -/
def Obligations.DecoderTotal : Prop :=
  ∀ s : State, TreeReady s → ∀ bits : List Bool,
    ∃ c, walkBits s.arena s.root.toNat (walkStart s) bits = some c ∧ c.bi = bits.length ∧
      kindAt s.arena c.cur = some .internal ∧ (∀ v ∈ c.out, InAlphabet s.arena v ∧ v ≠ 0x00) ∧
      c.out.length ≤ bits.length

/-- R122, R123: the codewords of a sequence give the sequence back, and the bits of an unfinished codeword after them are
dropped. -/
def Obligations.DecoderEmitsSymbols : Prop :=
  ∀ s : State, TreeReady s → ∀ vs : List Byte, (∀ v ∈ vs, InAlphabet s.arena v) →
    walkBits s.arena s.root.toNat (walkStart s) (vs.flatMap (codeword s)) =
      some { cur := s.root.toNat, out := vs, bi := (vs.flatMap (codeword s)).length } ∧
    ∀ v, InAlphabet s.arena v → ∀ p, p <+: codeword s v → p ≠ codeword s v →
      ∃ c, walkBits s.arena s.root.toNat (walkStart s) (vs.flatMap (codeword s) ++ p) = some c ∧ c.out = vs

/-- R124: DECODE. Its faults in their order, and what it writes: the symbols the walk of the message bits emits, from
`SYM[0]` on, and no other byte of `SYM`. -/
def Obligations.DecodeCommand : Prop :=
  ∀ s : State,
    (s.treeValid = false → exec .decode s = .next (faulted .noTree 0 0 s)) ∧
    (s.treeValid = true → (s.params.artCap < s.artLen.toNat ∨ s.artLen.toNat < s.msgOff.toNat ∨
        8 * (s.artLen.toNat - s.msgOff.toNat) < s.bitLen.toNat) →
      exec .decode s = .next (faulted .badRange 0 0 s)) ∧
    (TreeReady s → s.artLen.toNat ≤ s.params.artCap → s.msgOff.toNat ≤ s.artLen.toNat →
      s.bitLen.toNat ≤ 8 * (s.artLen.toNat - s.msgOff.toNat) →
      ∃ c, walkBits s.arena s.root.toNat { cur := s.root.toNat, out := [], bi := 0 } (messageBits s) = some c ∧
        (s.params.symCap < c.out.length → exec .decode s = .next (faulted .capacityExceeded 0 0 s)) ∧
        (c.out.length ≤ s.params.symCap → s.params.ok = true →
          ∃ t, exec .decode s = .next t ∧ t.symLen.toNat = c.out.length ∧ symbols t = c.out ∧
            (∀ i, c.out.length ≤ i → symByte t i = symByte s i) ∧
            t = { s with sym := t.sym, symLen := t.symLen, err := none, errInfo := 0 }))

/-- R125: TRAIN, ENCODE, DECODE give the sequence back, and no command faults unless the message does not fit. -/
def Obligations.DecodeInvertsEncode : Prop :=
  ∀ s : State, s.params.ok = true → s.symLen.toNat ≤ s.params.symCap → s.msgOff.toNat ≤ s.params.artCap →
    (∀ i < s.symLen.toNat, symByte s i ≠ 0x00) →
    ∃ t u, exec .train s = .next t ∧ t.err = none ∧ exec .encode t = .next u ∧
      (u.err = some .capacityExceeded ∨
        (u.err = none ∧ ∃ w, exec .decode u = .next w ∧ w.err = none ∧ w.symLen = s.symLen ∧ symbols w = symbols s))

/-! ### The artifact codec -/

/-- R132: TSER. Its faults in their order, and what it writes: the preorder bytes of the tree from `ART[0]` on (R74, R130),
and no other byte of `ART`. -/
def Obligations.TserCommand : Prop :=
  ∀ s : State,
    (s.treeValid = false → exec .tser s = .next (faulted .noTree 0 0 s)) ∧
    (s.treeValid = true → s.params.artCap < s.nodeCnt.toNat →
      exec .tser s = .next (faulted .capacityExceeded 0 0 s)) ∧
    (TreeReady s → s.nodeCnt.toNat ≤ s.params.artCap →
      ∃ t p, exec .tser s = .next t ∧ Shaped s.arena p s.root.toNat ∧
        p.bytes.length = s.nodeCnt.toNat ∧ s.nodeCnt.toNat = 2 * s.alphaSize.toNat - 1 ∧
        p.bytes.head? = some 0x00 ∧ artifact t = p.bytes ∧
        (∀ i, s.nodeCnt.toNat ≤ i → artByte t i = artByte s i) ∧
        t.artLen.toNat = s.nodeCnt.toNat ∧ t.msgOff.toNat = s.nodeCnt.toNat ∧
        t = { s with
          art := t.art
          artLen := t.artLen
          msgOff := t.msgOff
          bitLen := 0
          err := none
          errInfo := 0 })

/-- R135, R136: TDES on an artifact that begins with a tree builds that tree, numbered in preorder (R134) with root 0
and all frequencies 0, sets `MSG_OFF` to the first byte after it, and changes nothing else. -/
def Obligations.TdesBuildsTree : Prop :=
  ∀ (s : State) (p : ParseTree) (rest : List Byte), s.artLen.toNat ≤ s.params.artCap → p.accepted →
    artifact s = p.bytes ++ rest →
    ∃ t, exec .tdes s = .next t ∧ TreeReady t ∧ Shaped t.arena p 0 ∧ t.root = 0 ∧
      t.alphaSize.toNat = p.values.length ∧ (∀ n < t.arena.length, freqAt t.arena n = 0) ∧
      (∀ n < t.arena.length, valueAt t.arena n = p.bytes[n]?) ∧
      (∀ n < t.arena.length, kindAt t.arena n = some .internal → leftAt t.arena n = some (n + 1)) ∧
      t.msgOff.toNat = p.bytes.length ∧
      t = { s with
        treeValid := true
        err := none
        errInfo := 0
        msgOff := t.msgOff
        alphaSize := t.alphaSize
        nodeCnt := t.nodeCnt
        root := t.root
        arena := t.arena
        aidx := t.aidx }

/-- R138: what TDES accepts, and what holds then. -/
def Obligations.TdesAccepts : Prop :=
  ∀ s : State, s.artLen.toNat ≤ s.params.artCap →
    ((∃ t, exec .tdes s = .next t ∧ t.err = none) ↔
      ∃ (p : ParseTree) (rest : List Byte), artifact s = p.bytes ++ rest ∧ p.accepted) ∧
    ∀ t, exec .tdes s = .next t → t.err = none →
      TreeReady t ∧ ∃ (p : ParseTree) (rest : List Byte), artifact s = p.bytes ++ rest ∧ p.accepted ∧
        Shaped t.arena p t.root.toNat ∧ t.msgOff.toNat = p.bytes.length

/-- R137: the five defects of an artifact, each with what it reports, and the range test before them. -/
def Obligations.TdesFaults : Prop :=
  ∀ s : State,
    (s.params.artCap < s.artLen.toNat → exec .tdes s = .next (faultedInTree .badRange 0 0 s)) ∧
    (s.artLen.toNat ≤ s.params.artCap →
      (s.artLen = 0 → exec .tdes s = .next (faultedInTree .malformedArtifact 0 0 s)) ∧
      (s.artLen ≠ 0 → artByte s 0 ≠ 0x00 →
        exec .tdes s = .next (faultedInTree .malformedArtifact 0 (artByte s 0) s)) ∧
      (IncompleteTree s s.artLen.toNat →
        exec .tdes s = .next (faultedInTree .malformedArtifact s.artLen.toNat 0 s)) ∧
      ∀ ap < s.artLen.toNat, IncompleteTree s ap →
        (((List.range ap).map (artByte s)).countP (· == marker) = 254 → artByte s ap = 0x00 →
          exec .tdes s = .next (faultedInTree .malformedArtifact ap 0 s)) ∧
        (artByte s ap ≠ 0x00 → artByte s ap ∈ (List.range ap).map (artByte s) →
          exec .tdes s = .next (faultedInTree .malformedArtifact ap (artByte s ap) s)))

/-- R139: TSER and TDES are inverse on tree shape. -/
def Obligations.TserTdesInverse : Prop :=
  (∀ s t u : State, TreeReady s → exec .tser s = .next t → t.err = none → u.params = s.params →
    u.artLen.toNat ≤ u.params.artCap → t.artLen.toNat ≤ u.artLen.toNat →
    (∀ i < t.artLen.toNat, artByte u i = artByte t i) →
    ∃ w, exec .tdes u = .next w ∧ w.err = none ∧ w.msgOff.toNat = 2 * s.alphaSize.toNat - 1 ∧
      w.alphaSize = s.alphaSize ∧ ∀ v, symbolCode w v = symbolCode s v) ∧
  (∀ s t : State, exec .tdes s = .next t → t.err = none →
    ∃ w, exec .tser t = .next w ∧ w.err = none ∧ w.artLen = t.msgOff ∧ ∀ i, artByte w i = artByte s i)

/-- R142: COMPRESS. With `t` the state after TRAIN, it ends with the artifact of R78, or in the stage that faults, with
what the earlier stages left. -/
def Obligations.CompressCommand : Prop :=
  ∀ s : State, s.params.ok = true →
    (s.params.symCap < s.symLen.toNat → exec .compress s = .next (faultedInTree .badRange 0 0 s)) ∧
    (∀ i < s.symLen.toNat, s.symLen.toNat ≤ s.params.symCap → symByte s i = 0x00 → (∀ j < i, symByte s j ≠ 0x00) →
      exec .compress s = .next (faultedInTree .ambiguousAlphabet i 0 s)) ∧
    (s.symLen.toNat ≤ s.params.symCap → (∀ i < s.symLen.toNat, symByte s i ≠ 0x00) →
      ∃ t u, exec .train s = .next t ∧ exec .compress s = .next u ∧ TreeReady u ∧ SameTree t u ∧
        (s.params.artCap < 2 * t.alphaSize.toNat - 1 → u = faulted .capacityExceeded 0 0 t) ∧
        (2 * t.alphaSize.toNat - 1 ≤ s.params.artCap →
          ∃ p, Shaped t.arena p t.root.toNat ∧ u.msgOff.toNat = 2 * t.alphaSize.toNat - 1 ∧
            p.bytes.length = 2 * t.alphaSize.toNat - 1 ∧
            (s.params.artCap < 2 * t.alphaSize.toNat - 1 + (((symbols s).flatMap (codeword t)).length + 7) / 8 →
              u.err = some .capacityExceeded ∧ u.errInfo = 0 ∧ u.faultSeen = true ∧
              artifact u = p.bytes ∧ u.bitLen = 0) ∧
            (2 * t.alphaSize.toNat - 1 + (((symbols s).flatMap (codeword t)).length + 7) / 8 ≤ s.params.artCap →
              u.err = none ∧ u.errInfo = 0 ∧ u.faultSeen = s.faultSeen ∧
              artifact u = p.bytes ++ pack ((symbols s).flatMap (codeword t)) ∧
              u.bitLen.toNat = ((symbols s).flatMap (codeword t)).length) ∧
            ∀ i, u.artLen.toNat ≤ i → artByte u i = artByte s i) ∧
        u = { s with
          treeValid := true
          alphaSize := u.alphaSize
          nodeCnt := u.nodeCnt
          root := u.root
          arena := u.arena
          aidx := u.aidx
          art := u.art
          artLen := u.artLen
          msgOff := u.msgOff
          bitLen := u.bitLen
          err := u.err
          errInfo := u.errInfo
          faultSeen := u.faultSeen })

/-- R144: EXPAND. It ends like TDES where TDES faults, and otherwise like DECODE of all the bits after the tree with the
tree TDES built. -/
def Obligations.ExpandCommand : Prop :=
  ∀ s : State,
    (∀ t, exec .tdes s = .next t → t.err ≠ none → exec .expand s = .next t) ∧
    ∀ (p : ParseTree) (rest : List Byte), s.params.ok = true → s.artLen.toNat ≤ s.params.artCap → p.accepted →
      artifact s = p.bytes ++ rest →
      ∃ t c u, exec .tdes s = .next t ∧ t.err = none ∧ exec .expand s = .next u ∧ TreeReady u ∧ SameTree t u ∧
        Shaped u.arena p u.root.toNat ∧ u.msgOff.toNat = p.bytes.length ∧ u.bitLen.toNat = 8 * rest.length ∧
        walkBits u.arena u.root.toNat { cur := u.root.toNat, out := [], bi := 0 } (unpack rest (8 * rest.length)) = some c ∧
        (s.params.symCap < c.out.length →
          u.err = some .capacityExceeded ∧ u.errInfo = 0 ∧ u.faultSeen = true ∧ u.sym = s.sym ∧ u.symLen = s.symLen) ∧
        (c.out.length ≤ s.params.symCap →
          u.err = none ∧ u.errInfo = 0 ∧ u.faultSeen = s.faultSeen ∧ symbols u = c.out ∧
          ∀ i, c.out.length ≤ i → symByte u i = symByte s i) ∧
        u = { s with
          treeValid := true
          alphaSize := u.alphaSize
          nodeCnt := u.nodeCnt
          root := u.root
          arena := u.arena
          aidx := u.aidx
          msgOff := u.msgOff
          bitLen := u.bitLen
          sym := u.sym
          symLen := u.symLen
          err := u.err
          errInfo := u.errInfo
          faultSeen := u.faultSeen }

/-- R146: the round trip through the artifact gives an isomorphic tree, the message bits followed by the pad bits, and the
sequence followed by as many copies of the leftmost leaf's value as the pad bits hold whole codewords of it. -/
def Obligations.ExpandAfterCompress : Prop :=
  ∀ s t : State, s.params.ok = true → exec .compress s = .next t → t.err = none →
    ∃ x0 d0, InAlphabet t.arena x0 ∧ 1 ≤ d0 ∧ codeword t x0 = List.replicate d0 false ∧
      (s.symLen.toNat + (8 - t.bitLen.toNat % 8) % 8 / d0 ≤ s.params.symCap →
        ∃ u, exec .expand t = .next u ∧ u.err = none ∧ (∀ v, symbolCode u v = symbolCode t v) ∧
          messageBits u =
            (symbols s).flatMap (codeword t) ++ List.replicate ((8 - t.bitLen.toNat % 8) % 8) false ∧
          symbols u = symbols s ++ List.replicate ((8 - t.bitLen.toNat % 8) % 8 / d0) x0 ∧
          (symbols u = symbols s ↔ (8 - t.bitLen.toNat % 8) % 8 < d0)) ∧
      (s.params.symCap < s.symLen.toNat + (8 - t.bitLen.toNat % 8) % 8 / d0 →
        ∃ u, exec .expand t = .next u ∧ u.err = some .capacityExceeded)

/-- R140: a composite ends at the first stage that faults, with that stage's state, and otherwise runs its stages one after
another. -/
def Obligations.CompositeStages : Prop :=
  (∀ s t : State, exec .train s = .next t →
    (t.err ≠ none → exec .compress s = .next t) ∧
    (t.err = none → ∀ u, exec .tser t = .next u →
      (u.err ≠ none → exec .compress s = .next u) ∧ (u.err = none → exec .compress s = exec .encode u))) ∧
  (∀ s t : State, exec .tdes s = .next t →
    (t.err ≠ none → exec .expand s = .next t) ∧
    (t.err = none → exec .expand s =
      exec .decode { t with bitLen := BitVec.ofNat 40 (8 * (t.artLen.toNat - t.msgOff.toNat)) }))

/-- R36, R142, R144: what COMPRESS produces depends on no tree, no `ART` contents and no register but `SYM` and `SYM_LEN`,
and what EXPAND produces on no tree, no `SYM` contents and no register but `ART` and `ART_LEN`. -/
def Obligations.CompositesIgnoreOldState : Prop :=
  (∀ s s' : State, s.params = s'.params → s.symLen = s'.symLen → symbols s = symbols s' →
    ∃ t t', exec .compress s = .next t ∧ exec .compress s' = .next t' ∧ SameTree t t' ∧ t.err = t'.err ∧
      t.errInfo = t'.errInfo ∧
      (t.err = none → artifact t = artifact t' ∧ t.artLen = t'.artLen ∧ t.msgOff = t'.msgOff ∧ t.bitLen = t'.bitLen)) ∧
  (∀ s s' : State, s.params = s'.params → s.artLen = s'.artLen → artifact s = artifact s' →
    ∃ t t', exec .expand s = .next t ∧ exec .expand s' = .next t' ∧ SameTree t t' ∧ t.err = t'.err ∧
      t.errInfo = t'.errInfo ∧
      (t.err = none → symbols t = symbols t' ∧ t.symLen = t'.symLen ∧ t.msgOff = t'.msgOff ∧ t.bitLen = t'.bitLen))

/-! ### Faults and whole-machine rules -/

/-- R170: what a fault leaves, for every elementary command, with the position and the value that R171 gives for it. -/
def Obligations.FaultEntryEffect : Prop :=
  ∀ (s t : State) (k : ErrKind),
    (∀ i ∈ [Instr.train, .tdes], exec i s = .next t → t.err = some k →
      ∃ pos val, FaultRecord s i k pos val ∧ t = faultedInTree k pos val s) ∧
    (∀ i ∈ [Instr.tser, .encode, .decode, .reservedA, .reservedB, .reservedC, .reservedD, .reservedE, .reservedF],
      exec i s = .next t → t.err = some k → ∃ pos val, FaultRecord s i k pos val ∧ t = faulted k pos val s) ∧
    (exec .codeword s = .next t → t.err = some k →
      ∃ pos val, FaultRecord s .codeword k pos val ∧ t = faulted k pos val { s with cwLen := 0, cwBits := 0 })

/-- R173: `FAULT_SEEN` stays set until CLEAR or reset, and every command but NOP writes its own outcome to `ERR` and
`ERR_INFO`: a code is always one that this very command raised. -/
def Obligations.FaultSeenSticks : Prop :=
  (∀ s t : State, step s = .next t → s.faultSeen = true →
    t.faultSeen = true ∨ (∃ v rest, s.input = .writeReg 0 v :: rest ∧ BitVec.ofNat 4 v.toNat = 1) ∨
      ∃ rest, s.input = .reset :: rest) ∧
  (∀ (i : Instr) (s t : State), spaceOf i = .command → i ≠ .nop → exec i s = .next t →
    (t.err = none ∧ t.errInfo = 0) ∨ (t.err ≠ none ∧ t.faultSeen = true)) ∧
  (∀ (i : Instr) (s t : State) (e : Option ErrKind) (x : BitVec 40), spaceOf i = .command → i ≠ .nop →
    exec i s = .next t →
    ∃ t', exec i { s with err := e, errInfo := x } = .next t' ∧ t'.err = t.err ∧ t'.errInfo = t.errInfo)

/-- R31, R64: only TRAIN and TDES (alone or as a stage), CLEAR and reset write the tree; TSER, ENCODE, DECODE, CODEWORD, NOP
and the reserved codes read it at most, and so do the words of the message stream; and no host access but those commands
changes it. -/
def Obligations.OnlyTreeCommandsWriteTree : Prop :=
  (∀ i ∈ [Instr.nop, .tser, .encode, .decode, .codeword, .reservedA, .reservedB, .reservedC, .reservedD, .reservedE,
      .reservedF, .codeLeft, .codeRight], ∀ s t : State, exec i s = .next t → SameTree s t) ∧
  (∀ b (s t : State), exec (.msgByte b) s = .next t → SameTree s t) ∧
  (∀ a (s t : State), a ≠ .reset → (∀ v, a ≠ .writeReg 0 v) → hostAct a s = .next t → SameTree s t)

/-- R160: which faults each command can end with. -/
def Obligations.CommandsRaiseOnlyTheirFaults : Prop :=
  ∀ s t : State, s.params.ok = true →
    (exec .train s = .next t → t.err ∈ [none, some .ambiguousAlphabet, some .badRange]) ∧
    (exec .tser s = .next t → t.err ∈ [none, some .noTree, some .capacityExceeded]) ∧
    (exec .encode s = .next t →
      t.err ∈ [none, some .symbolNotFound, some .ambiguousAlphabet, some .noTree, some .capacityExceeded,
        some .badRange]) ∧
    (exec .tdes s = .next t → t.err ∈ [none, some .malformedArtifact, some .badRange]) ∧
    (exec .decode s = .next t → t.err ∈ [none, some .noTree, some .capacityExceeded, some .badRange]) ∧
    (exec .codeword s = .next t → t.err ∈ [none, some .symbolNotFound, some .noTree]) ∧
    (exec .compress s = .next t → t.err ∈ [none, some .ambiguousAlphabet, some .capacityExceeded, some .badRange]) ∧
    (exec .expand s = .next t → t.err ∈ [none, some .malformedArtifact, some .capacityExceeded, some .badRange])

/-! ### The words of the data streams -/

/-- R134: one deserializer step, for a marker byte and for a leaf byte, while TDES reads the tree and the byte passes the
tests M4 and M5. That TDES stands at a byte of its own in a state, and that the byte is taken wherever the
cursor stands, are the model's choice (log entry 4). -/
def Obligations.DeserializerStep : Prop :=
  ∀ (s : State) (c : DeserCtx) (top : StackEntry) (rest : List StackEntry),
    s.work = .deser c → c.stk = top :: rest → (top.rem = 1 ∨ top.rem = 2) → top.par < c.nodes.length →
    (c.nint < 254 → ∃ c', exec .treeInternal s = .next { s with work := .deser c' } ∧
      c'.nodes.length = c.nodes.length + 1 ∧
      c'.nodes[c.nodes.length]? = some (Node.mk .internal 0 0 none none (some top.par)) ∧
      (top.rem = 2 → c'.nodes[top.par]? = c.nodes[top.par]?.map fun nd => { nd with left := some c.nodes.length }) ∧
      (top.rem = 1 → c'.nodes[top.par]? = c.nodes[top.par]?.map fun nd => { nd with right := some c.nodes.length }) ∧
      (∀ n < c.nodes.length, n ≠ top.par → c'.nodes[n]? = c.nodes[n]?) ∧
      (top.rem = 2 → c'.stk = { par := c.nodes.length, rem := 2 } :: { par := top.par, rem := 1 } :: rest) ∧
      (top.rem = 1 → c'.stk = { par := c.nodes.length, rem := 2 } :: rest) ∧
      c'.seen = c.seen ∧ c'.nint = c.nint + 1 ∧ c'.ap = c.ap + 1) ∧
    (∀ v, v ≠ 0x00 → v ∉ c.seen → ∃ c', exec (.treeLeaf v) s = .next { s with work := .deser c' } ∧
      c'.nodes.length = c.nodes.length + 1 ∧
      c'.nodes[c.nodes.length]? = some (Node.mk .leaf v 0 none none (some top.par)) ∧
      (top.rem = 2 → c'.nodes[top.par]? = c.nodes[top.par]?.map fun nd => { nd with left := some c.nodes.length }) ∧
      (top.rem = 1 → c'.nodes[top.par]? = c.nodes[top.par]?.map fun nd => { nd with right := some c.nodes.length }) ∧
      (∀ n < c.nodes.length, n ≠ top.par → c'.nodes[n]? = c.nodes[n]?) ∧
      (top.rem = 2 → c'.stk = { par := top.par, rem := 1 } :: rest) ∧
      (top.rem = 1 → c'.stk = rest) ∧
      (∀ u, u ∈ c'.seen ↔ u = v ∨ u ∈ c.seen) ∧ c'.nint = c.nint ∧ c'.ap = c.ap + 1)

/-- A tree byte that fails M4 or M5 ends TDES in its fault (R136, R137; the one-word step is the model's, log entry 4). -/
def Obligations.TreeWordFaults : Prop :=
  ∀ (s : State) (c : DeserCtx), s.work = .deser c → c.stk ≠ [] →
    (c.nint = 254 →
      exec .treeInternal s = .next (faultedInTree .malformedArtifact (c.ap % 2 ^ 32) 0 { s with work := .idle })) ∧
    (∀ v, v ≠ 0x00 → v ∈ c.seen →
      exec (.treeLeaf v) s = .next (faultedInTree .malformedArtifact (c.ap % 2 ^ 32) v { s with work := .idle }))

/-- R121, R122: one bit of the walk, while DECODE reads the message. That DECODE stands at a bit in a state is the model's
choice (log entry 4). -/
def Obligations.CodeBitStep : Prop :=
  ∀ (s : State) (c : WalkCtx), TreeReady s → s.work = .walk c → c.bi < s.bitLen.toNat →
    kindAt s.arena c.cur = some .internal →
    (walkStart s).cur = s.root.toNat ∧
    ∀ bit : Bool, ∃ n nd, (if bit then rightAt s.arena c.cur else leftAt s.arena c.cur) = some n ∧
      s.arena[n]? = some nd ∧
      (nd.kind = .leaf → nd.value ≠ 0x00 ∧ exec (if bit then .codeRight else .codeLeft) s =
        .next { s with work := .walk { cur := s.root.toNat, out := c.out ++ [nd.value], bi := c.bi + 1 } }) ∧
      (nd.kind = .internal → exec (if bit then .codeRight else .codeLeft) s =
        .next { s with work := .walk { cur := n, out := c.out, bi := c.bi + 1 } })

/-- A message byte is its message bits from the cursor on, least significant first, none of them at or beyond `BIT_LEN`
(R77, R120, R124). That the byte is taken whole in a step of its own, and what it means at a cursor inside it, are the model's
choice (log entry 4): R120 takes the bits one at a time. -/
def Obligations.MessageByteStep : Prop :=
  ∀ (s : State) (c : WalkCtx) (b : Byte), TreeReady s → s.work = .walk c → c.bi < s.bitLen.toNat →
    kindAt s.arena c.cur = some .internal →
    ∃ c', exec (.msgByte b) s = .next { s with work := .walk c' } ∧
      c'.bi = min (8 * (c.bi / 8 + 1)) s.bitLen.toNat ∧ kindAt s.arena c'.cur = some .internal ∧
      walkBits s.arena s.root.toNat c
        ((List.range (c'.bi - c.bi)).map fun i => b.getLsbD (c.bi % 8 + i)) = some c'

/-- A word of a data stream has no meaning outside the command that reads the stream (R72, R75, R77; log entry 4). -/
def Obligations.DataWordsNeedTheirStream : Prop :=
  ∀ s : State, s.work = .idle → ∀ i : Instr, spaceOf i ≠ .command → exec i s = .refused .noOpenStream

/-- TDES is its tree bytes taken one a step: from the state in which it has read the root's byte, the machine runs to the
state TDES ends in (the steps are the model's choice, log entry 4). -/
def Obligations.TdesFromTreeWords : Prop :=
  ∀ s : State, s.work = .idle → s.artLen.toNat ≤ s.params.artCap → s.artLen ≠ 0 → artByte s 0 = 0x00 →
    ∃ n, Host.Core.run core n (openTree s) = exec .tdes s

/-- DECODE is its message words taken one a step: from the state in which it is at the start of the message, the machine
runs to the state DECODE ends in (the steps are the model's choice, log entry 4). -/
def Obligations.DecodeFromMessageWords : Prop :=
  ∀ s : State, s.work = .idle → s.treeValid = true → s.artLen.toNat ≤ s.params.artCap →
    s.msgOff.toNat ≤ s.artLen.toNat → s.bitLen.toNat ≤ 8 * (s.artLen.toNat - s.msgOff.toNat) →
    ∃ n, Host.Core.run core n (openMessage s) = exec .decode s

/-! ### Invariants -/

/-- The state after reset meets the invariant. -/
def Obligations.ResetMeetsStateOK : Prop :=
  StateOK State.reset ∧
  ∀ (p : Params) (e : Nat) (h : BitVec 254) (acts : List HostAct), p.ok = true → StateOK (State.resetWith p e h acts)

/-- Every step keeps the invariant: `TREE_VALID = 1` says that there is a tree as R40 describes it, the buffers stay within
their capacities and in canonical form, no transient state outlives a command, and the status, fault and codeword
registers hold what R23, R25, R34 and R164 say. -/
def Obligations.StepKeepsStateOK : Prop :=
  ∀ s t : State, StateOK s → step s = .next t → StateOK t

/-- Every command ends, in a next state, from every state that meets the invariant (R150); a step stops only on a host
access that the engine does not have (R37, R56). -/
def Obligations.CommandsAlwaysEnd : Prop :=
  (∀ (i : Instr) (s : State), StateOK s → spaceOf i = .command → ∃ t, exec i s = .next t ∧ StateOK t) ∧
  ∀ s : State, StateOK s →
    (∀ f, step s ≠ .fault f) ∧
    ∀ r, step s = .refused r →
      (r = .noSuchRegister ∧ ∃ a rest n, s.input = a :: rest ∧ 13 ≤ n ∧ (a = .readReg n ∨ ∃ v, a = .writeReg n v)) ∨
      (r = .indexBeyondCapacity ∧ ∃ a rest b i, s.input = a :: rest ∧ capacityOf s.params b ≤ i ∧
        (a = .readByte b i ∨ ∃ v, a = .writeByte b i v))

/-- The instance's constants never change (R36). -/
def Obligations.ParametersNeverChange : Prop :=
  ∀ s t : State, step s = .next t → t.params = s.params

/-- R83: `LD buf, b0 … b(n-1)` leaves the bytes at the indices from 0 on and their count in the length register. -/
def Obligations.LoadBufferScript : Prop :=
  ∀ (s : State) (b : Buffer) (bytes : List Byte) (rest : List HostAct), s.work = .idle → s.params.ok = true →
    bytes.length ≤ capacityOf s.params b → s.input = loadBuffer b bytes ++ rest →
    ∃ t, Host.Core.run core (bytes.length + 1) s = .next t ∧
      (∀ c j, readByte t c j = if c = b then bytes.getD j (readByte s b j) else readByte s c j) ∧
      (if b = .sym then t.symLen.toNat = bytes.length ∧ t.artLen = s.artLen
        else t.artLen.toNat = bytes.length ∧ t.symLen = s.symLen) ∧
      t = { s with sym := t.sym, art := t.art, symLen := t.symLen, artLen := t.artLen, input := rest }
end

