-- ==== Sys2Proof/Laws/Tree.lean ====
section
/-! SUPPORT. What a well-formed tree (R40) gives: every node has one depth, children lie one deeper, every leaf has a
codeword that leads to it (R111), and the arena below every node is a derivation of the grammar (R73). -/

namespace Sys2Proof.Machine

variable {nodes : List Node} {aidx : List Nat} {root k : Nat}

/-! ### Arena entries -/

theorem kindAt_some {n : Nat} {x : NodeKind} (h : kindAt nodes n = some x) : ∃ nd, nodes[n]? = some nd ∧ nd.kind = x := by
  simpa [kindAt] using h

theorem kindAt_cases (n : Nat) (hn : n < nodes.length) : kindAt nodes n = some .leaf ∨ kindAt nodes n = some .internal := by
  simp only [kindAt, List.getElem?_eq_getElem hn, Option.map_some]
  cases nodes[n].kind <;> simp

theorem kindAt_lt {n : Nat} {x : NodeKind} (h : kindAt nodes n = some x) : n < nodes.length := by
  obtain ⟨nd, h, -⟩ := kindAt_some h
  exact (List.getElem?_eq_some_iff.1 h).1

theorem parentAt_lt {n p : Nat} (h : parentAt nodes n = some p) : n < nodes.length := by
  by_contra hn
  simp [parentAt, List.getElem?_eq_none (Nat.not_lt.1 hn)] at h

/-! ### Depth -/

theorem ancestor_succ {d n p : Nat} (h : parentAt nodes n = some p) : ancestor nodes (d + 1) n = ancestor nodes d p := by
  simp [ancestor, h]

theorem ancestor_root (hr : parentAt nodes root = none) {d m : Nat} (h : ancestor nodes d root = some m) :
    d = 0 ∧ m = root := by
  cases d with
  | zero => exact ⟨rfl, by simpa [ancestor] using h.symm⟩
  | succ d => simp [ancestor, hr] at h

/-- A node has one depth: the root is reached after one number of steps only. -/
theorem ancestor_unique (hr : parentAt nodes root = none) {d e n : Nat} (hd : ancestor nodes d n = some root)
    (he : ancestor nodes e n = some root) : d = e := by
  induction d generalizing e n with
  | zero =>
    obtain rfl : n = root := by simpa [ancestor] using hd
    exact (ancestor_root hr he).1.symm
  | succ d ih =>
    cases hp : parentAt nodes n with
    | none => simp [ancestor, hp] at hd
    | some p =>
      cases e with
      | zero =>
        obtain rfl : n = root := by simpa [ancestor] using he
        simp [hr] at hp
      | succ e => rw [ancestor_succ hp] at hd he; rw [ih hd he]

namespace TreeOK

variable (h : TreeOK nodes aidx root k)
include h

/-- Every node has a depth of at most 254 (R40). -/
theorem depth (n : Nat) (hn : n < nodes.length) : ∃ d, d ≤ maxCw ∧ ancestor nodes d n = some root := by
  obtain ⟨d, hd, ha⟩ := h.reach n hn
  exact ⟨d, by omega, ha⟩

/-- The two children of an internal node. -/
theorem childrenOf {n : Nat} (hn : kindAt nodes n = some .internal) : ∃ l r, l < nodes.length ∧ r < nodes.length ∧
    leftAt nodes n = some l ∧ rightAt nodes n = some r ∧ l ≠ r ∧ parentAt nodes l = some n ∧ parentAt nodes r = some n := by
  obtain ⟨l, hl, r, hr, h1, h2, h3, h4, h5⟩ := h.children n (kindAt_lt hn) hn
  exact ⟨l, r, hl, hr, h1, h2, h3, h4, h5⟩

/-- The child of an internal node for a bit is one of its children. -/
theorem childOf {n : Nat} (hn : kindAt nodes n = some .internal) (bit : Bool) :
    ∃ c, c < nodes.length ∧ Machine.childOf nodes n bit = some c ∧ parentAt nodes c = some n := by
  obtain ⟨l, r, hl, hr, h1, h2, -, h4, h5⟩ := h.childrenOf hn
  cases bit
  · exact ⟨l, hl, by simpa [Machine.childOf] using h1, h4⟩
  · exact ⟨r, hr, by simpa [Machine.childOf] using h2, h5⟩

/-- A node that is not the root is the child of its parent for exactly one bit, the one `Code` collects (R111). -/
theorem bitOf {n p : Nat} (hp : parentAt nodes n = some p) : kindAt nodes p = some .internal ∧ p < nodes.length ∧
    Machine.childOf nodes p (leftAt nodes p != some n) = some n := by
  have hn : n ≠ root := by rintro rfl; simp [h.rootParent] at hp
  obtain ⟨q, hq, hpq, hk, hside⟩ := h.linked n (parentAt_lt hp) hn
  obtain rfl : p = q := by rw [hp] at hpq; exact Option.some.inj hpq
  refine ⟨hk, hq, ?_⟩
  by_cases hl : leftAt nodes p = some n
  · simp [Machine.childOf, hl]
  · have hr : rightAt nodes p = some n := not_not.1 (mt hside.2 hl)
    simpa [Machine.childOf, hl] using hr

/-- A child for the other bit is another node. -/
theorem childOf_inj {n c : Nat} {a b : Bool} (ha : Machine.childOf nodes n a = some c)
    (hb : Machine.childOf nodes n b = some c) (hn : kindAt nodes n = some .internal) : a = b := by
  obtain ⟨l, r, -, -, h1, h2, h3, -⟩ := h.childrenOf hn
  cases a <;> cases b <;> simp_all [Machine.childOf]

/-- A node's depth is one more than its parent's, and a child lies within the bound (R40). -/
theorem depth_child {n p d : Nat} (hp : parentAt nodes n = some p) (hd : ancestor nodes d p = some root) :
    ancestor nodes (d + 1) n = some root ∧ d + 1 ≤ maxCw := by
  have ha : ancestor nodes (d + 1) n = some root := by rw [ancestor_succ hp, hd]
  obtain ⟨e, he, hae⟩ := h.depth n (parentAt_lt hp)
  exact ⟨ha, by rwa [ancestor_unique h.rootParent ha hae]⟩

end TreeOK

/-! ### Codewords (R111) -/

theorem follow_append (n : Nat) (a b : List Bool) :
    follow nodes n (a ++ b) = (follow nodes n a).bind fun m => follow nodes m b := by
  induction a generalizing n with
  | nil => simp [follow]
  | cons bit a ih =>
    cases hc : childOf nodes n bit <;> simp [follow, hc, ih]

/-- The walk of R111 from a node of depth `d`: it collects `d` bits, which lead from the root to the node. -/
theorem climb_spec (h : TreeOK nodes aidx root k) {d n fuel : Nat} (hd : ancestor nodes d n = some root) (hf : d ≤ fuel)
    (hn : n < nodes.length) (bits : List Bool) :
    ∃ c, climb nodes fuel n bits = some (c ++ bits) ∧ c.length = d ∧ follow nodes root c = some n := by
  induction d generalizing n fuel bits with
  | zero =>
    obtain rfl : n = root := by simpa [ancestor] using hd
    refine ⟨[], ?_, rfl, rfl⟩
    have hp : nodes[n].parent = none := by
      simpa [parentAt, List.getElem?_eq_getElem hn] using h.rootParent
    unfold climb
    simp [List.getElem?_eq_getElem hn, hp]
  | succ d ih =>
    cases hp : parentAt nodes n with
    | none => simp [ancestor, hp] at hd
    | some p =>
      rw [ancestor_succ hp] at hd
      obtain ⟨-, hpl, hc⟩ := h.bitOf hp
      obtain ⟨fuel, rfl⟩ : ∃ f, fuel = f + 1 := ⟨fuel - 1, by omega⟩
      obtain ⟨c, hcl, hlen, hfol⟩ := ih (fuel := fuel) hd (by omega) hpl ((leftAt nodes p != some n) :: bits)
      refine ⟨c ++ [leftAt nodes p != some n], ?_, by simp [hlen], ?_⟩
      · have hp' : nodes[n].parent = some p := by simpa [parentAt, List.getElem?_eq_getElem hn] using hp
        unfold climb
        simp [List.getElem?_eq_getElem hn, hp', List.getElem?_eq_getElem hpl, hcl]
      · rw [follow_append, hfol]
        simp [follow, hc]

/-- `Code` of a node: as many bits as it is deep, leading from the root to it. -/
theorem codeOf_spec (h : TreeOK nodes aidx root k) {n : Nat} (hn : n < nodes.length) :
    ∃ c, codeOf nodes n = some c ∧ c.length ≤ maxCw ∧ ancestor nodes c.length n = some root ∧
      follow nodes root c = some n := by
  obtain ⟨d, hd, ha⟩ := h.depth n hn
  obtain ⟨c, hc, hlen, hf⟩ := climb_spec h ha hd hn []
  exact ⟨c, by simpa [codeOf] using hc, by omega, by rw [hlen]; exact ha, hf⟩

/-- A leaf has no child. -/
theorem TreeOK.leaf_childOf (h : TreeOK nodes aidx root k) {n : Nat} (hn : kindAt nodes n = some .leaf) (bit : Bool) :
    Machine.childOf nodes n bit = none := by
  obtain ⟨h1, h2⟩ := h.leafShape n (kindAt_lt hn) hn
  cases bit <;> simp [Machine.childOf, h1, h2]

/-- From a leaf no bit leads anywhere. -/
theorem TreeOK.follow_leaf (h : TreeOK nodes aidx root k) {n m : Nat} (hn : kindAt nodes n = some .leaf) {c : List Bool}
    (hf : follow nodes n c = some m) : c = [] ∧ m = n := by
  cases c with
  | nil => exact ⟨rfl, by simpa [follow] using hf.symm⟩
  | cons bit c => simp [follow, h.leaf_childOf hn] at hf

/-- The path between two nodes is unique, and the depth grows by one with every bit. -/
theorem TreeOK.follow_depth (h : TreeOK nodes aidx root k) {n m d : Nat} {c : List Bool} (hd : ancestor nodes d n = some root)
    (hf : follow nodes n c = some m) : ancestor nodes (d + c.length) m = some root := by
  induction c generalizing n d with
  | nil =>
    obtain rfl : n = m := by simpa [follow] using hf
    simpa using hd
  | cons bit c ih =>
    cases hc : Machine.childOf nodes n bit with
    | none => simp [follow, hc] at hf
    | some x =>
      simp only [follow, hc] at hf
      have hk : kindAt nodes n = some .internal := by
        have hn : n < nodes.length := by
          cases bit <;> simp only [Machine.childOf, leftAt, rightAt, if_true, Bool.false_eq_true, if_false] at hc <;>
            (by_contra hn; simp [List.getElem?_eq_none (Nat.not_lt.1 hn)] at hc)
        rcases kindAt_cases n hn with hk | hk
        · rw [h.leaf_childOf hk] at hc; exact absurd hc (by simp)
        · exact hk
      obtain ⟨y, -, hy, hpy⟩ := h.childOf hk bit
      obtain rfl : x = y := by rw [hc] at hy; exact Option.some.inj hy
      have := ih (h.depth_child hpy hd).1 hf
      simpa [Nat.add_assoc, Nat.add_comm 1] using this

/-! ### The shape below a node (R73, R130) -/

/-- The number of nodes of a derivation. -/
theorem ParseTree.bytes_length_pos (t : ParseTree) : 0 < t.bytes.length := by
  cases t <;> simp [ParseTree.bytes]

theorem ParseTree.bytes_length (t : ParseTree) : t.bytes.length + 1 = 2 * t.values.length := by
  induction t with
  | leaf v => simp [ParseTree.bytes, ParseTree.values]
  | node l r hl hr => simp [ParseTree.bytes, ParseTree.values]; omega

/-- Below every node of a well-formed tree lies a derivation, of at most as many levels as its depth leaves. -/
theorem shaped_exists (h : TreeOK nodes aidx root k) (gap : Nat) {n d : Nat} (hn : n < nodes.length)
    (hd : ancestor nodes d n = some root) (hg : maxCw ≤ d + gap) :
    ∃ t, Shaped nodes t n ∧ preorder nodes (gap + 1) n = some t.bytes := by
  induction gap generalizing n d with
  | zero =>
    rcases kindAt_cases n hn with hk | hk
    · obtain ⟨nd, hnd, hkind⟩ := kindAt_some hk
      exact ⟨.leaf nd.value, ⟨hk, by simp [valueAt, hnd]⟩, by simp [preorder, hnd, hkind, ParseTree.bytes]⟩
    · obtain ⟨l, r, hl, -, -, -, -, hp, -⟩ := h.childrenOf hk
      have := (h.depth_child hp hd).2
      omega
  | succ gap ih =>
    rcases kindAt_cases n hn with hk | hk
    · obtain ⟨nd, hnd, hkind⟩ := kindAt_some hk
      exact ⟨.leaf nd.value, ⟨hk, by simp [valueAt, hnd]⟩, by simp [preorder, hnd, hkind, ParseTree.bytes]⟩
    · obtain ⟨l, r, hl, hr, h1, h2, -, hpl, hpr⟩ := h.childrenOf hk
      obtain ⟨tl, hsl, hbl⟩ := ih hl (h.depth_child hpl hd).1 (by omega)
      obtain ⟨tr, hsr, hbr⟩ := ih hr (h.depth_child hpr hd).1 (by omega)
      obtain ⟨nd, hnd, hkind⟩ := kindAt_some hk
      have h1' : nd.left = some l := by simpa [leftAt, hnd] using h1
      have h2' : nd.right = some r := by simpa [rightAt, hnd] using h2
      exact ⟨.node tl tr, ⟨hk, l, r, h1, h2, hsl, hsr⟩,
        by rw [preorder]; simp [hnd, hkind, h1', h2', hbl, hbr, ParseTree.bytes]⟩

/-- A well-formed tree is a derivation, and TSER's bytes are its bytes (R130). -/
theorem shaped_root (h : TreeOK nodes aidx root k) :
    ∃ t, Shaped nodes t root ∧ preorder nodes (maxCw + 1) root = some t.bytes :=
  shaped_exists h maxCw h.rootBound (d := 0) rfl (by omega)

/-- An arena has at most one shape below a node. -/
theorem shaped_unique {t u : ParseTree} {n : Nat} (ht : Shaped nodes t n) (hu : Shaped nodes u n) : t = u := by
  induction t generalizing u n with
  | leaf v =>
    cases u with
    | leaf w => have := ht.2.symm.trans hu.2; simpa using this
    | node l r => have := ht.1.symm.trans hu.1; simp at this
  | node l r hl hr =>
    cases u with
    | leaf w => have := ht.1.symm.trans hu.1; simp at this
    | node l' r' =>
      obtain ⟨-, a, b, h1, h2, h3, h4⟩ := ht
      obtain ⟨-, a', b', h1', h2', h3', h4'⟩ := hu
      obtain rfl : a = a' := by rw [h1] at h1'; exact Option.some.inj h1'
      obtain rfl : b = b' := by rw [h2] at h2'; exact Option.some.inj h2'
      rw [hl h3 h3', hr h4 h4']

end Sys2Proof.Machine
end

