-- ==== Sys2Proof/Laws/Arena.lean ====
section
/-! SUPPORT. One lemma per field for each write of an arena entry (R94, R98, R134). -/

namespace Sys2Proof.Machine

/-! ### `N[a].parent <- p` -/

@[simp] theorem setParent_length (nodes : List Node) (a p : Nat) : (setParent nodes a p).length = nodes.length := by
  simp [setParent]

@[simp] theorem kindAt_setParent (nodes : List Node) (a p n : Nat) : kindAt (setParent nodes a p) n = kindAt nodes n := by
  simp only [kindAt, setParent, List.getElem?_modify]
  cases nodes[n]? <;> simp; split <;> rfl

@[simp] theorem valueAt_setParent (nodes : List Node) (a p n : Nat) :
    valueAt (setParent nodes a p) n = valueAt nodes n := by
  simp only [valueAt, setParent, List.getElem?_modify]
  cases nodes[n]? <;> simp; split <;> rfl

@[simp] theorem freqAt_setParent (nodes : List Node) (a p n : Nat) : freqAt (setParent nodes a p) n = freqAt nodes n := by
  simp only [freqAt, setParent, List.getElem?_modify]
  cases nodes[n]? <;> simp; split <;> rfl

@[simp] theorem leftAt_setParent (nodes : List Node) (a p n : Nat) : leftAt (setParent nodes a p) n = leftAt nodes n := by
  simp only [leftAt, setParent, List.getElem?_modify]
  cases nodes[n]? <;> simp; split <;> rfl

@[simp] theorem rightAt_setParent (nodes : List Node) (a p n : Nat) :
    rightAt (setParent nodes a p) n = rightAt nodes n := by
  simp only [rightAt, setParent, List.getElem?_modify]
  cases nodes[n]? <;> simp; split <;> rfl

theorem parentAt_setParent (nodes : List Node) (a p n : Nat) (ha : a < nodes.length) :
    parentAt (setParent nodes a p) n = if n = a then some p else parentAt nodes n := by
  simp only [parentAt, setParent, List.getElem?_modify]
  by_cases h : n = a
  · subst h; simp [List.getElem?_eq_getElem ha]
  · cases nodes[n]? <;> simp [Ne.symm h, h]

/-! ### `N[a].left <- c`, `N[a].right <- c` -/

@[simp] theorem setLeft_length (nodes : List Node) (a c : Nat) : (setLeft nodes a c).length = nodes.length := by
  simp [setLeft]

@[simp] theorem setRight_length (nodes : List Node) (a c : Nat) : (setRight nodes a c).length = nodes.length := by
  simp [setRight]

@[simp] theorem kindAt_setLeft (nodes : List Node) (a c n : Nat) : kindAt (setLeft nodes a c) n = kindAt nodes n := by
  simp only [kindAt, setLeft, List.getElem?_modify]
  cases nodes[n]? <;> simp; split <;> rfl

@[simp] theorem kindAt_setRight (nodes : List Node) (a c n : Nat) : kindAt (setRight nodes a c) n = kindAt nodes n := by
  simp only [kindAt, setRight, List.getElem?_modify]
  cases nodes[n]? <;> simp; split <;> rfl

@[simp] theorem valueAt_setLeft (nodes : List Node) (a c n : Nat) : valueAt (setLeft nodes a c) n = valueAt nodes n := by
  simp only [valueAt, setLeft, List.getElem?_modify]
  cases nodes[n]? <;> simp; split <;> rfl

@[simp] theorem valueAt_setRight (nodes : List Node) (a c n : Nat) :
    valueAt (setRight nodes a c) n = valueAt nodes n := by
  simp only [valueAt, setRight, List.getElem?_modify]
  cases nodes[n]? <;> simp; split <;> rfl

@[simp] theorem freqAt_setLeft (nodes : List Node) (a c n : Nat) : freqAt (setLeft nodes a c) n = freqAt nodes n := by
  simp only [freqAt, setLeft, List.getElem?_modify]
  cases nodes[n]? <;> simp; split <;> rfl

@[simp] theorem freqAt_setRight (nodes : List Node) (a c n : Nat) : freqAt (setRight nodes a c) n = freqAt nodes n := by
  simp only [freqAt, setRight, List.getElem?_modify]
  cases nodes[n]? <;> simp; split <;> rfl

@[simp] theorem parentAt_setLeft (nodes : List Node) (a c n : Nat) :
    parentAt (setLeft nodes a c) n = parentAt nodes n := by
  simp only [parentAt, setLeft, List.getElem?_modify]
  cases nodes[n]? <;> simp; split <;> rfl

@[simp] theorem parentAt_setRight (nodes : List Node) (a c n : Nat) :
    parentAt (setRight nodes a c) n = parentAt nodes n := by
  simp only [parentAt, setRight, List.getElem?_modify]
  cases nodes[n]? <;> simp; split <;> rfl

@[simp] theorem rightAt_setLeft (nodes : List Node) (a c n : Nat) : rightAt (setLeft nodes a c) n = rightAt nodes n := by
  simp only [rightAt, setLeft, List.getElem?_modify]
  cases nodes[n]? <;> simp; split <;> rfl

@[simp] theorem leftAt_setRight (nodes : List Node) (a c n : Nat) : leftAt (setRight nodes a c) n = leftAt nodes n := by
  simp only [leftAt, setRight, List.getElem?_modify]
  cases nodes[n]? <;> simp; split <;> rfl

theorem leftAt_setLeft (nodes : List Node) (a c n : Nat) (ha : a < nodes.length) :
    leftAt (setLeft nodes a c) n = if n = a then some c else leftAt nodes n := by
  simp only [leftAt, setLeft, List.getElem?_modify]
  by_cases h : n = a
  · subst h; simp [List.getElem?_eq_getElem ha]
  · cases nodes[n]? <;> simp [Ne.symm h, h]

theorem rightAt_setRight (nodes : List Node) (a c n : Nat) (ha : a < nodes.length) :
    rightAt (setRight nodes a c) n = if n = a then some c else rightAt nodes n := by
  simp only [rightAt, setRight, List.getElem?_modify]
  by_cases h : n = a
  · subst h; simp [List.getElem?_eq_getElem ha]
  · cases nodes[n]? <;> simp [Ne.symm h, h]

/-! ### A new entry at the end -/

theorem getElem?_append_one (nodes : List Node) (x : Node) (n : Nat) :
    (nodes ++ [x])[n]? = if n = nodes.length then some x else nodes[n]? := by
  rcases Nat.lt_trichotomy n nodes.length with h | h | h
  · simp [List.getElem?_append_left h, Nat.ne_of_lt h]
  · subst h; simp
  · simp [List.getElem?_eq_none (Nat.le_of_lt h), Nat.ne_of_gt h, h]

theorem kindAt_append_one (nodes : List Node) (x : Node) (n : Nat) :
    kindAt (nodes ++ [x]) n = if n = nodes.length then some x.kind else kindAt nodes n := by
  simp only [kindAt, getElem?_append_one]; split <;> rfl

theorem valueAt_append_one (nodes : List Node) (x : Node) (n : Nat) :
    valueAt (nodes ++ [x]) n = if n = nodes.length then some x.value else valueAt nodes n := by
  simp only [valueAt, getElem?_append_one]; split <;> rfl

theorem freqAt_append_one (nodes : List Node) (x : Node) (n : Nat) :
    freqAt (nodes ++ [x]) n = if n = nodes.length then x.freq else freqAt nodes n := by
  simp only [freqAt, getElem?_append_one]; by_cases h : n = nodes.length <;> simp [h]

theorem leftAt_append_one (nodes : List Node) (x : Node) (n : Nat) :
    leftAt (nodes ++ [x]) n = if n = nodes.length then x.left else leftAt nodes n := by
  simp only [leftAt, getElem?_append_one]; split <;> rfl

theorem rightAt_append_one (nodes : List Node) (x : Node) (n : Nat) :
    rightAt (nodes ++ [x]) n = if n = nodes.length then x.right else rightAt nodes n := by
  simp only [rightAt, getElem?_append_one]; split <;> rfl

theorem parentAt_append_one (nodes : List Node) (x : Node) (n : Nat) :
    parentAt (nodes ++ [x]) n = if n = nodes.length then x.parent else parentAt nodes n := by
  simp only [parentAt, getElem?_append_one]; split <;> rfl

/-! ### The fields of a new entry -/

@[simp] theorem newLeaf_kind (v : Byte) (f : Nat) (p : Option Nat) : (newLeaf v f p).kind = .leaf := rfl
@[simp] theorem newLeaf_value (v : Byte) (f : Nat) (p : Option Nat) : (newLeaf v f p).value = v := rfl
@[simp] theorem newLeaf_freq (v : Byte) (f : Nat) (p : Option Nat) : (newLeaf v f p).freq = f := rfl
@[simp] theorem newLeaf_left (v : Byte) (f : Nat) (p : Option Nat) : (newLeaf v f p).left = none := rfl
@[simp] theorem newLeaf_right (v : Byte) (f : Nat) (p : Option Nat) : (newLeaf v f p).right = none := rfl
@[simp] theorem newLeaf_parent (v : Byte) (f : Nat) (p : Option Nat) : (newLeaf v f p).parent = p := rfl
@[simp] theorem newInternal_kind (l r : Option Nat) (f : Nat) (p : Option Nat) : (newInternal l r f p).kind = .internal := rfl
@[simp] theorem newInternal_value (l r : Option Nat) (f : Nat) (p : Option Nat) : (newInternal l r f p).value = 0 := rfl
@[simp] theorem newInternal_freq (l r : Option Nat) (f : Nat) (p : Option Nat) : (newInternal l r f p).freq = f := rfl
@[simp] theorem newInternal_left (l r : Option Nat) (f : Nat) (p : Option Nat) : (newInternal l r f p).left = l := rfl
@[simp] theorem newInternal_right (l r : Option Nat) (f : Nat) (p : Option Nat) : (newInternal l r f p).right = r := rfl
@[simp] theorem newInternal_parent (l r : Option Nat) (f : Nat) (p : Option Nat) : (newInternal l r f p).parent = p := rfl

end Sys2Proof.Machine
end

