-- ==== Sys2Proof/Laws/State.lean ====
section
/-! SUPPORT. One lemma per field for each named update of State, so that no proof unfolds an update. -/

namespace Sys2Proof.Machine

/-! ### `succeed` -/

@[simp] theorem succeed_params (s : State) : (succeed s).params = s.params := rfl
@[simp] theorem succeed_treeValid (s : State) : (succeed s).treeValid = s.treeValid := rfl
@[simp] theorem succeed_faultSeen (s : State) : (succeed s).faultSeen = s.faultSeen := rfl
@[simp] theorem succeed_err (s : State) : (succeed s).err = none := rfl
@[simp] theorem succeed_errInfo (s : State) : (succeed s).errInfo = 0 := rfl
@[simp] theorem succeed_symLen (s : State) : (succeed s).symLen = s.symLen := rfl
@[simp] theorem succeed_artLen (s : State) : (succeed s).artLen = s.artLen := rfl
@[simp] theorem succeed_msgOff (s : State) : (succeed s).msgOff = s.msgOff := rfl
@[simp] theorem succeed_bitLen (s : State) : (succeed s).bitLen = s.bitLen := rfl
@[simp] theorem succeed_arg (s : State) : (succeed s).arg = s.arg := rfl
@[simp] theorem succeed_cwLen (s : State) : (succeed s).cwLen = s.cwLen := rfl
@[simp] theorem succeed_cwBits (s : State) : (succeed s).cwBits = s.cwBits := rfl
@[simp] theorem succeed_alphaSize (s : State) : (succeed s).alphaSize = s.alphaSize := rfl
@[simp] theorem succeed_nodeCnt (s : State) : (succeed s).nodeCnt = s.nodeCnt := rfl
@[simp] theorem succeed_root (s : State) : (succeed s).root = s.root := rfl
@[simp] theorem succeed_arena (s : State) : (succeed s).arena = s.arena := rfl
@[simp] theorem succeed_aidx (s : State) : (succeed s).aidx = s.aidx := rfl
@[simp] theorem succeed_sym (s : State) : (succeed s).sym = s.sym := rfl
@[simp] theorem succeed_art (s : State) : (succeed s).art = s.art := rfl
@[simp] theorem succeed_work (s : State) : (succeed s).work = s.work := rfl
@[simp] theorem succeed_input (s : State) : (succeed s).input = s.input := rfl
@[simp] theorem succeed_hostRead (s : State) : (succeed s).hostRead = s.hostRead := rfl
@[simp] theorem succeed_epoch (s : State) : (succeed s).epoch = s.epoch := rfl

/-! ### `raise` -/

@[simp] theorem raise_params (k : ErrKind) (pos : Nat) (val : Byte) (s : State) : (raise k pos val s).params = s.params := rfl
@[simp] theorem raise_treeValid (k : ErrKind) (pos : Nat) (val : Byte) (s : State) : (raise k pos val s).treeValid = s.treeValid := rfl
@[simp] theorem raise_faultSeen (k : ErrKind) (pos : Nat) (val : Byte) (s : State) : (raise k pos val s).faultSeen = true := rfl
@[simp] theorem raise_err (k : ErrKind) (pos : Nat) (val : Byte) (s : State) : (raise k pos val s).err = some k := rfl
@[simp] theorem raise_errInfo (k : ErrKind) (pos : Nat) (val : Byte) (s : State) : (raise k pos val s).errInfo = errInfoOf pos val := rfl
@[simp] theorem raise_symLen (k : ErrKind) (pos : Nat) (val : Byte) (s : State) : (raise k pos val s).symLen = s.symLen := rfl
@[simp] theorem raise_artLen (k : ErrKind) (pos : Nat) (val : Byte) (s : State) : (raise k pos val s).artLen = s.artLen := rfl
@[simp] theorem raise_msgOff (k : ErrKind) (pos : Nat) (val : Byte) (s : State) : (raise k pos val s).msgOff = s.msgOff := rfl
@[simp] theorem raise_bitLen (k : ErrKind) (pos : Nat) (val : Byte) (s : State) : (raise k pos val s).bitLen = s.bitLen := rfl
@[simp] theorem raise_arg (k : ErrKind) (pos : Nat) (val : Byte) (s : State) : (raise k pos val s).arg = s.arg := rfl
@[simp] theorem raise_cwLen (k : ErrKind) (pos : Nat) (val : Byte) (s : State) : (raise k pos val s).cwLen = s.cwLen := rfl
@[simp] theorem raise_cwBits (k : ErrKind) (pos : Nat) (val : Byte) (s : State) : (raise k pos val s).cwBits = s.cwBits := rfl
@[simp] theorem raise_alphaSize (k : ErrKind) (pos : Nat) (val : Byte) (s : State) : (raise k pos val s).alphaSize = s.alphaSize := rfl
@[simp] theorem raise_nodeCnt (k : ErrKind) (pos : Nat) (val : Byte) (s : State) : (raise k pos val s).nodeCnt = s.nodeCnt := rfl
@[simp] theorem raise_root (k : ErrKind) (pos : Nat) (val : Byte) (s : State) : (raise k pos val s).root = s.root := rfl
@[simp] theorem raise_arena (k : ErrKind) (pos : Nat) (val : Byte) (s : State) : (raise k pos val s).arena = s.arena := rfl
@[simp] theorem raise_aidx (k : ErrKind) (pos : Nat) (val : Byte) (s : State) : (raise k pos val s).aidx = s.aidx := rfl
@[simp] theorem raise_sym (k : ErrKind) (pos : Nat) (val : Byte) (s : State) : (raise k pos val s).sym = s.sym := rfl
@[simp] theorem raise_art (k : ErrKind) (pos : Nat) (val : Byte) (s : State) : (raise k pos val s).art = s.art := rfl
@[simp] theorem raise_work (k : ErrKind) (pos : Nat) (val : Byte) (s : State) : (raise k pos val s).work = s.work := rfl
@[simp] theorem raise_input (k : ErrKind) (pos : Nat) (val : Byte) (s : State) : (raise k pos val s).input = s.input := rfl
@[simp] theorem raise_hostRead (k : ErrKind) (pos : Nat) (val : Byte) (s : State) : (raise k pos val s).hostRead = s.hostRead := rfl
@[simp] theorem raise_epoch (k : ErrKind) (pos : Nat) (val : Byte) (s : State) : (raise k pos val s).epoch = s.epoch := rfl

/-! ### `dropTree` -/

@[simp] theorem dropTree_params (s : State) : (dropTree s).params = s.params := rfl
@[simp] theorem dropTree_treeValid (s : State) : (dropTree s).treeValid = false := rfl
@[simp] theorem dropTree_faultSeen (s : State) : (dropTree s).faultSeen = s.faultSeen := rfl
@[simp] theorem dropTree_err (s : State) : (dropTree s).err = s.err := rfl
@[simp] theorem dropTree_errInfo (s : State) : (dropTree s).errInfo = s.errInfo := rfl
@[simp] theorem dropTree_symLen (s : State) : (dropTree s).symLen = s.symLen := rfl
@[simp] theorem dropTree_artLen (s : State) : (dropTree s).artLen = s.artLen := rfl
@[simp] theorem dropTree_msgOff (s : State) : (dropTree s).msgOff = s.msgOff := rfl
@[simp] theorem dropTree_bitLen (s : State) : (dropTree s).bitLen = s.bitLen := rfl
@[simp] theorem dropTree_arg (s : State) : (dropTree s).arg = s.arg := rfl
@[simp] theorem dropTree_cwLen (s : State) : (dropTree s).cwLen = s.cwLen := rfl
@[simp] theorem dropTree_cwBits (s : State) : (dropTree s).cwBits = s.cwBits := rfl
@[simp] theorem dropTree_alphaSize (s : State) : (dropTree s).alphaSize = 0 := rfl
@[simp] theorem dropTree_nodeCnt (s : State) : (dropTree s).nodeCnt = 0 := rfl
@[simp] theorem dropTree_root (s : State) : (dropTree s).root = 0 := rfl
@[simp] theorem dropTree_arena (s : State) : (dropTree s).arena = [] := rfl
@[simp] theorem dropTree_aidx (s : State) : (dropTree s).aidx = [] := rfl
@[simp] theorem dropTree_sym (s : State) : (dropTree s).sym = s.sym := rfl
@[simp] theorem dropTree_art (s : State) : (dropTree s).art = s.art := rfl
@[simp] theorem dropTree_work (s : State) : (dropTree s).work = s.work := rfl
@[simp] theorem dropTree_input (s : State) : (dropTree s).input = s.input := rfl
@[simp] theorem dropTree_hostRead (s : State) : (dropTree s).hostRead = s.hostRead := rfl
@[simp] theorem dropTree_epoch (s : State) : (dropTree s).epoch = s.epoch := rfl

/-! ### `raiseInTree` -/

@[simp] theorem raiseInTree_params (k : ErrKind) (pos : Nat) (val : Byte) (s : State) : (raiseInTree k pos val s).params = s.params := rfl
@[simp] theorem raiseInTree_treeValid (k : ErrKind) (pos : Nat) (val : Byte) (s : State) : (raiseInTree k pos val s).treeValid = false := rfl
@[simp] theorem raiseInTree_faultSeen (k : ErrKind) (pos : Nat) (val : Byte) (s : State) : (raiseInTree k pos val s).faultSeen = true := rfl
@[simp] theorem raiseInTree_err (k : ErrKind) (pos : Nat) (val : Byte) (s : State) : (raiseInTree k pos val s).err = some k := rfl
@[simp] theorem raiseInTree_errInfo (k : ErrKind) (pos : Nat) (val : Byte) (s : State) : (raiseInTree k pos val s).errInfo = errInfoOf pos val := rfl
@[simp] theorem raiseInTree_symLen (k : ErrKind) (pos : Nat) (val : Byte) (s : State) : (raiseInTree k pos val s).symLen = s.symLen := rfl
@[simp] theorem raiseInTree_artLen (k : ErrKind) (pos : Nat) (val : Byte) (s : State) : (raiseInTree k pos val s).artLen = s.artLen := rfl
@[simp] theorem raiseInTree_msgOff (k : ErrKind) (pos : Nat) (val : Byte) (s : State) : (raiseInTree k pos val s).msgOff = s.msgOff := rfl
@[simp] theorem raiseInTree_bitLen (k : ErrKind) (pos : Nat) (val : Byte) (s : State) : (raiseInTree k pos val s).bitLen = s.bitLen := rfl
@[simp] theorem raiseInTree_arg (k : ErrKind) (pos : Nat) (val : Byte) (s : State) : (raiseInTree k pos val s).arg = s.arg := rfl
@[simp] theorem raiseInTree_cwLen (k : ErrKind) (pos : Nat) (val : Byte) (s : State) : (raiseInTree k pos val s).cwLen = s.cwLen := rfl
@[simp] theorem raiseInTree_cwBits (k : ErrKind) (pos : Nat) (val : Byte) (s : State) : (raiseInTree k pos val s).cwBits = s.cwBits := rfl
@[simp] theorem raiseInTree_alphaSize (k : ErrKind) (pos : Nat) (val : Byte) (s : State) : (raiseInTree k pos val s).alphaSize = 0 := rfl
@[simp] theorem raiseInTree_nodeCnt (k : ErrKind) (pos : Nat) (val : Byte) (s : State) : (raiseInTree k pos val s).nodeCnt = 0 := rfl
@[simp] theorem raiseInTree_root (k : ErrKind) (pos : Nat) (val : Byte) (s : State) : (raiseInTree k pos val s).root = 0 := rfl
@[simp] theorem raiseInTree_arena (k : ErrKind) (pos : Nat) (val : Byte) (s : State) : (raiseInTree k pos val s).arena = [] := rfl
@[simp] theorem raiseInTree_aidx (k : ErrKind) (pos : Nat) (val : Byte) (s : State) : (raiseInTree k pos val s).aidx = [] := rfl
@[simp] theorem raiseInTree_sym (k : ErrKind) (pos : Nat) (val : Byte) (s : State) : (raiseInTree k pos val s).sym = s.sym := rfl
@[simp] theorem raiseInTree_art (k : ErrKind) (pos : Nat) (val : Byte) (s : State) : (raiseInTree k pos val s).art = s.art := rfl
@[simp] theorem raiseInTree_work (k : ErrKind) (pos : Nat) (val : Byte) (s : State) : (raiseInTree k pos val s).work = s.work := rfl
@[simp] theorem raiseInTree_input (k : ErrKind) (pos : Nat) (val : Byte) (s : State) : (raiseInTree k pos val s).input = s.input := rfl
@[simp] theorem raiseInTree_hostRead (k : ErrKind) (pos : Nat) (val : Byte) (s : State) : (raiseInTree k pos val s).hostRead = s.hostRead := rfl
@[simp] theorem raiseInTree_epoch (k : ErrKind) (pos : Nat) (val : Byte) (s : State) : (raiseInTree k pos val s).epoch = s.epoch := rfl

/-! ### `installTree` -/

@[simp] theorem installTree_params (nodes : List Node) (ix : List Nat) (r : Nat) (s : State) : (installTree nodes ix r s).params = s.params := rfl
@[simp] theorem installTree_treeValid (nodes : List Node) (ix : List Nat) (r : Nat) (s : State) : (installTree nodes ix r s).treeValid = true := rfl
@[simp] theorem installTree_faultSeen (nodes : List Node) (ix : List Nat) (r : Nat) (s : State) : (installTree nodes ix r s).faultSeen = s.faultSeen := rfl
@[simp] theorem installTree_err (nodes : List Node) (ix : List Nat) (r : Nat) (s : State) : (installTree nodes ix r s).err = s.err := rfl
@[simp] theorem installTree_errInfo (nodes : List Node) (ix : List Nat) (r : Nat) (s : State) : (installTree nodes ix r s).errInfo = s.errInfo := rfl
@[simp] theorem installTree_symLen (nodes : List Node) (ix : List Nat) (r : Nat) (s : State) : (installTree nodes ix r s).symLen = s.symLen := rfl
@[simp] theorem installTree_artLen (nodes : List Node) (ix : List Nat) (r : Nat) (s : State) : (installTree nodes ix r s).artLen = s.artLen := rfl
@[simp] theorem installTree_msgOff (nodes : List Node) (ix : List Nat) (r : Nat) (s : State) : (installTree nodes ix r s).msgOff = s.msgOff := rfl
@[simp] theorem installTree_bitLen (nodes : List Node) (ix : List Nat) (r : Nat) (s : State) : (installTree nodes ix r s).bitLen = s.bitLen := rfl
@[simp] theorem installTree_arg (nodes : List Node) (ix : List Nat) (r : Nat) (s : State) : (installTree nodes ix r s).arg = s.arg := rfl
@[simp] theorem installTree_cwLen (nodes : List Node) (ix : List Nat) (r : Nat) (s : State) : (installTree nodes ix r s).cwLen = s.cwLen := rfl
@[simp] theorem installTree_cwBits (nodes : List Node) (ix : List Nat) (r : Nat) (s : State) : (installTree nodes ix r s).cwBits = s.cwBits := rfl
@[simp] theorem installTree_alphaSize (nodes : List Node) (ix : List Nat) (r : Nat) (s : State) : (installTree nodes ix r s).alphaSize = BitVec.ofNat 8 ix.length := rfl
@[simp] theorem installTree_nodeCnt (nodes : List Node) (ix : List Nat) (r : Nat) (s : State) : (installTree nodes ix r s).nodeCnt = BitVec.ofNat 9 nodes.length := rfl
@[simp] theorem installTree_root (nodes : List Node) (ix : List Nat) (r : Nat) (s : State) : (installTree nodes ix r s).root = BitVec.ofNat 9 r := rfl
@[simp] theorem installTree_arena (nodes : List Node) (ix : List Nat) (r : Nat) (s : State) : (installTree nodes ix r s).arena = nodes := rfl
@[simp] theorem installTree_aidx (nodes : List Node) (ix : List Nat) (r : Nat) (s : State) : (installTree nodes ix r s).aidx = ix := rfl
@[simp] theorem installTree_sym (nodes : List Node) (ix : List Nat) (r : Nat) (s : State) : (installTree nodes ix r s).sym = s.sym := rfl
@[simp] theorem installTree_art (nodes : List Node) (ix : List Nat) (r : Nat) (s : State) : (installTree nodes ix r s).art = s.art := rfl
@[simp] theorem installTree_work (nodes : List Node) (ix : List Nat) (r : Nat) (s : State) : (installTree nodes ix r s).work = s.work := rfl
@[simp] theorem installTree_input (nodes : List Node) (ix : List Nat) (r : Nat) (s : State) : (installTree nodes ix r s).input = s.input := rfl
@[simp] theorem installTree_hostRead (nodes : List Node) (ix : List Nat) (r : Nat) (s : State) : (installTree nodes ix r s).hostRead = s.hostRead := rfl
@[simp] theorem installTree_epoch (nodes : List Node) (ix : List Nat) (r : Nat) (s : State) : (installTree nodes ix r s).epoch = s.epoch := rfl

/-! ### `storeMessage` -/

@[simp] theorem storeMessage_params (bits : List Bool) (s : State) : (storeMessage bits s).params = s.params := rfl
@[simp] theorem storeMessage_treeValid (bits : List Bool) (s : State) : (storeMessage bits s).treeValid = s.treeValid := rfl
@[simp] theorem storeMessage_faultSeen (bits : List Bool) (s : State) : (storeMessage bits s).faultSeen = s.faultSeen := rfl
@[simp] theorem storeMessage_err (bits : List Bool) (s : State) : (storeMessage bits s).err = s.err := rfl
@[simp] theorem storeMessage_errInfo (bits : List Bool) (s : State) : (storeMessage bits s).errInfo = s.errInfo := rfl
@[simp] theorem storeMessage_symLen (bits : List Bool) (s : State) : (storeMessage bits s).symLen = s.symLen := rfl
@[simp] theorem storeMessage_artLen (bits : List Bool) (s : State) : (storeMessage bits s).artLen = BitVec.ofNat 32 (s.msgOff.toNat + ceil8 bits.length) := rfl
@[simp] theorem storeMessage_msgOff (bits : List Bool) (s : State) : (storeMessage bits s).msgOff = s.msgOff := rfl
@[simp] theorem storeMessage_bitLen (bits : List Bool) (s : State) : (storeMessage bits s).bitLen = BitVec.ofNat 40 bits.length := rfl
@[simp] theorem storeMessage_arg (bits : List Bool) (s : State) : (storeMessage bits s).arg = s.arg := rfl
@[simp] theorem storeMessage_cwLen (bits : List Bool) (s : State) : (storeMessage bits s).cwLen = s.cwLen := rfl
@[simp] theorem storeMessage_cwBits (bits : List Bool) (s : State) : (storeMessage bits s).cwBits = s.cwBits := rfl
@[simp] theorem storeMessage_alphaSize (bits : List Bool) (s : State) : (storeMessage bits s).alphaSize = s.alphaSize := rfl
@[simp] theorem storeMessage_nodeCnt (bits : List Bool) (s : State) : (storeMessage bits s).nodeCnt = s.nodeCnt := rfl
@[simp] theorem storeMessage_root (bits : List Bool) (s : State) : (storeMessage bits s).root = s.root := rfl
@[simp] theorem storeMessage_arena (bits : List Bool) (s : State) : (storeMessage bits s).arena = s.arena := rfl
@[simp] theorem storeMessage_aidx (bits : List Bool) (s : State) : (storeMessage bits s).aidx = s.aidx := rfl
@[simp] theorem storeMessage_sym (bits : List Bool) (s : State) : (storeMessage bits s).sym = s.sym := rfl
@[simp] theorem storeMessage_art (bits : List Bool) (s : State) : (storeMessage bits s).art = Memory.pokeAll s.art s.msgOff.toNat (pack bits) := rfl
@[simp] theorem storeMessage_work (bits : List Bool) (s : State) : (storeMessage bits s).work = s.work := rfl
@[simp] theorem storeMessage_input (bits : List Bool) (s : State) : (storeMessage bits s).input = s.input := rfl
@[simp] theorem storeMessage_hostRead (bits : List Bool) (s : State) : (storeMessage bits s).hostRead = s.hostRead := rfl
@[simp] theorem storeMessage_epoch (bits : List Bool) (s : State) : (storeMessage bits s).epoch = s.epoch := rfl

/-! ### `storeTree` -/

@[simp] theorem storeTree_params (bytes : List Byte) (s : State) : (storeTree bytes s).params = s.params := rfl
@[simp] theorem storeTree_treeValid (bytes : List Byte) (s : State) : (storeTree bytes s).treeValid = s.treeValid := rfl
@[simp] theorem storeTree_faultSeen (bytes : List Byte) (s : State) : (storeTree bytes s).faultSeen = s.faultSeen := rfl
@[simp] theorem storeTree_err (bytes : List Byte) (s : State) : (storeTree bytes s).err = s.err := rfl
@[simp] theorem storeTree_errInfo (bytes : List Byte) (s : State) : (storeTree bytes s).errInfo = s.errInfo := rfl
@[simp] theorem storeTree_symLen (bytes : List Byte) (s : State) : (storeTree bytes s).symLen = s.symLen := rfl
@[simp] theorem storeTree_artLen (bytes : List Byte) (s : State) : (storeTree bytes s).artLen = BitVec.ofNat 32 s.nodeCnt.toNat := rfl
@[simp] theorem storeTree_msgOff (bytes : List Byte) (s : State) : (storeTree bytes s).msgOff = BitVec.ofNat 32 s.nodeCnt.toNat := rfl
@[simp] theorem storeTree_bitLen (bytes : List Byte) (s : State) : (storeTree bytes s).bitLen = 0 := rfl
@[simp] theorem storeTree_arg (bytes : List Byte) (s : State) : (storeTree bytes s).arg = s.arg := rfl
@[simp] theorem storeTree_cwLen (bytes : List Byte) (s : State) : (storeTree bytes s).cwLen = s.cwLen := rfl
@[simp] theorem storeTree_cwBits (bytes : List Byte) (s : State) : (storeTree bytes s).cwBits = s.cwBits := rfl
@[simp] theorem storeTree_alphaSize (bytes : List Byte) (s : State) : (storeTree bytes s).alphaSize = s.alphaSize := rfl
@[simp] theorem storeTree_nodeCnt (bytes : List Byte) (s : State) : (storeTree bytes s).nodeCnt = s.nodeCnt := rfl
@[simp] theorem storeTree_root (bytes : List Byte) (s : State) : (storeTree bytes s).root = s.root := rfl
@[simp] theorem storeTree_arena (bytes : List Byte) (s : State) : (storeTree bytes s).arena = s.arena := rfl
@[simp] theorem storeTree_aidx (bytes : List Byte) (s : State) : (storeTree bytes s).aidx = s.aidx := rfl
@[simp] theorem storeTree_sym (bytes : List Byte) (s : State) : (storeTree bytes s).sym = s.sym := rfl
@[simp] theorem storeTree_art (bytes : List Byte) (s : State) : (storeTree bytes s).art = Memory.pokeAll s.art 0 bytes := rfl
@[simp] theorem storeTree_work (bytes : List Byte) (s : State) : (storeTree bytes s).work = s.work := rfl
@[simp] theorem storeTree_input (bytes : List Byte) (s : State) : (storeTree bytes s).input = s.input := rfl
@[simp] theorem storeTree_hostRead (bytes : List Byte) (s : State) : (storeTree bytes s).hostRead = s.hostRead := rfl
@[simp] theorem storeTree_epoch (bytes : List Byte) (s : State) : (storeTree bytes s).epoch = s.epoch := rfl

/-! ### `feedAllBits` -/

@[simp] theorem feedAllBits_params (s : State) : (feedAllBits s).params = s.params := rfl
@[simp] theorem feedAllBits_treeValid (s : State) : (feedAllBits s).treeValid = s.treeValid := rfl
@[simp] theorem feedAllBits_faultSeen (s : State) : (feedAllBits s).faultSeen = s.faultSeen := rfl
@[simp] theorem feedAllBits_err (s : State) : (feedAllBits s).err = s.err := rfl
@[simp] theorem feedAllBits_errInfo (s : State) : (feedAllBits s).errInfo = s.errInfo := rfl
@[simp] theorem feedAllBits_symLen (s : State) : (feedAllBits s).symLen = s.symLen := rfl
@[simp] theorem feedAllBits_artLen (s : State) : (feedAllBits s).artLen = s.artLen := rfl
@[simp] theorem feedAllBits_msgOff (s : State) : (feedAllBits s).msgOff = s.msgOff := rfl
@[simp] theorem feedAllBits_bitLen (s : State) : (feedAllBits s).bitLen = BitVec.ofNat 40 (8 * (s.artLen.toNat - s.msgOff.toNat)) := rfl
@[simp] theorem feedAllBits_arg (s : State) : (feedAllBits s).arg = s.arg := rfl
@[simp] theorem feedAllBits_cwLen (s : State) : (feedAllBits s).cwLen = s.cwLen := rfl
@[simp] theorem feedAllBits_cwBits (s : State) : (feedAllBits s).cwBits = s.cwBits := rfl
@[simp] theorem feedAllBits_alphaSize (s : State) : (feedAllBits s).alphaSize = s.alphaSize := rfl
@[simp] theorem feedAllBits_nodeCnt (s : State) : (feedAllBits s).nodeCnt = s.nodeCnt := rfl
@[simp] theorem feedAllBits_root (s : State) : (feedAllBits s).root = s.root := rfl
@[simp] theorem feedAllBits_arena (s : State) : (feedAllBits s).arena = s.arena := rfl
@[simp] theorem feedAllBits_aidx (s : State) : (feedAllBits s).aidx = s.aidx := rfl
@[simp] theorem feedAllBits_sym (s : State) : (feedAllBits s).sym = s.sym := rfl
@[simp] theorem feedAllBits_art (s : State) : (feedAllBits s).art = s.art := rfl
@[simp] theorem feedAllBits_work (s : State) : (feedAllBits s).work = s.work := rfl
@[simp] theorem feedAllBits_input (s : State) : (feedAllBits s).input = s.input := rfl
@[simp] theorem feedAllBits_hostRead (s : State) : (feedAllBits s).hostRead = s.hostRead := rfl
@[simp] theorem feedAllBits_epoch (s : State) : (feedAllBits s).epoch = s.epoch := rfl

/-! ### `finishTree` -/

@[simp] theorem finishTree_params (c : DeserCtx) (s : State) : (finishTree c s).params = s.params := rfl
@[simp] theorem finishTree_treeValid (c : DeserCtx) (s : State) : (finishTree c s).treeValid = true := rfl
@[simp] theorem finishTree_faultSeen (c : DeserCtx) (s : State) : (finishTree c s).faultSeen = s.faultSeen := rfl
@[simp] theorem finishTree_err (c : DeserCtx) (s : State) : (finishTree c s).err = none := rfl
@[simp] theorem finishTree_errInfo (c : DeserCtx) (s : State) : (finishTree c s).errInfo = 0 := rfl
@[simp] theorem finishTree_symLen (c : DeserCtx) (s : State) : (finishTree c s).symLen = s.symLen := rfl
@[simp] theorem finishTree_artLen (c : DeserCtx) (s : State) : (finishTree c s).artLen = s.artLen := rfl
@[simp] theorem finishTree_msgOff (c : DeserCtx) (s : State) : (finishTree c s).msgOff = BitVec.ofNat 32 c.ap := rfl
@[simp] theorem finishTree_bitLen (c : DeserCtx) (s : State) : (finishTree c s).bitLen = s.bitLen := rfl
@[simp] theorem finishTree_arg (c : DeserCtx) (s : State) : (finishTree c s).arg = s.arg := rfl
@[simp] theorem finishTree_cwLen (c : DeserCtx) (s : State) : (finishTree c s).cwLen = s.cwLen := rfl
@[simp] theorem finishTree_cwBits (c : DeserCtx) (s : State) : (finishTree c s).cwBits = s.cwBits := rfl
@[simp] theorem finishTree_alphaSize (c : DeserCtx) (s : State) : (finishTree c s).alphaSize = BitVec.ofNat 8 (leafIndex c.nodes).length := rfl
@[simp] theorem finishTree_nodeCnt (c : DeserCtx) (s : State) : (finishTree c s).nodeCnt = BitVec.ofNat 9 c.nodes.length := rfl
@[simp] theorem finishTree_root (c : DeserCtx) (s : State) : (finishTree c s).root = 0 := rfl
@[simp] theorem finishTree_arena (c : DeserCtx) (s : State) : (finishTree c s).arena = c.nodes := rfl
@[simp] theorem finishTree_aidx (c : DeserCtx) (s : State) : (finishTree c s).aidx = leafIndex c.nodes := rfl
@[simp] theorem finishTree_sym (c : DeserCtx) (s : State) : (finishTree c s).sym = s.sym := rfl
@[simp] theorem finishTree_art (c : DeserCtx) (s : State) : (finishTree c s).art = s.art := rfl
@[simp] theorem finishTree_work (c : DeserCtx) (s : State) : (finishTree c s).work = s.work := rfl
@[simp] theorem finishTree_input (c : DeserCtx) (s : State) : (finishTree c s).input = s.input := rfl
@[simp] theorem finishTree_hostRead (c : DeserCtx) (s : State) : (finishTree c s).hostRead = s.hostRead := rfl
@[simp] theorem finishTree_epoch (c : DeserCtx) (s : State) : (finishTree c s).epoch = s.epoch := rfl

/-! ### `openMessage` -/

@[simp] theorem openMessage_params (s : State) : (openMessage s).params = s.params := rfl
@[simp] theorem openMessage_treeValid (s : State) : (openMessage s).treeValid = s.treeValid := rfl
@[simp] theorem openMessage_faultSeen (s : State) : (openMessage s).faultSeen = s.faultSeen := rfl
@[simp] theorem openMessage_err (s : State) : (openMessage s).err = s.err := rfl
@[simp] theorem openMessage_errInfo (s : State) : (openMessage s).errInfo = s.errInfo := rfl
@[simp] theorem openMessage_symLen (s : State) : (openMessage s).symLen = s.symLen := rfl
@[simp] theorem openMessage_artLen (s : State) : (openMessage s).artLen = s.artLen := rfl
@[simp] theorem openMessage_msgOff (s : State) : (openMessage s).msgOff = s.msgOff := rfl
@[simp] theorem openMessage_bitLen (s : State) : (openMessage s).bitLen = s.bitLen := rfl
@[simp] theorem openMessage_arg (s : State) : (openMessage s).arg = s.arg := rfl
@[simp] theorem openMessage_cwLen (s : State) : (openMessage s).cwLen = s.cwLen := rfl
@[simp] theorem openMessage_cwBits (s : State) : (openMessage s).cwBits = s.cwBits := rfl
@[simp] theorem openMessage_alphaSize (s : State) : (openMessage s).alphaSize = s.alphaSize := rfl
@[simp] theorem openMessage_nodeCnt (s : State) : (openMessage s).nodeCnt = s.nodeCnt := rfl
@[simp] theorem openMessage_root (s : State) : (openMessage s).root = s.root := rfl
@[simp] theorem openMessage_arena (s : State) : (openMessage s).arena = s.arena := rfl
@[simp] theorem openMessage_aidx (s : State) : (openMessage s).aidx = s.aidx := rfl
@[simp] theorem openMessage_sym (s : State) : (openMessage s).sym = s.sym := rfl
@[simp] theorem openMessage_art (s : State) : (openMessage s).art = s.art := rfl
@[simp] theorem openMessage_work (s : State) : (openMessage s).work = .walk (walkStart s) := rfl
@[simp] theorem openMessage_input (s : State) : (openMessage s).input = s.input := rfl
@[simp] theorem openMessage_hostRead (s : State) : (openMessage s).hostRead = s.hostRead := rfl
@[simp] theorem openMessage_epoch (s : State) : (openMessage s).epoch = s.epoch := rfl

/-! ### `openTree` -/

@[simp] theorem openTree_params (s : State) : (openTree s).params = s.params := rfl
@[simp] theorem openTree_treeValid (s : State) : (openTree s).treeValid = s.treeValid := rfl
@[simp] theorem openTree_faultSeen (s : State) : (openTree s).faultSeen = s.faultSeen := rfl
@[simp] theorem openTree_err (s : State) : (openTree s).err = s.err := rfl
@[simp] theorem openTree_errInfo (s : State) : (openTree s).errInfo = s.errInfo := rfl
@[simp] theorem openTree_symLen (s : State) : (openTree s).symLen = s.symLen := rfl
@[simp] theorem openTree_artLen (s : State) : (openTree s).artLen = s.artLen := rfl
@[simp] theorem openTree_msgOff (s : State) : (openTree s).msgOff = s.msgOff := rfl
@[simp] theorem openTree_bitLen (s : State) : (openTree s).bitLen = s.bitLen := rfl
@[simp] theorem openTree_arg (s : State) : (openTree s).arg = s.arg := rfl
@[simp] theorem openTree_cwLen (s : State) : (openTree s).cwLen = s.cwLen := rfl
@[simp] theorem openTree_cwBits (s : State) : (openTree s).cwBits = s.cwBits := rfl
@[simp] theorem openTree_alphaSize (s : State) : (openTree s).alphaSize = s.alphaSize := rfl
@[simp] theorem openTree_nodeCnt (s : State) : (openTree s).nodeCnt = s.nodeCnt := rfl
@[simp] theorem openTree_root (s : State) : (openTree s).root = s.root := rfl
@[simp] theorem openTree_arena (s : State) : (openTree s).arena = s.arena := rfl
@[simp] theorem openTree_aidx (s : State) : (openTree s).aidx = s.aidx := rfl
@[simp] theorem openTree_sym (s : State) : (openTree s).sym = s.sym := rfl
@[simp] theorem openTree_art (s : State) : (openTree s).art = s.art := rfl
@[simp] theorem openTree_work (s : State) : (openTree s).work = .deser deserStart := rfl
@[simp] theorem openTree_input (s : State) : (openTree s).input = s.input := rfl
@[simp] theorem openTree_hostRead (s : State) : (openTree s).hostRead = s.hostRead := rfl
@[simp] theorem openTree_epoch (s : State) : (openTree s).epoch = s.epoch := rfl

@[simp] theorem writeByte_params (s : State) (b : Buffer) (i : Nat) (v : Byte) : (writeByte s b i v).params = s.params := by cases b <;> rfl
@[simp] theorem writeByte_treeValid (s : State) (b : Buffer) (i : Nat) (v : Byte) : (writeByte s b i v).treeValid = s.treeValid := by cases b <;> rfl
@[simp] theorem writeByte_faultSeen (s : State) (b : Buffer) (i : Nat) (v : Byte) : (writeByte s b i v).faultSeen = s.faultSeen := by cases b <;> rfl
@[simp] theorem writeByte_err (s : State) (b : Buffer) (i : Nat) (v : Byte) : (writeByte s b i v).err = s.err := by cases b <;> rfl
@[simp] theorem writeByte_errInfo (s : State) (b : Buffer) (i : Nat) (v : Byte) : (writeByte s b i v).errInfo = s.errInfo := by cases b <;> rfl
@[simp] theorem writeByte_symLen (s : State) (b : Buffer) (i : Nat) (v : Byte) : (writeByte s b i v).symLen = s.symLen := by cases b <;> rfl
@[simp] theorem writeByte_artLen (s : State) (b : Buffer) (i : Nat) (v : Byte) : (writeByte s b i v).artLen = s.artLen := by cases b <;> rfl
@[simp] theorem writeByte_msgOff (s : State) (b : Buffer) (i : Nat) (v : Byte) : (writeByte s b i v).msgOff = s.msgOff := by cases b <;> rfl
@[simp] theorem writeByte_bitLen (s : State) (b : Buffer) (i : Nat) (v : Byte) : (writeByte s b i v).bitLen = s.bitLen := by cases b <;> rfl
@[simp] theorem writeByte_arg (s : State) (b : Buffer) (i : Nat) (v : Byte) : (writeByte s b i v).arg = s.arg := by cases b <;> rfl
@[simp] theorem writeByte_cwLen (s : State) (b : Buffer) (i : Nat) (v : Byte) : (writeByte s b i v).cwLen = s.cwLen := by cases b <;> rfl
@[simp] theorem writeByte_cwBits (s : State) (b : Buffer) (i : Nat) (v : Byte) : (writeByte s b i v).cwBits = s.cwBits := by cases b <;> rfl
@[simp] theorem writeByte_alphaSize (s : State) (b : Buffer) (i : Nat) (v : Byte) : (writeByte s b i v).alphaSize = s.alphaSize := by cases b <;> rfl
@[simp] theorem writeByte_nodeCnt (s : State) (b : Buffer) (i : Nat) (v : Byte) : (writeByte s b i v).nodeCnt = s.nodeCnt := by cases b <;> rfl
@[simp] theorem writeByte_root (s : State) (b : Buffer) (i : Nat) (v : Byte) : (writeByte s b i v).root = s.root := by cases b <;> rfl
@[simp] theorem writeByte_arena (s : State) (b : Buffer) (i : Nat) (v : Byte) : (writeByte s b i v).arena = s.arena := by cases b <;> rfl
@[simp] theorem writeByte_aidx (s : State) (b : Buffer) (i : Nat) (v : Byte) : (writeByte s b i v).aidx = s.aidx := by cases b <;> rfl
@[simp] theorem writeByte_sym (s : State) (b : Buffer) (i : Nat) (v : Byte) : (writeByte s b i v).sym = (if b = .sym then Memory.poke s.sym i v else s.sym) := by cases b <;> rfl
@[simp] theorem writeByte_art (s : State) (b : Buffer) (i : Nat) (v : Byte) : (writeByte s b i v).art = (if b = .art then Memory.poke s.art i v else s.art) := by cases b <;> rfl
@[simp] theorem writeByte_work (s : State) (b : Buffer) (i : Nat) (v : Byte) : (writeByte s b i v).work = s.work := by cases b <;> rfl
@[simp] theorem writeByte_input (s : State) (b : Buffer) (i : Nat) (v : Byte) : (writeByte s b i v).input = s.input := by cases b <;> rfl
@[simp] theorem writeByte_hostRead (s : State) (b : Buffer) (i : Nat) (v : Byte) : (writeByte s b i v).hostRead = s.hostRead := by cases b <;> rfl
@[simp] theorem writeByte_epoch (s : State) (b : Buffer) (i : Nat) (v : Byte) : (writeByte s b i v).epoch = s.epoch := by cases b <;> rfl

end Sys2Proof.Machine
end

