-- ==== Sys2Proof/Laws/Memory.lean ====
section
/-! SUPPORT. The byte buffers: a read after a write, and the canonical form that every write keeps. -/

namespace Sys2Proof.Machine

/-- Reading a buffer after one write. -/
theorem Memory.peek_poke (m : Memory) (a : Nat) (v : Byte) (i : Nat) :
    Memory.peek (Memory.poke m a v) i = if i = a then some v else Memory.peek m i := by
  induction m with
  | nil => simp [Memory.poke, Memory.peek]
  | cons c m ih =>
    obtain ⟨b, w⟩ := c
    simp only [Memory.poke]
    split
    · simp only [Memory.peek]
    · split
      · next h => subst h; simp only [Memory.peek]; split <;> simp_all
      · simp only [Memory.peek, ih]; split <;> split <;> simp_all

/-- Reading a buffer after writes at rising indices. -/
theorem Memory.peek_pokeAll (vs : List Byte) (m : Memory) (off i : Nat) :
    Memory.peek (Memory.pokeAll m off vs) i =
      if off ≤ i ∧ i < off + vs.length then vs[i - off]? else Memory.peek m i := by
  induction vs generalizing m off with
  | nil =>
    have : ¬ (off ≤ i ∧ i < off + 0) := by omega
    simp [Memory.pokeAll]
  | cons v vs ih =>
    simp only [Memory.pokeAll, ih, Memory.peek_poke, List.length_cons]
    rcases Nat.lt_trichotomy i off with h | h | h
    · simp [show ¬ off + 1 ≤ i by omega, show ¬ off ≤ i by omega, show i ≠ off by omega]
    · subst h; simp
    · obtain ⟨d, rfl⟩ : ∃ d, i = off + (d + 1) := ⟨i - off - 1, by omega⟩
      simp [show off + (d + 1) - (off + 1) = d by omega, show off + (d + 1) - off = d + 1 by omega,
        show off + 1 ≤ off + (d + 1) by omega,
        show (off + (d + 1) < off + 1 + vs.length) ↔ (off + (d + 1) < off + (vs.length + 1)) by omega]

/-- A buffer is in canonical form when its indices rise strictly. -/
theorem Memory.wf_iff (m : Memory) : Memory.wf m = true ↔ (m.map Prod.fst).Pairwise (· < ·) := by
  simp [Memory.wf]

/-- Which indices a buffer lists after one write. -/
theorem Memory.mem_keys_poke (m : Memory) (a : Nat) (v : Byte) (i : Nat) :
    i ∈ (Memory.poke m a v).map Prod.fst ↔ i = a ∨ i ∈ m.map Prod.fst := by
  induction m with
  | nil => simp [Memory.poke]
  | cons c m ih =>
    obtain ⟨b, w⟩ := c
    simp only [Memory.poke]
    split
    · simp
    · split
      · next h => subst h; simp
      · simp only [List.map_cons, List.mem_cons, ih]; tauto

/-- One write keeps the canonical form. -/
theorem Memory.wf_poke (m : Memory) (a : Nat) (v : Byte) (h : Memory.wf m = true) :
    Memory.wf (Memory.poke m a v) = true := by
  rw [Memory.wf_iff] at *
  induction m with
  | nil => simp [Memory.poke]
  | cons c m ih =>
    obtain ⟨b, w⟩ := c
    simp only [List.map_cons, List.pairwise_cons] at h
    simp only [Memory.poke]
    split
    · next hab =>
      simp only [List.map_cons, List.pairwise_cons, List.mem_cons]
      exact ⟨fun x hx => hx.elim (· ▸ hab) fun hx => hab.trans (h.1 x hx), h⟩
    · split
      · next hab => subst hab; simpa using h
      · next h1 h2 =>
        simp only [List.map_cons, List.pairwise_cons]
        refine ⟨fun x hx => ?_, ih h.2⟩
        rcases (Memory.mem_keys_poke m a v x).1 hx with rfl | hx
        · omega
        · exact h.1 x hx

/-- Writes at rising indices keep the canonical form. -/
theorem Memory.wf_pokeAll (vs : List Byte) (m : Memory) (off : Nat) (h : Memory.wf m = true) :
    Memory.wf (Memory.pokeAll m off vs) = true := by
  induction vs generalizing m off with
  | nil => simpa [Memory.pokeAll] using h
  | cons v vs ih => exact ih _ _ (Memory.wf_poke m off v h)

/-- Two buffers in canonical form that read alike are equal. -/
theorem Memory.ext_of_wf (m n : Memory) (hm : Memory.wf m = true) (hn : Memory.wf n = true)
    (h : ∀ i, Memory.peek m i = Memory.peek n i) : m = n := by
  rw [Memory.wf_iff] at hm hn
  have low (m : Memory) (b : Nat) (hb : ∀ x ∈ m.map Prod.fst, b < x) : Memory.peek m b = none := by
    induction m with
    | nil => rfl
    | cons c m ih =>
      have h1 := hb c.1 (by simp)
      simp only [Memory.peek, show b ≠ c.1 by omega, if_false]
      exact ih fun x hx => hb x (by simp only [List.map_cons, List.mem_cons]; exact .inr hx)
  induction m generalizing n with
  | nil =>
    cases n with
    | nil => rfl
    | cons c n => have := h c.1; simp [Memory.peek] at this
  | cons c m ih =>
    cases n with
    | nil => have := h c.1; simp [Memory.peek] at this
    | cons d n =>
      obtain ⟨a, v⟩ := c
      obtain ⟨b, w⟩ := d
      simp only [List.map_cons, List.pairwise_cons] at hm hn
      have hab : a = b := by
        rcases Nat.lt_trichotomy a b with hlt | heq | hlt
        · have h1 := h a
          simp only [Memory.peek, if_true, show a ≠ b by omega, if_false] at h1
          rw [low n a fun x hx => hlt.trans (hn.1 x hx)] at h1
          simp at h1
        · exact heq
        · have h1 := h b
          simp only [Memory.peek, if_true, show b ≠ a by omega, if_false] at h1
          rw [low m b fun x hx => hlt.trans (hm.1 x hx)] at h1
          simp at h1
      subst hab
      have hvw : v = w := by have := h a; simpa [Memory.peek] using this
      subst hvw
      congr 1
      refine ih n hm.2 hn.2 fun i => ?_
      by_cases hi : i = a
      · subst hi; rw [low m i hm.1, low n i hn.1]
      · have := h i; simpa [Memory.peek, hi] using this


/-- A write below the capacity keeps a buffer well-formed. -/
theorem BufferOK.poke {m : Memory} {cap : Nat} (h : BufferOK m cap) {a : Nat} (ha : a < cap) (v : Byte) :
    BufferOK (Memory.poke m a v) cap := by
  refine ⟨Memory.wf_poke m a v h.1, fun c hc => ?_⟩
  rcases (Memory.mem_keys_poke m a v c.1).1 (List.mem_map_of_mem hc) with h1 | h1
  · omega
  · obtain ⟨d, hd, hdc⟩ := List.mem_map.1 h1
    exact hdc ▸ h.2 d hd

/-- Writes that end below the capacity keep a buffer well-formed. -/
theorem BufferOK.pokeAll {cap : Nat} (vs : List Byte) {m : Memory} (h : BufferOK m cap) {off : Nat}
    (ha : off + vs.length ≤ cap) : BufferOK (Memory.pokeAll m off vs) cap := by
  induction vs generalizing m off with
  | nil => simpa [Memory.pokeAll] using h
  | cons v vs ih =>
    simp only [List.length_cons] at ha
    exact ih (h.poke (by omega) v) (by omega)

/-- `MemRead` after `MemWrite` (R52): the byte written, and every other byte of either buffer as before. -/
theorem readByte_writeByte (s : State) (b c : Buffer) (i j : Nat) (v : Byte) :
    readByte (writeByte s b i v) c j = if c = b ∧ j = i then v else readByte s c j := by
  cases b <;> cases c <;> simp [readByte, writeByte, bufferOf, Memory.peek_poke] <;> split <;> simp_all

/-- What a byte reads as depends on the buffer's contents and the epoch alone. -/
theorem readByte_congr {s t : State} {b : Buffer} (h : bufferOf s b = bufferOf t b) (he : s.epoch = t.epoch) (i : Nat) :
    readByte s b i = readByte t b i := by
  simp [readByte, h, he]

end Sys2Proof.Machine
end

