-- ==== Sys2Proof/Laws/Operands.lean ====
section
/-! SUPPORT. The operand forms and the bit packing (R54, R77, R157). -/

namespace Sys2Proof.Machine

@[simp] theorem symbols_length (s : State) : (symbols s).length = s.symLen.toNat := by simp [symbols]

@[simp] theorem artifact_length (s : State) : (artifact s).length = s.artLen.toNat := by simp [artifact]

@[simp] theorem messageBits_length (s : State) : (messageBits s).length = s.bitLen.toNat := by simp [messageBits]

@[simp] theorem pack_length (bits : List Bool) : (pack bits).length = ceil8 bits.length := by simp [pack]

@[simp] theorem unpack_length (bytes : List Byte) (n : Nat) : (unpack bytes n).length = n := by simp [unpack]

/-- `SYM` after writes from index 0 on. -/
theorem symByte_pokeAll (s t : State) (vs : List Byte) (off : Nat) (h : t.sym = Memory.pokeAll s.sym off vs)
    (he : t.epoch = s.epoch) (i : Nat) :
    symByte t i = if h : off ≤ i ∧ i < off + vs.length then vs[i - off]'(by omega) else symByte s i := by
  simp only [symByte, readByte, bufferOf, h, he, Memory.peek_pokeAll]
  split
  · next hi => rw [List.getElem?_eq_getElem (by omega), Option.getD_some]
  · rfl

/-- `ART` after writes from an index on. -/
theorem artByte_pokeAll (s t : State) (vs : List Byte) (off : Nat) (h : t.art = Memory.pokeAll s.art off vs)
    (he : t.epoch = s.epoch) (i : Nat) :
    artByte t i = if h : off ≤ i ∧ i < off + vs.length then vs[i - off]'(by omega) else artByte s i := by
  simp only [artByte, readByte, bufferOf, h, he, Memory.peek_pokeAll]
  split
  · next hi => rw [List.getElem?_eq_getElem (by omega), Option.getD_some]
  · rfl

/-- The bits of the number whose bits are a list. -/
theorem testBit_bitsValue (bits : List Bool) (i : Nat) : (bitsValue bits).testBit i = bits.getD i false := by
  induction bits generalizing i with
  | nil => simp [bitsValue]
  | cons b bs ih =>
    cases i with
    | zero => cases b <;> simp [bitsValue, Nat.testBit_zero]
    | succ i =>
      have : (b.toNat + 2 * bitsValue bs) / 2 = bitsValue bs := by
        cases b <;> simp only [Bool.toNat_false, Bool.toNat_true] <;> omega
      rw [bitsValue, Nat.testBit_succ, this, ih]
      simp

/-- A list of bits is worth less than two to its length. -/
theorem bitsValue_lt (bits : List Bool) : bitsValue bits < 2 ^ bits.length := by
  induction bits with
  | nil => simp [bitsValue]
  | cons b bs ih =>
    simp only [bitsValue, List.length_cons, pow_succ]
    cases b <;> simp only [Bool.toNat_false, Bool.toNat_true] <;> omega

/-- Bit `b` of byte `j` of the packed message is bit `8j + b` of the sequence, and 0 past the end (R77). -/
theorem packByte_bit (bits : List Bool) (j b : Nat) (hb : b < 8) :
    (packByte bits j).getLsbD b = bits.getD (8 * j + b) false := by
  simp only [packByte, BitVec.getLsbD_ofNat, testBit_bitsValue, hb, decide_true, Bool.true_and, List.getD_eq_getElem?_getD,
    List.getElem?_take, if_true, List.getElem?_drop]

end Sys2Proof.Machine
end

