-- ==== Sys2Proof/Laws/Stages.lean ====
section
/-! SUPPORT. What each stage can do, said once: which tests it makes in which order, and the state it leaves. -/

namespace Sys2Proof.Machine

/-- The fault record as a number (R170). -/
theorem errInfoOf_eq (pos : Nat) (val : Byte) (h : pos < 2 ^ 32) :
    errInfoOf pos val = BitVec.ofNat 40 (val.toNat * 2 ^ 32 + pos) := by
  apply BitVec.eq_of_toNat_eq
  have := val.isLt
  simp only [errInfoOf, BitVec.toNat_append, BitVec.toNat_ofNat]
  rw [Nat.mod_eq_of_lt h, Nat.shiftLeft_eq, Nat.mul_comm, ← Nat.two_pow_add_eq_or_of_lt h]
  omega

/-- Fault entry, in the words of the statements (R170). -/
theorem raise_eq_faulted (k : ErrKind) (pos : Nat) (val : Byte) (s : State) (h : pos < 2 ^ 32) :
    raise k pos val s = faulted k pos val s := by simp [raise, faulted, errInfoOf_eq _ _ h]

/-- Fault entry in a TRAIN or TDES stage, in the words of the statements (R170). -/
theorem raiseInTree_eq_faultedInTree (k : ErrKind) (pos : Nat) (val : Byte) (s : State) (h : pos < 2 ^ 32) :
    raiseInTree k pos val s = faultedInTree k pos val s := by
  simp [raiseInTree, raise, dropTree, faultedInTree, errInfoOf_eq _ _ h]

/-- The first zero byte of the symbol buffer, if there is one (R91). -/
theorem firstMarker_cases (s : State) :
    ((symbols s).findIdx? (· == marker) = none ∧ ∀ i < s.symLen.toNat, symByte s i ≠ marker) ∨
    ∃ i < s.symLen.toNat, (symbols s).findIdx? (· == marker) = some i ∧ symByte s i = marker ∧
      ∀ j < i, symByte s j ≠ marker := by
  cases h : (symbols s).findIdx? (· == marker) with
  | none =>
    left
    refine ⟨rfl, fun i hi => ?_⟩
    rw [List.findIdx?_eq_none_iff] at h
    have := h (symByte s i) (List.mem_map.2 ⟨i, List.mem_range.2 hi, rfl⟩)
    simpa using this
  | some i =>
    right
    rw [List.findIdx?_eq_some_iff_getElem] at h
    obtain ⟨hi, h1, h2⟩ := h
    rw [symbols_length] at hi
    refine ⟨i, hi, rfl, by simpa [symbols] using h1, fun j hj => ?_⟩
    simpa [symbols] using h2 j hj

/-- What TRAIN can do (R103, R169). -/
theorem trainStage_cases (s : State) :
    (s.params.symCap < s.symLen.toNat ∧ trainStage s = .next (raiseInTree .badRange 0 0 s)) ∨
    (s.symLen.toNat ≤ s.params.symCap ∧ ∃ i < s.symLen.toNat, symByte s i = marker ∧
      (∀ j < i, symByte s j ≠ marker) ∧ trainStage s = .next (raiseInTree .ambiguousAlphabet i 0 s)) ∨
    (s.symLen.toNat ≤ s.params.symCap ∧ (∀ i < s.symLen.toNat, symByte s i ≠ marker) ∧
      trainStage s = .next (succeed (installTree (trainedArena (symbols s))
        (List.range (trainedAlphabet (symbols s)).length) ((trainedArena (symbols s)).length - 1) s))) := by
  unfold trainStage
  split
  · exact .inl ⟨‹_›, rfl⟩
  · rcases firstMarker_cases s with ⟨h, hall⟩ | ⟨i, hi, h, h0, hlt⟩
    · exact .inr (.inr ⟨by omega, hall, by simp [h]⟩)
    · exact .inr (.inl ⟨by omega, i, hi, h0, hlt, by simp [h]⟩)

/-- What CODEWORD can do (R113, R169). -/
theorem codewordStage_cases (s : State) :
    (s.treeValid = false ∧ codewordStage s = .next (raise .noTree 0 0 { s with cwLen := 0, cwBits := 0 })) ∨
    (s.treeValid = true ∧ lookup s s.arg = .unreadable ∧ codewordStage s = .fault .treeUnreadable) ∨
    (s.treeValid = true ∧ lookup s s.arg = .notFound ∧
      codewordStage s = .next (raise .symbolNotFound 0 s.arg { s with cwLen := 0, cwBits := 0 })) ∨
    (s.treeValid = true ∧ ∃ leaf, lookup s s.arg = .found leaf ∧
      ((codeOf s.arena leaf = none ∧ codewordStage s = .fault .treeUnreadable) ∨
       ∃ c, codeOf s.arena leaf = some c ∧ codewordStage s =
        .next (succeed { s with cwLen := BitVec.ofNat 8 c.length, cwBits := BitVec.ofNat 254 (bitsValue c) }))) := by
  unfold codewordStage
  cases htv : s.treeValid <;> simp only [if_true, reduceCtorEq, if_false]
  · exact .inl ⟨trivial, trivial⟩
  · cases hl : lookup s s.arg with
    | unreadable => simp
    | notFound => simp
    | found leaf => cases hc : codeOf s.arena leaf <;> simp [hc]

/-- What the validation pass of ENCODE can find (R115): nothing; or the first offending byte. -/
theorem scanSymbols_cases (s : State) (i : Nat) (vs : List Byte) :
    (scanSymbols s i vs = .clean ∧ ∀ v ∈ vs, v ≠ marker ∧ ∃ n, lookup s v = .found n) ∨
    (scanSymbols s i vs = .unreadable ∧ ∃ v ∈ vs, lookup s v = .unreadable) ∨
    (∃ j, ∃ hj : j < vs.length, (∀ k, ∀ hk : k < j, vs[k] ≠ marker ∧ ∃ n, lookup s vs[k] = .found n) ∧
      ((vs[j] = marker ∧ scanSymbols s i vs = .bad .ambiguousAlphabet (i + j) 0) ∨
       (vs[j] ≠ marker ∧ lookup s vs[j] = .notFound ∧ scanSymbols s i vs = .bad .symbolNotFound (i + j) vs[j]))) := by
  induction vs generalizing i with
  | nil => exact .inl ⟨rfl, by simp⟩
  | cons v vs ih =>
    by_cases hv : v = marker
    · exact .inr (.inr ⟨0, by simp, by simp, .inl ⟨hv, by simp [scanSymbols, hv]⟩⟩)
    · cases hl : lookup s v with
      | unreadable => exact .inr (.inl ⟨by simp [scanSymbols, hv, hl], v, by simp, hl⟩)
      | notFound =>
        exact .inr (.inr ⟨0, by simp, by simp, .inr ⟨hv, hl, by simp [scanSymbols, hv, hl]⟩⟩)
      | found n =>
        have hstep : scanSymbols s i (v :: vs) = scanSymbols s (i + 1) vs := by simp [scanSymbols, hv, hl]
        rw [hstep]
        rcases ih (i + 1) with ⟨h, hall⟩ | ⟨h, w, hw, hwl⟩ | ⟨j, hj, hpre, hcase⟩
        · refine .inl ⟨h, fun w hw => ?_⟩
          rcases List.mem_cons.1 hw with rfl | hw
          · exact ⟨hv, n, hl⟩
          · exact hall w hw
        · exact .inr (.inl ⟨h, w, List.mem_cons_of_mem _ hw, hwl⟩)
        · refine .inr (.inr ⟨j + 1, by simpa using hj, fun k hk => ?_, ?_⟩)
          · cases k with
            | zero => exact ⟨hv, n, hl⟩
            | succ k => exact hpre k (by omega)
          · simpa [Nat.add_assoc, Nat.add_comm 1 j] using hcase

/-- The codewords of a sequence exist when each symbol's does, and are their concatenation (R114). -/
theorem encodeBits_eq (s : State) (vs : List Byte) (h : ∀ v ∈ vs, ∃ c, symbolCode s v = some c) :
    encodeBits s vs = some (vs.flatMap (codeword s)) := by
  induction vs with
  | nil => rfl
  | cons v vs ih =>
    obtain ⟨c, hc⟩ := h v (by simp)
    have hr := ih fun w hw => h w (List.mem_cons_of_mem _ hw)
    simp [encodeBits, hc, hr, codeword]

/-- What ENCODE can do (R115, R169). -/
theorem encodeStage_cases (s : State) :
    (s.treeValid = false ∧ encodeStage s = .next (raise .noTree 0 0 s)) ∨
    (s.treeValid = true ∧ (s.params.symCap < s.symLen.toNat ∨ s.params.artCap < s.msgOff.toNat) ∧
      encodeStage s = .next (raise .badRange 0 0 s)) ∨
    (s.treeValid = true ∧ s.symLen.toNat ≤ s.params.symCap ∧ s.msgOff.toNat ≤ s.params.artCap ∧
      ((∃ k i v, scanSymbols s 0 (symbols s) = .bad k i v ∧ encodeStage s = .next (raise k i v s)) ∨
       encodeStage s = .fault .treeUnreadable ∨
       (scanSymbols s 0 (symbols s) = .clean ∧ ∃ bits, encodeBits s (symbols s) = some bits ∧
        ((s.params.artCap < s.msgOff.toNat + ceil8 bits.length ∧
            encodeStage s = .next (raise .capacityExceeded 0 0 s)) ∨
         (s.msgOff.toNat + ceil8 bits.length ≤ s.params.artCap ∧
            encodeStage s = .next (succeed (storeMessage bits s))))))) := by
  unfold encodeStage
  cases htv : s.treeValid <;> simp only [if_true, reduceCtorEq, if_false]
  · exact .inl ⟨trivial, trivial⟩
  · right
    split
    · exact .inl ⟨trivial, ‹_›, rfl⟩
    · next hr =>
      refine .inr ⟨trivial, by omega, by omega, ?_⟩
      cases hs : scanSymbols s 0 (symbols s) with
      | unreadable => simp
      | bad k i v => simp
      | clean =>
        cases hb : encodeBits s (symbols s) with
        | none => simp
        | some bits =>
          by_cases hc : s.params.artCap < s.msgOff.toNat + ceil8 bits.length
          · exact .inr (.inr ⟨rfl, bits, rfl, .inl ⟨hc, by simp [hc]⟩⟩)
          · exact .inr (.inr ⟨rfl, bits, rfl, .inr ⟨by omega, by simp [hc]⟩⟩)

/-- Which tests DECODE makes before its first bit, and in which order (R124, R169). -/
theorem decodeTests_cases (s : State) :
    (s.treeValid = false ∧ decodeTests s = some .noTree) ∨
    (s.treeValid = true ∧ (s.params.artCap < s.artLen.toNat ∨ s.artLen.toNat < s.msgOff.toNat ∨
      8 * (s.artLen.toNat - s.msgOff.toNat) < s.bitLen.toNat) ∧ decodeTests s = some .badRange) ∨
    (s.treeValid = true ∧ s.artLen.toNat ≤ s.params.artCap ∧ s.msgOff.toNat ≤ s.artLen.toNat ∧
      s.bitLen.toNat ≤ 8 * (s.artLen.toNat - s.msgOff.toNat) ∧ decodeTests s = none) := by
  unfold decodeTests
  cases htv : s.treeValid <;> simp only [if_true, reduceCtorEq, if_false]
  · exact .inl ⟨trivial, trivial⟩
  · right
    split
    · exact .inl ⟨trivial, ‹_›, rfl⟩
    · exact .inr ⟨trivial, by omega, by omega, by omega, rfl⟩

/-- What DECODE can do (R124, R169). -/
theorem decodeStage_cases (s : State) :
    (∃ k, decodeTests s = some k ∧ decodeStage s = .next (raise k 0 0 s)) ∨
    (decodeTests s = none ∧
      ((walkBits s.arena s.root.toNat (walkStart s) (messageBits s) = none ∧
          decodeStage s = .fault .treeUnreadable) ∨
       ∃ c, walkBits s.arena s.root.toNat (walkStart s) (messageBits s) = some c ∧
        ((s.params.symCap < c.out.length ∧ decodeStage s = .next (raise .capacityExceeded 0 0 s)) ∨
         (c.out.length ≤ s.params.symCap ∧ decodeStage s = .next (succeed
            { s with sym := Memory.pokeAll s.sym 0 c.out, symLen := BitVec.ofNat 32 c.out.length }))))) := by
  unfold decodeStage
  cases ht : decodeTests s with
  | some k => exact .inl ⟨k, rfl, rfl⟩
  | none =>
    right
    cases hw : walkBits s.arena s.root.toNat (walkStart s) (messageBits s) with
    | none => simp
    | some c =>
      refine ⟨rfl, .inr ⟨c, rfl, ?_⟩⟩
      by_cases hc : s.params.symCap < c.out.length
      · exact .inl ⟨hc, by simp [finishWalk, hc]⟩
      · exact .inr ⟨by omega, by simp [finishWalk, hc]⟩

/-- What TSER can do (R132, R169). -/
theorem tserStage_cases (s : State) :
    (s.treeValid = false ∧ tserStage s = .next (raise .noTree 0 0 s)) ∨
    (s.treeValid = true ∧ s.params.artCap < s.nodeCnt.toNat ∧ tserStage s = .next (raise .capacityExceeded 0 0 s)) ∨
    (s.treeValid = true ∧ s.nodeCnt.toNat ≤ s.params.artCap ∧
      ((treeBytes s = none ∧ tserStage s = .fault .treeUnreadable) ∨
       ∃ bytes, treeBytes s = some bytes ∧ tserStage s = .next (succeed (storeTree bytes s)))) := by
  unfold tserStage
  cases htv : s.treeValid <;> simp only [if_true, reduceCtorEq, if_false]
  · exact .inl ⟨trivial, trivial⟩
  · right
    split
    · exact .inl ⟨trivial, ‹_›, rfl⟩
    · refine .inr ⟨trivial, by omega, ?_⟩
      cases hb : treeBytes s with
      | none => simp
      | some bytes => exact .inr ⟨bytes, rfl, by simp⟩

/-- What TDES can do (R136, R169). -/
theorem tdesStage_cases (s : State) :
    (∃ k val, tdesTests s = some (k, val) ∧ tdesStage s = .next (raiseInTree k 0 val s)) ∨
    (tdesTests s = none ∧
      ((∃ pos val, deserialize s.artLen.toNat ((artifact s).drop 1) deserStart = .error (pos, val) ∧
          tdesStage s = .next (raiseInTree .malformedArtifact pos val s)) ∨
       ∃ c, deserialize s.artLen.toNat ((artifact s).drop 1) deserStart = .ok c ∧
          tdesStage s = .next (finishTree c s))) := by
  unfold tdesStage
  cases ht : tdesTests s with
  | some e => exact .inl ⟨e.1, e.2, rfl, rfl⟩
  | none =>
    right
    cases hd : deserialize s.artLen.toNat ((artifact s).drop 1) deserStart with
    | error e => exact ⟨rfl, .inl ⟨e.1, e.2, rfl, rfl⟩⟩
    | ok c => exact ⟨rfl, .inr ⟨c, rfl, rfl⟩⟩

/-- Which tests TDES makes before its loop, and in which order (R136, R137, R169). -/
theorem tdesTests_cases (s : State) :
    (s.params.artCap < s.artLen.toNat ∧ tdesTests s = some (.badRange, 0)) ∨
    (s.artLen.toNat ≤ s.params.artCap ∧ s.artLen = 0 ∧ tdesTests s = some (.malformedArtifact, 0)) ∨
    (s.artLen.toNat ≤ s.params.artCap ∧ s.artLen ≠ 0 ∧ artByte s 0 ≠ marker ∧
      tdesTests s = some (.malformedArtifact, artByte s 0)) ∨
    (s.artLen.toNat ≤ s.params.artCap ∧ s.artLen ≠ 0 ∧ artByte s 0 = marker ∧ tdesTests s = none) := by
  unfold tdesTests
  split
  · exact .inl ⟨‹_›, rfl⟩
  · split
    · exact .inr (.inl ⟨by omega, ‹_›, rfl⟩)
    · split
      · exact .inr (.inr (.inl ⟨by omega, ‹_›, ‹_›, rfl⟩))
      · next h1 h2 h3 => exact .inr (.inr (.inr ⟨by omega, h2, by simpa using h3, rfl⟩))

/-- The next stage runs after a stage without fault, and the composite ends at a stage that faults (R140). -/
theorem andThen_next {r : Result} {f : State → Result} {u : State} (h : andThen r f = .next u) :
    ∃ t, r = .next t ∧ ((t.err ≠ none ∧ u = t) ∨ (t.err = none ∧ f t = .next u)) := by
  cases r with
  | fault x => simp [andThen] at h
  | refused x => simp [andThen] at h
  | next t =>
    refine ⟨t, rfl, ?_⟩
    by_cases he : t.err = none
    · exact .inr ⟨he, by simpa [andThen, he] using h⟩
    · exact .inl ⟨he, by simpa [andThen, he] using h.symm⟩

/-- Taking bits while DECODE reads its message. -/
theorem takeBits_cases (bits : List Bool) (s : State) :
    (∃ c c', s.work = .walk c ∧ c.bi < s.bitLen.toNat ∧ walkBits s.arena s.root.toNat c bits = some c' ∧
      takeBits bits s = .next { s with work := .walk c' }) ∨
    (∃ c, s.work = .walk c ∧ c.bi < s.bitLen.toNat ∧ walkBits s.arena s.root.toNat c bits = none ∧
      takeBits bits s = .fault .treeUnreadable) ∨
    takeBits bits s = .refused .noOpenStream := by
  unfold takeBits
  cases hw : s.work with
  | idle => simp
  | deser c => simp
  | walk c =>
    by_cases hb : s.bitLen.toNat ≤ c.bi
    · simp [hb]
    · cases hwb : walkBits s.arena s.root.toNat c bits with
      | none => exact .inr (.inl ⟨c, rfl, by omega, hwb, by simp [hb, hwb]⟩)
      | some c' => exact .inl ⟨c, c', rfl, by omega, hwb, by simp [hb, hwb]⟩

/-- Taking a tree byte while TDES reads the tree. -/
theorem takeTreeWord_cases (b : Byte) (s : State) :
    (∃ c c', s.work = .deser c ∧ c.stk ≠ [] ∧ takeTreeByte c b = .ok c' ∧
      takeTreeWord b s = .next { s with work := .deser c' }) ∨
    (∃ c pos val, s.work = .deser c ∧ c.stk ≠ [] ∧ takeTreeByte c b = .error (pos, val) ∧
      takeTreeWord b s = .next (raiseInTree .malformedArtifact pos val { s with work := .idle })) ∨
    takeTreeWord b s = .refused .noOpenStream := by
  unfold takeTreeWord
  cases hw : s.work with
  | idle => simp
  | walk c => simp
  | deser c =>
    by_cases hs : c.stk = []
    · simp [hs]
    · cases ht : takeTreeByte c b with
      | error e => exact .inr (.inl ⟨c, e.1, e.2, rfl, hs, ht, by simp [hs, ht]⟩)
      | ok c' => exact .inl ⟨c, c', rfl, hs, ht, by simp [hs, ht]⟩

end Sys2Proof.Machine
end

