-- ==== Sys2Proof/Laws/Codec.lean ====
section
/-! SUPPORT. The deserializer: one step (R134), a whole subtree, and the tree it leaves (R135, R138); and the index sorted by
value (R30). -/

namespace Sys2Proof.Machine

variable {nodes : List Node}

/-! ### The bytes of a derivation -/

theorem ParseTree.values_eq (t : ParseTree) (h : marker ∉ t.values) : t.bytes.filter (· != marker) = t.values := by
  induction t with
  | leaf v =>
    have : v ≠ marker := fun hc => h (by simp [ParseTree.values, hc])
    simp [ParseTree.bytes, ParseTree.values, this]
  | node l r hl hr =>
    simp only [ParseTree.values, List.mem_append, not_or] at h
    simp [ParseTree.bytes, ParseTree.values, hl h.1, hr h.2]

theorem ParseTree.values_length_pos (t : ParseTree) : 0 < t.values.length := by
  induction t with
  | leaf v => simp [ParseTree.values]
  | node l r hl hr => simp [ParseTree.values]; omega

theorem ParseTree.markers (t : ParseTree) (h : marker ∉ t.values) :
    t.bytes.countP (· == marker) + 1 = t.values.length := by
  induction t with
  | leaf v =>
    have : v ≠ marker := fun hc => h (by simp [ParseTree.values, hc])
    simp [ParseTree.bytes, ParseTree.values, this]
  | node l r hl hr =>
    simp only [ParseTree.values, List.mem_append, not_or] at h
    have h1 := hl h.1
    have h2 := hr h.2
    simp only [ParseTree.bytes, ParseTree.values, List.countP_cons, List.countP_append, List.length_append, beq_self_eq_true,
      if_true]
    omega

/-- A derivation has one leaf byte more than markers. -/
theorem ParseTree.leaves (t : ParseTree) (h : marker ∉ t.values) : t.bytes.countP (· != marker) = t.values.length := by
  rw [List.countP_eq_length_filter, t.values_eq h]

/-- A proper beginning of a derivation has at most as many leaf bytes as markers. -/
theorem ParseTree.take_counts (t : ParseTree) (h : marker ∉ t.values) (j : Nat) (hj : j < t.bytes.length) :
    (t.bytes.take j).countP (· != marker) ≤ (t.bytes.take j).countP (· == marker) := by
  induction t generalizing j with
  | leaf v => simp only [ParseTree.bytes, List.length_singleton] at hj; simp [Nat.lt_one_iff.1 hj]
  | node a c ha hc =>
    simp only [ParseTree.values, List.mem_append, not_or] at h
    cases j with
    | zero => simp
    | succ j =>
      simp only [ParseTree.bytes, List.length_cons, List.length_append] at hj
      simp only [ParseTree.bytes, List.take_succ_cons, List.countP_cons, bne_self_eq_false, beq_self_eq_true, if_true,
        List.take_append, List.countP_append, Bool.false_eq_true, if_false]
      by_cases hja : j < a.bytes.length
      · have hz : j - a.bytes.length = 0 := by omega
        have := ha h.1 j hja
        simp only [hz, List.take_zero, List.countP_nil]; omega
      · have h3 := a.markers h.1
        have h5 := a.leaves h.1
        have := hc h.2 (j - a.bytes.length) (by omega)
        rw [List.take_of_length_le (l := a.bytes) (by omega)]
        omega

/-- Every byte sequence begins with a derivation of the grammar, or is incomplete: in each beginning of it there are at most
as many leaf bytes as markers (R73). -/
theorem parse_cases (bytes : List Byte) :
    (∃ (t : ParseTree) (rest : List Byte), bytes = t.bytes ++ rest ∧ marker ∉ t.values) ∨
    ∀ m ≤ bytes.length, (bytes.take m).countP (· != marker) ≤ (bytes.take m).countP (· == marker) := by
  induction hn : bytes.length using Nat.strong_induction_on generalizing bytes with
  | _ n ih =>
  subst hn
  cases bytes with
  | nil => exact .inr fun m _ => by simp
  | cons b bs =>
    by_cases hb : b = marker
    · subst hb
      rcases ih bs.length (by simp) bs rfl with ⟨l, rest, hbs, hl⟩ | hinc
      · have hlt : rest.length < (marker :: bs).length := by
          have := congrArg List.length hbs
          have := l.bytes_length_pos
          simp only [List.length_append] at *
          simp only [List.length_cons]; omega
        rcases ih rest.length hlt rest rfl with ⟨r, rest', hrest, hr⟩ | hinc
        · exact .inl ⟨.node l r, rest', by simp [ParseTree.bytes, hbs, hrest], by simp [ParseTree.values, hl, hr]⟩
        · refine .inr fun m hm => ?_
          cases m with
          | zero => simp
          | succ m =>
            simp only [List.take_succ_cons, List.countP_cons, bne_self_eq_false, beq_self_eq_true, if_true, hbs,
              List.take_append, List.countP_append, Bool.false_eq_true, if_false]
            have hx := hinc (m - l.bytes.length) (by
              have := congrArg List.length hbs
              simp only [List.length_append, List.length_cons] at *; omega)
            by_cases hml : m < l.bytes.length
            · have hz : m - l.bytes.length = 0 := by omega
              simp only [hz, List.take_zero, List.countP_nil]
              have := l.take_counts hl m hml
              omega
            · have h3 := l.markers hl
              have h5 := l.leaves hl
              rw [List.take_of_length_le (l := l.bytes) (by omega)]
              omega
      · refine .inr fun m hm => ?_
        cases m with
        | zero => simp
        | succ m =>
          have := hinc m (by simpa using hm)
          simp only [List.take_succ_cons, List.countP_cons, bne_self_eq_false, beq_self_eq_true, if_true,
            Bool.false_eq_true, if_false]
          omega
    · exact .inl ⟨.leaf b, bs, rfl, by simp [ParseTree.values, Ne.symm hb]⟩

/-! ### One tree byte (R134, R136) -/

/-- What a tree byte does while an entry of the stack lacks children: M4, M5, or one deserializer step. -/
theorem takeTreeByte_cases (c : DeserCtx) (b : Byte) :
    (b = marker ∧ c.nint = maxInt ∧ takeTreeByte c b = .error (c.ap, 0)) ∨
    (b ≠ marker ∧ b ∈ c.seen ∧ takeTreeByte c b = .error (c.ap, b)) ∨
    ((b = marker → c.nint ≠ maxInt) ∧ (b ≠ marker → b ∉ c.seen) ∧ takeTreeByte c b = .ok (deserStep c b)) := by
  unfold takeTreeByte
  split
  · next h => exact .inl ⟨h.1, h.2, rfl⟩
  · next h1 =>
    split
    · next h => exact .inr (.inl ⟨h.1, h.2, rfl⟩)
    · next h2 => exact .inr (.inr ⟨fun hb hn => h1 ⟨hb, hn⟩, fun hb hs => h2 ⟨hb, hs⟩, rfl⟩)

/-- A node's new child, on the side that lacks one (R134). -/
def linkChild (nodes : List Node) (top : StackEntry) : List Node :=
  if top.rem = 2 then setLeft nodes top.par nodes.length else setRight nodes top.par nodes.length

@[simp] theorem linkChild_length (nodes : List Node) (top : StackEntry) : (linkChild nodes top).length = nodes.length := by
  unfold linkChild; split <;> simp

theorem linkChild_other (nodes : List Node) (top : StackEntry) {n : Nat} (h : n ≠ top.par) :
    (linkChild nodes top)[n]? = nodes[n]? := by
  unfold linkChild setLeft setRight
  split <;> simp [Ne.symm h]

/-- One step with a marker byte. -/
theorem deserStep_marker {c : DeserCtx} {top : StackEntry} {rest : List StackEntry} (h : c.stk = top :: rest) :
    deserStep c marker =
      { nodes := linkChild c.nodes top ++ [newInternal none none 0 (some top.par)]
        stk := { par := c.nodes.length, rem := 2 } ::
          (if top.rem - 1 = 0 then rest else { par := top.par, rem := top.rem - 1 } :: rest)
        seen := c.seen
        nint := c.nint + 1
        ap := c.ap + 1 } := by
  simp [deserStep, h, linkChild]

/-- One step with a leaf byte. -/
theorem deserStep_leaf {c : DeserCtx} {top : StackEntry} {rest : List StackEntry} (h : c.stk = top :: rest) {b : Byte}
    (hb : b ≠ marker) :
    deserStep c b =
      { nodes := linkChild c.nodes top ++ [newLeaf b 0 (some top.par)]
        stk := if top.rem - 1 = 0 then rest else { par := top.par, rem := top.rem - 1 } :: rest
        seen := b :: c.seen
        nint := c.nint
        ap := c.ap + 1 } := by
  simp [deserStep, h, linkChild, hb]

/-! ### A whole subtree -/

/-- The entries of a derivation numbered in preorder from `n` on, under a parent, with frequency 0 (R134, R135). -/
def Placed (nodes : List Node) (par : Option Nat) : ParseTree → Nat → Prop
  | .leaf v, n => nodes[n]? = some (newLeaf v 0 par)
  | .node l r, n => nodes[n]? = some (newInternal (some (n + 1)) (some (n + 1 + l.bytes.length)) 0 par) ∧
      Placed nodes (some n) l (n + 1) ∧ Placed nodes (some n) r (n + 1 + l.bytes.length)

/-- It depends on the entries of its range only. -/
theorem Placed.congr {nodes' : List Node} {par : Option Nat} {t : ParseTree} {n : Nat} (h : Placed nodes par t n)
    (he : ∀ m, n ≤ m → m < n + t.bytes.length → nodes'[m]? = nodes[m]?) : Placed nodes' par t n := by
  induction t generalizing n par with
  | leaf v => rw [Placed, he n le_rfl (by simp [ParseTree.bytes])]; exact h
  | node l r hl hr =>
    simp only [ParseTree.bytes, List.length_cons, List.length_append] at he
    refine ⟨by rw [he n le_rfl (by omega)]; exact h.1, hl h.2.1 fun m h1 h2 => he m (by omega) (by omega),
      hr h.2.2 fun m h1 h2 => he m (by omega) (by omega)⟩

/-- The bytes taken one after another while the tree is incomplete. -/
def takeAll (c : DeserCtx) : List Byte → Except (Nat × Byte) DeserCtx
  | [] => .ok c
  | b :: bs =>
    match takeTreeByte c b with
    | .error e => .error e
    | .ok c' => takeAll c' bs

/-- What reading one subtree does to the deserializer: its nodes are appended and linked to the entry on top, which loses one
of the children it lacks. -/
structure Grown (c c' : DeserCtx) (top : StackEntry) (rest : List StackEntry) (t : ParseTree) : Prop where
  length : c'.nodes.length = c.nodes.length + t.bytes.length
  placed : Placed c'.nodes (some top.par) t c.nodes.length
  parent : c'.nodes[top.par]? = (linkChild c.nodes top)[top.par]?
  others : ∀ n < c.nodes.length, n ≠ top.par → c'.nodes[n]? = c.nodes[n]?
  stk : c'.stk = if top.rem - 1 = 0 then rest else { par := top.par, rem := top.rem - 1 } :: rest
  seen : ∀ v, v ∈ c'.seen ↔ v ∈ t.values ∨ v ∈ c.seen
  nint : c'.nint + 1 = c.nint + t.values.length
  ap : c'.ap = c.ap + t.bytes.length

/-- Reading the bytes of a subtree, if no value of it was met before or comes twice and the internal nodes do not exceed
their number (R134, R136). -/
theorem deser_subtree (t : ParseTree) (hm : marker ∉ t.values) (hnd : t.values.Nodup) (c : DeserCtx) (top : StackEntry)
    (rest : List StackEntry) (hstk : c.stk = top :: rest) (hpar : top.par < c.nodes.length)
    (hseen : ∀ v ∈ t.values, v ∉ c.seen) (hnint : c.nint + t.values.length ≤ maxInt + 1) (artLen : Nat)
    (more : List Byte) :
    ∃ c', deserialize artLen (t.bytes ++ more) c = deserialize artLen more c' ∧ Grown c c' top rest t := by
  induction t generalizing c top rest more with
  | leaf v =>
    have hv : v ≠ marker := fun hc => hm (by simp [ParseTree.values, hc])
    have hvs : v ∉ c.seen := hseen v (by simp [ParseTree.values])
    have hstep : takeTreeByte c v = .ok (deserStep c v) := by
      rcases takeTreeByte_cases c v with ⟨h, -⟩ | ⟨-, h, -⟩ | ⟨-, -, h⟩
      · exact absurd h hv
      · exact absurd h hvs
      · exact h
    refine ⟨deserStep c v, by simp [ParseTree.bytes, deserialize, hstk, hstep], ?_⟩
    rw [deserStep_leaf hstk hv]
    constructor
    · simp [ParseTree.bytes]
    · rw [Placed, getElem?_append_one, if_pos (by simp)]
    · simp only [getElem?_append_one, linkChild_length, if_neg (Nat.ne_of_lt hpar)]
    · intro n hn hne
      simp only [getElem?_append_one, linkChild_length, if_neg (Nat.ne_of_lt hn), linkChild_other _ _ hne]
    · rfl
    · intro u; simp [ParseTree.values]
    · simp [ParseTree.values]
    · simp [ParseTree.bytes]
  | node l r hl hr =>
    simp only [ParseTree.values, List.mem_append, not_or] at hm hseen
    simp only [ParseTree.values, List.length_append] at hnint
    have hnd' := List.nodup_append.1 hnd
    have hlp := l.values_length_pos
    have hrp := r.values_length_pos
    have hstep : takeTreeByte c marker = .ok (deserStep c marker) := by
      rcases takeTreeByte_cases c marker with ⟨-, h, -⟩ | ⟨h, -⟩ | ⟨-, -, h⟩
      · omega
      · exact absurd rfl h
      · exact h
    have e1 := deserStep_marker hstk
    -- the left subtree
    obtain ⟨c2, he2, g2⟩ := hl hm.1 hnd'.1 (deserStep c marker) { par := c.nodes.length, rem := 2 }
      (if top.rem - 1 = 0 then rest else { par := top.par, rem := top.rem - 1 } :: rest) (by rw [e1]) (by rw [e1]; simp)
      (fun v hv => by rw [e1]; exact hseen v (.inl hv)) (by rw [e1]; simp only; omega) (r.bytes ++ more)
    have hs2 : c2.stk = { par := c.nodes.length, rem := 1 } ::
        (if top.rem - 1 = 0 then rest else { par := top.par, rem := top.rem - 1 } :: rest) := by
      rw [g2.stk]; simp
    have hlen1 : (deserStep c marker).nodes.length = c.nodes.length + 1 := by rw [e1]; simp
    have hlen2 : c2.nodes.length = c.nodes.length + 1 + l.bytes.length := by rw [g2.length, hlen1]
    have hn2 := g2.nint
    rw [e1] at hn2
    simp only at hn2
    -- the right subtree
    obtain ⟨c3, he3, g3⟩ := hr hm.2 hnd'.2.1 c2 { par := c.nodes.length, rem := 1 } _ hs2 (by simp only; omega)
      (fun v hv hc => by
        rcases (g2.seen v).1 hc with h | h
        · exact hnd'.2.2 v h v hv rfl
        · rw [e1] at h; exact hseen v (.inr hv) h) (by omega) more
    refine ⟨c3, ?_, ?_⟩
    · simp only [ParseTree.bytes, List.cons_append, List.append_assoc, deserialize, hstk, hstep, reduceCtorEq, if_false]
      rw [he2, he3]
    · have hnode : c3.nodes[c.nodes.length]? =
          some (newInternal (some (c.nodes.length + 1)) (some (c.nodes.length + 1 + l.bytes.length)) 0 (some top.par)) := by
        have h3 := g3.parent
        have h2 := g2.parent
        simp only [linkChild, if_true, setLeft, setRight, List.getElem?_modify, hlen1] at h2
        simp only [linkChild, if_false, setLeft, setRight, List.getElem?_modify, hlen2, OfNat.one_ne_ofNat] at h3
        rw [h3, h2, e1]
        simp [newInternal]
      have hold : ∀ n < c.nodes.length, c3.nodes[n]? = (linkChild c.nodes top)[n]? := fun n hn => by
        rw [g3.others n (by omega) (Nat.ne_of_lt hn), g2.others n (by omega) (Nat.ne_of_lt hn), e1]
        simp only [getElem?_append_one, linkChild_length, if_neg (Nat.ne_of_lt hn)]
      constructor
      · rw [g3.length, hlen2]; simp [ParseTree.bytes]; omega
      · refine ⟨hnode, ?_, ?_⟩
        · have := g2.placed
          rw [hlen1] at this
          exact this.congr fun m h1 h2 => g3.others m (by omega) (by simp only; omega)
        · have := g3.placed
          rwa [hlen2] at this
      · exact hold _ hpar
      · intro n hn hne
        rw [hold n hn, linkChild_other _ _ hne]
      · rw [g3.stk]; simp
      · intro v
        rw [g3.seen, g2.seen, e1]
        simp only [ParseTree.values, List.mem_append]; tauto
      · have := g3.nint
        simp only [ParseTree.values, List.length_append]; omega
      · have h2 := g2.ap
        rw [e1] at h2
        rw [g3.ap, h2]; simp only [ParseTree.bytes, List.length_cons, List.length_append]; omega

/-! ### The tree a derivation leaves (R135, R138) -/

section

variable {par : Option Nat} {t : ParseTree} {n : Nat}

theorem Placed.shaped (h : Placed nodes par t n) : Shaped nodes t n := by
  induction t generalizing n par with
  | leaf v =>
    rw [Placed] at h
    simp [Shaped, kindAt, valueAt, h]
  | node l r hl hr =>
    obtain ⟨h0, h1, h2⟩ := h
    exact ⟨by simp [kindAt, h0], n + 1, n + 1 + l.bytes.length, by simp [leftAt, h0], by simp [rightAt, h0], hl h1, hr h2⟩

theorem Placed.parent (h : Placed nodes par t n) : parentAt nodes n = par := by
  cases t with
  | leaf v => rw [Placed] at h; simp [parentAt, h]
  | node l r => simp [parentAt, h.1]

theorem Placed.lt (h : Placed nodes par t n) : n + t.bytes.length ≤ nodes.length := by
  induction t generalizing n par with
  | leaf v =>
    rw [Placed] at h
    have := (List.getElem?_eq_some_iff.1 h).1
    simp [ParseTree.bytes]; omega
  | node l r hl hr =>
    have := hr h.2.2
    simp only [ParseTree.bytes, List.length_cons, List.length_append]; omega

/-- Which of a node's subtrees an index of its range lies in. -/
theorem range_cases {l r : ParseTree} {m : Nat} (h1 : n ≤ m) (h2 : m < n + (ParseTree.node l r).bytes.length) :
    m = n ∨ (n + 1 ≤ m ∧ m < n + 1 + l.bytes.length) ∨
      (n + 1 + l.bytes.length ≤ m ∧ m < n + 1 + l.bytes.length + r.bytes.length) := by
  simp only [ParseTree.bytes, List.length_cons, List.length_append] at h2; omega

/-- In a placed derivation the left child of an internal node is the next node (R134). -/
theorem Placed.left (h : Placed nodes par t n) {m : Nat} (h1 : n ≤ m) (h2 : m < n + t.bytes.length)
    (hk : kindAt nodes m = some .internal) : leftAt nodes m = some (m + 1) := by
  induction t generalizing n par with
  | leaf v =>
    obtain rfl : m = n := by simp only [ParseTree.bytes, List.length_singleton] at h2; omega
    rw [Placed] at h
    simp [kindAt, h] at hk
  | node l r hl hr =>
    obtain ⟨h0, hpl, hpr⟩ := h
    rcases range_cases h1 h2 with rfl | ⟨h3, h4⟩ | ⟨h3, h4⟩
    · simp [leftAt, h0]
    · exact hl hpl h3 h4
    · exact hr hpr h3 h4

/-- What one entry of a placed derivation is (R26, R28, R40). -/
structure EntryOK (nodes : List Node) (t : ParseTree) (n m : Nat) : Prop where
  byte : valueAt nodes m = t.bytes[m - n]?
  freq : freqAt nodes m = 0
  leafShape : kindAt nodes m = some .leaf → leftAt nodes m = none ∧ rightAt nodes m = none
  leafKind : marker ∉ t.values → (kindAt nodes m = some .leaf ↔ t.bytes[m - n]? ≠ some marker)
  internalShape : kindAt nodes m = some .internal → valueAt nodes m = some 0 ∧
    ∃ l r, n < l ∧ l < n + t.bytes.length ∧ n < r ∧ r < n + t.bytes.length ∧ leftAt nodes m = some l ∧
      rightAt nodes m = some r ∧ l ≠ r ∧ parentAt nodes l = some m ∧ parentAt nodes r = some m
  linked : m ≠ n → ∃ q, n ≤ q ∧ q < n + t.bytes.length ∧ parentAt nodes m = some q ∧ kindAt nodes q = some .internal ∧
    (leftAt nodes q = some m ↔ ¬ rightAt nodes q = some m)
  depth : ∃ d, d + 1 ≤ t.values.length ∧ ancestor nodes d m = some n

theorem ancestor_add {d e m p q : Nat} (h : ancestor nodes d m = some p) (h' : ancestor nodes e p = some q) :
    ancestor nodes (d + e) m = some q := by
  induction d generalizing m with
  | zero =>
    obtain rfl : m = p := by simpa [ancestor] using h
    simpa using h'
  | succ d ih =>
    cases hp : parentAt nodes m with
    | none => simp [ancestor, hp] at h
    | some x =>
      rw [ancestor_succ hp] at h
      rw [Nat.add_right_comm, ancestor_succ hp, ih h]

theorem Placed.entry (h : Placed nodes par t n) {m : Nat} (h1 : n ≤ m) (h2 : m < n + t.bytes.length) :
    EntryOK nodes t n m := by
  induction t generalizing n par with
  | leaf v =>
    obtain rfl : m = n := by simp only [ParseTree.bytes, List.length_singleton] at h2; omega
    rw [Placed] at h
    constructor
    · simp [valueAt, h, ParseTree.bytes]
    · simp [freqAt, h]
    · simp [leftAt, rightAt, h]
    · intro hv
      have : v ≠ marker := fun hc => hv (by simp [ParseTree.values, hc])
      simp [kindAt, h, ParseTree.bytes, this]
    · simp [kindAt, h]
    · exact fun hc => absurd rfl hc
    · exact ⟨0, by simp [ParseTree.values], rfl⟩
  | node l r hl hr =>
    obtain ⟨h0, hpl, hpr⟩ := h
    have hlp := l.bytes_length_pos
    have hrp := r.bytes_length_pos
    have hlv := l.values_length_pos
    have hrv := r.values_length_pos
    have hsz : (ParseTree.node l r).bytes.length = 1 + l.bytes.length + r.bytes.length := by
      simp [ParseTree.bytes]; omega
    have hleft : leftAt nodes n = some (n + 1) := by simp [leftAt, h0]
    have hright : rightAt nodes n = some (n + 1 + l.bytes.length) := by simp [rightAt, h0]
    have hkind : kindAt nodes n = some .internal := by simp [kindAt, h0]
    rcases range_cases h1 h2 with rfl | ⟨h3, h4⟩ | ⟨h3, h4⟩
    · constructor
      · simp [valueAt, h0, ParseTree.bytes, marker]
      · simp [freqAt, h0]
      · simp [hkind]
      · simp [hkind, ParseTree.bytes]
      · exact fun _ => ⟨by simp [valueAt, h0], _, _, by omega, by omega, by omega, by omega, hleft, hright, by omega,
          hpl.parent, hpr.parent⟩
      · exact fun hc => absurd rfl hc
      · exact ⟨0, by simp only [ParseTree.values, List.length_append]; omega, rfl⟩
    · have e := hl hpl h3 h4
      have hidx : (ParseTree.node l r).bytes[m - n]? = l.bytes[m - (n + 1)]? := by
        rw [show m - n = m - (n + 1) + 1 by omega]
        simp only [ParseTree.bytes, List.getElem?_cons_succ]
        rw [List.getElem?_append_left (by omega)]
      constructor
      · rw [hidx]; exact e.byte
      · exact e.freq
      · exact e.leafShape
      · intro hv
        rw [hidx]
        exact e.leafKind fun hc => hv (by simp [ParseTree.values, hc])
      · intro hk
        obtain ⟨hv, a, b, x1, x2, x3, x4, x5⟩ := e.internalShape hk
        exact ⟨hv, a, b, by omega, by omega, by omega, by omega, x5⟩
      · intro _
        by_cases hmn : m = n + 1
        · subst hmn
          exact ⟨n, le_rfl, by omega, hpl.parent, hkind, by
            rw [hleft, hright]
            constructor
            · intro _ hc
              have := Option.some.inj hc
              omega
            · exact fun _ => rfl⟩
        · obtain ⟨q, x1, x2, x3⟩ := e.linked hmn
          exact ⟨q, by omega, by omega, x3⟩
      · obtain ⟨d, hd, ha⟩ := e.depth
        refine ⟨d + 1, by simp only [ParseTree.values, List.length_append]; omega, ?_⟩
        exact ancestor_add ha (by rw [ancestor_succ hpl.parent]; rfl)
    · have e := hr hpr h3 h4
      have hidx : (ParseTree.node l r).bytes[m - n]? = r.bytes[m - (n + 1 + l.bytes.length)]? := by
        rw [show m - n = m - (n + 1 + l.bytes.length) + l.bytes.length + 1 by omega]
        simp only [ParseTree.bytes, List.getElem?_cons_succ]
        rw [List.getElem?_append_right (by omega)]
        congr 1; omega
      constructor
      · rw [hidx]; exact e.byte
      · exact e.freq
      · exact e.leafShape
      · intro hv
        rw [hidx]
        exact e.leafKind fun hc => hv (by simp [ParseTree.values, hc])
      · intro hk
        obtain ⟨hv, a, b, x1, x2, x3, x4, x5⟩ := e.internalShape hk
        exact ⟨hv, a, b, by omega, by omega, by omega, by omega, x5⟩
      · intro _
        by_cases hmn : m = n + 1 + l.bytes.length
        · subst hmn
          exact ⟨n, by omega, by omega, hpr.parent, hkind, by
            rw [hleft, hright]
            constructor
            · intro hc
              have := Option.some.inj hc
              omega
            · exact fun hc => absurd rfl hc⟩
        · obtain ⟨q, x1, x2, x3⟩ := e.linked hmn
          exact ⟨q, by omega, by omega, x3⟩
      · obtain ⟨d, hd, ha⟩ := e.depth
        refine ⟨d + 1, by simp only [ParseTree.values, List.length_append]; omega, ?_⟩
        exact ancestor_add ha (by rw [ancestor_succ hpr.parent]; rfl)

end

/-! ### The index (R30, R135) -/

theorem insertByValue_perm (n : Nat) (ms : List Nat) : (insertByValue nodes n ms).Perm (n :: ms) := by
  induction ms with
  | nil => exact .refl _
  | cons m ms ih =>
    unfold insertByValue
    split
    · exact .refl _
    · exact (ih.cons m).trans (.swap n m ms)

theorem insertByValue_sorted (n : Nat) (ms : List Nat)
    (h : ms.Pairwise fun i j => (valueAt nodes i).getD 0 ≤ (valueAt nodes j).getD 0) :
    (insertByValue nodes n ms).Pairwise fun i j => (valueAt nodes i).getD 0 ≤ (valueAt nodes j).getD 0 := by
  induction ms with
  | nil => simp [insertByValue]
  | cons m ms ih =>
    obtain ⟨h1, h2⟩ := List.pairwise_cons.1 h
    unfold insertByValue
    split
    · next hle =>
      refine List.pairwise_cons.2 ⟨fun j hj => ?_, h⟩
      rcases List.mem_cons.1 hj with rfl | hj
      · exact hle
      · exact BitVec.le_trans hle (h1 j hj)
    · next hgt =>
      refine List.pairwise_cons.2 ⟨fun j hj => ?_, ih h2⟩
      rcases List.mem_cons.1 ((insertByValue_perm n ms).mem_iff.1 hj) with rfl | hj
      · exact BitVec.le_of_lt (BitVec.not_le.1 hgt)
      · exact h1 j hj

/-- The index holds every leaf once, in ascending order of value. -/
theorem leafIndex_spec (nodes : List Node) :
    (leafIndex nodes).Perm ((List.range nodes.length).filter fun n => kindAt nodes n = some .leaf) ∧
    (leafIndex nodes).Pairwise fun i j => (valueAt nodes i).getD 0 ≤ (valueAt nodes j).getD 0 := by
  have : ∀ l : List Nat, (l.foldr (insertByValue nodes) []).Perm l ∧
      (l.foldr (insertByValue nodes) []).Pairwise fun i j => (valueAt nodes i).getD 0 ≤ (valueAt nodes j).getD 0 := by
    intro l
    induction l with
    | nil => exact ⟨.refl _, List.Pairwise.nil⟩
    | cons n l ih =>
      exact ⟨(insertByValue_perm n _).trans (ih.1.cons n), insertByValue_sorted n _ ih.2⟩
  exact this _

end Sys2Proof.Machine
end

