-- ==== Sys2Proof/Laws/Walk.lean ====
section
/-! SUPPORT. The decoder's walk (R121, R122): it is defined for every bit sequence (R126), and it emits a leaf's value at the
end of the path to the leaf. -/

namespace Sys2Proof.Machine

variable {nodes : List Node} {aidx : List Nat} {root k : Nat}

theorem walkBits_append (c : WalkCtx) (a b : List Bool) :
    walkBits nodes root c (a ++ b) = (walkBits nodes root c a).bind fun c' => walkBits nodes root c' b := by
  induction a generalizing c with
  | nil => simp [walkBits]
  | cons bit a ih => cases hw : walkBit nodes root c bit <;> simp [walkBits, hw, ih]

/-- What one bit can do from an internal node (R121, R122). -/
theorem walkBit_cases (h : TreeOK nodes aidx root k) (c : WalkCtx) (hc : kindAt nodes c.cur = some .internal) (bit : Bool) :
    ∃ n nd, childOf nodes c.cur bit = some n ∧ nodes[n]? = some nd ∧ parentAt nodes n = some c.cur ∧
      ((nd.kind = .leaf ∧ nd.value ≠ marker ∧
          walkBit nodes root c bit = some { cur := root, out := c.out ++ [nd.value], bi := c.bi + 1 }) ∨
       (nd.kind = .internal ∧ walkBit nodes root c bit = some { cur := n, out := c.out, bi := c.bi + 1 })) := by
  obtain ⟨n, hn, hcn, hp⟩ := h.childOf hc bit
  refine ⟨n, nodes[n], hcn, List.getElem?_eq_getElem hn, hp, ?_⟩
  cases hk : nodes[n].kind with
  | leaf =>
    refine .inl ⟨rfl, fun hv => h.leafValue n hn ?_ ?_, by simp [walkBit, hcn, List.getElem?_eq_getElem hn, hk]⟩
    · simp [kindAt, List.getElem?_eq_getElem hn, hk]
    · simp [valueAt, List.getElem?_eq_getElem hn, hv]
  | internal => exact .inr ⟨rfl, by simp [walkBit, hcn, List.getElem?_eq_getElem hn, hk]⟩

/-- The walk is defined for every bit sequence, from an internal node to an internal node (R126). -/
theorem walkBits_total (h : TreeOK nodes aidx root k) (bits : List Bool) (c : WalkCtx)
    (hc : kindAt nodes c.cur = some .internal) :
    ∃ c', walkBits nodes root c bits = some c' ∧ kindAt nodes c'.cur = some .internal ∧ c'.bi = c.bi + bits.length ∧
      ∃ more, c'.out = c.out ++ more ∧ more.length ≤ bits.length ∧ ∀ v ∈ more, InAlphabet nodes v ∧ v ≠ marker := by
  induction bits generalizing c with
  | nil => exact ⟨c, rfl, hc, rfl, [], by simp, by simp, by simp⟩
  | cons bit bits ih =>
    obtain ⟨n, nd, -, hnd, -, hcase⟩ := walkBit_cases h c hc bit
    have hn : n < nodes.length := (List.getElem?_eq_some_iff.1 hnd).1
    rcases hcase with ⟨hk, hv, hw⟩ | ⟨hk, hw⟩
    · obtain ⟨c', h1, h2, h3, more, h4, h5, h6⟩ :=
        ih { cur := root, out := c.out ++ [nd.value], bi := c.bi + 1 } h.rootInternal
      refine ⟨c', by simp [walkBits, hw, h1], h2, by simp only [h3, List.length_cons]; omega, nd.value :: more,
        by simp [h4], by simpa using h5, fun v hvm => ?_⟩
      rcases List.mem_cons.1 hvm with rfl | hvm
      · exact ⟨⟨n, hn, by simp [kindAt, hnd, hk], by simp [valueAt, hnd]⟩, hv⟩
      · exact h6 v hvm
    · obtain ⟨c', h1, h2, h3, more, h4, h5, h6⟩ := ih { cur := n, out := c.out, bi := c.bi + 1 } (by simp [kindAt, hnd, hk])
      exact ⟨c', by simp [walkBits, hw, h1], h2, by simp only [h3, List.length_cons]; omega, more, h4,
        by simp only [List.length_cons]; omega, h6⟩

/-- Along a path to an internal node nothing is emitted. -/
theorem walkBits_to_internal (h : TreeOK nodes aidx root k) {bits : List Bool} {c : WalkCtx} {m : Nat}
    (hf : follow nodes c.cur bits = some m) (hm : kindAt nodes m = some .internal) :
    walkBits nodes root c bits = some { cur := m, out := c.out, bi := c.bi + bits.length } := by
  induction bits generalizing c with
  | nil =>
    obtain rfl : c.cur = m := by simpa [follow] using hf
    rfl
  | cons bit bits ih =>
    cases hc : childOf nodes c.cur bit with
    | none => simp [follow, hc] at hf
    | some n =>
      simp only [follow, hc] at hf
      have hk : kindAt nodes n = some .internal := by
        cases bits with
        | nil => obtain rfl : n = m := by simpa [follow] using hf
                 exact hm
        | cons b' bs =>
          have hn : n < nodes.length := by
            by_contra hn
            have hnone := List.getElem?_eq_none (Nat.not_lt.1 hn)
            cases b' <;> simp [follow, childOf, leftAt, rightAt, hnone] at hf
          rcases kindAt_cases n hn with hk | hk
          · exact absurd (h.follow_leaf hk hf).1 (by simp)
          · exact hk
      obtain ⟨nd, hnd, hkind⟩ := kindAt_some hk
      have hw : walkBit nodes root c bit = some { cur := n, out := c.out, bi := c.bi + 1 } := by
        simp [walkBit, hc, hnd, hkind]
      simp only [walkBits, hw, ih (c := { cur := n, out := c.out, bi := c.bi + 1 }) hf, List.length_cons]
      congr 2; omega

/-- A path to a leaf emits its value once, at its end, and leaves the walk at the root (R122). -/
theorem walkBits_to_leaf (h : TreeOK nodes aidx root k) {bits : List Bool} {c : WalkCtx} {m : Nat} {v : Byte}
    (hc : kindAt nodes c.cur = some .internal) (hf : follow nodes c.cur bits = some m)
    (hm : kindAt nodes m = some .leaf) (hv : valueAt nodes m = some v) :
    walkBits nodes root c bits = some { cur := root, out := c.out ++ [v], bi := c.bi + bits.length } := by
  induction bits generalizing c with
  | nil =>
    obtain rfl : c.cur = m := by simpa [follow] using hf
    rw [hc] at hm; simp at hm
  | cons bit bits ih =>
    obtain ⟨n, nd, hcn, hnd, -, hcase⟩ := walkBit_cases h c hc bit
    simp only [follow, hcn] at hf
    rcases hcase with ⟨hk, -, hw⟩ | ⟨hk, hw⟩
    · obtain ⟨rfl, rfl⟩ := h.follow_leaf (by simp [kindAt, hnd, hk]) hf
      obtain rfl : nd.value = v := by simpa [valueAt, hnd] using hv
      simp [walkBits, hw]
    · simp only [walkBits, hw, ih (c := { cur := n, out := c.out, bi := c.bi + 1 }) (by simp [kindAt, hnd, hk]) hf,
        List.length_cons]
      congr 2; omega

end Sys2Proof.Machine
end

