-- ==== Sys2Proof/Laws/Encoder.lean ====
section
/-! SUPPORT. The lookup finds the one leaf of a value (R110), and what that gives for the code of a value (R111, R114). -/

namespace Sys2Proof.Machine

variable {nodes : List Node} {aidx : List Nat} {root k : Nat}

/-- The value of an index entry's leaf. -/
def indexValue (nodes : List Node) (aidx : List Nat) (j : Nat) : Byte := (aidx[j]?.bind (valueAt nodes)).getD 0

/-- What the search needs of its index: every entry names a node, and the values rise strictly. -/
structure IndexOK (nodes : List Node) (aidx : List Nat) : Prop where
  readable : ∀ n ∈ aidx, n < nodes.length
  sorted : (aidx.map fun n => (valueAt nodes n).getD 0).Pairwise (· < ·)

theorem TreeOK.indexOK (h : TreeOK nodes aidx root k) : IndexOK nodes aidx where
  readable := fun n hn => (h.indexLeaf n hn).1
  sorted := h.indexSorted

theorem valueAt_of_lt {n : Nat} (hn : n < nodes.length) : valueAt nodes n = some nodes[n].value := by
  simp [valueAt, List.getElem?_eq_getElem hn]

theorem IndexOK.lt (h : IndexOK nodes aidx) {i j : Nat} (hj : j < aidx.length) (hij : i < j) :
    (valueAt nodes aidx[i]).getD 0 < (valueAt nodes aidx[j]).getD 0 := by
  have := List.pairwise_iff_getElem.1 h.sorted i j (by simp; omega) (by simp; omega) hij
  simpa using this

/-- The search loop (R110): over `AIDX[lo .. hi)` it finds the entry of value `v` if there is one there, and nothing
otherwise. -/
theorem searchIndex_spec (h : IndexOK nodes aidx) (v : Byte) (fuel lo hi : Nat) (hhi : hi ≤ aidx.length)
    (hf : hi - lo ≤ fuel) :
    (∃ j, ∃ hj : j < aidx.length, lo ≤ j ∧ j < hi ∧ valueAt nodes aidx[j] = some v ∧
      searchIndex nodes aidx v fuel lo hi = .found aidx[j]) ∨
    ((∀ j, ∀ hj : j < aidx.length, lo ≤ j → j < hi → valueAt nodes aidx[j] ≠ some v) ∧
      searchIndex nodes aidx v fuel lo hi = .notFound) := by
  induction fuel generalizing lo hi with
  | zero => exact .inr ⟨fun j _ h1 h2 => by omega, rfl⟩
  | succ fuel ih =>
    by_cases hlt : lo < hi
    · have hm : (lo + hi) / 2 < aidx.length := by omega
      have hmn : aidx[(lo + hi) / 2] < nodes.length := h.readable _ (List.getElem_mem hm)
      have hmv := valueAt_of_lt hmn
      have ha : aidx[(lo + hi) / 2]? = some aidx[(lo + hi) / 2] := List.getElem?_eq_getElem hm
      by_cases heq : nodes[aidx[(lo + hi) / 2]].value = v
      · exact .inl ⟨_, hm, by omega, by omega, by rw [hmv, heq], by simp [searchIndex, hlt, ha, hmv, heq]⟩
      · by_cases hw : nodes[aidx[(lo + hi) / 2]].value < v
        · have hstep : searchIndex nodes aidx v (fuel + 1) lo hi
              = searchIndex nodes aidx v fuel ((lo + hi) / 2 + 1) hi := by simp [searchIndex, hlt, ha, hmv, heq, hw]
          rw [hstep]
          rcases ih ((lo + hi) / 2 + 1) hi hhi (by omega) with ⟨j, hj, h1, h2, h3, h4⟩ | ⟨hno, h4⟩
          · exact .inl ⟨j, hj, by omega, h2, h3, h4⟩
          · refine .inr ⟨fun j hj h1 h2 hjv => ?_, h4⟩
            by_cases hjm : (lo + hi) / 2 < j
            · exact hno j hj (by omega) h2 hjv
            · rcases Nat.lt_or_eq_of_le (Nat.not_lt.1 hjm) with hjm | rfl
              · have := h.lt hm hjm
                rw [hjv, hmv] at this
                exact absurd (BitVec.lt_trans this hw) (by simp)
              · rw [hmv] at hjv; exact heq (Option.some.inj hjv)
        · have hstep : searchIndex nodes aidx v (fuel + 1) lo hi
              = searchIndex nodes aidx v fuel lo ((lo + hi) / 2) := by simp [searchIndex, hlt, ha, hmv, heq, hw]
          rw [hstep]
          rcases ih lo ((lo + hi) / 2) (by omega) (by omega) with ⟨j, hj, h1, h2, h3, h4⟩ | ⟨hno, h4⟩
          · exact .inl ⟨j, hj, h1, by omega, h3, h4⟩
          · refine .inr ⟨fun j hj h1 h2 hjv => ?_, h4⟩
            by_cases hjm : j < (lo + hi) / 2
            · exact hno j hj h1 hjm hjv
            · rcases Nat.lt_or_eq_of_le (Nat.not_lt.1 hjm) with hjm | hjm
              · have := h.lt hj hjm
                rw [hjv, hmv] at this
                exact hw (by simpa using this)
              · subst hjm; rw [hmv] at hjv; exact heq (Option.some.inj hjv)
    · exact .inr ⟨fun j _ h1 h2 => by omega, by simp [searchIndex, hlt]⟩

/-- The lookup of a well-formed tree: the one leaf of the value, or nothing (R110). -/
theorem lookup_spec {s : State} (h : TreeReady s) (v : Byte) :
    (∃ n, lookup s v = .found n ∧ n < s.arena.length ∧ kindAt s.arena n = some .leaf ∧ valueAt s.arena n = some v) ∨
    (lookup s v = .notFound ∧ ¬ InAlphabet s.arena v) := by
  obtain ⟨-, -, ht⟩ := h
  have hlen : s.aidx.length = s.alphaSize.toNat := ht.indexSize
  rcases searchIndex_spec ht.indexOK v s.alphaSize.toNat 0 s.alphaSize.toNat hlen.ge (by omega) with
    ⟨j, hj, -, -, hv, hs⟩ | ⟨hno, hs⟩
  · obtain ⟨hn, hk⟩ := ht.indexLeaf _ (List.getElem_mem hj)
    exact .inl ⟨_, hs, hn, hk, hv⟩
  · refine .inr ⟨hs, fun ⟨n, hn, hk, hv⟩ => ?_⟩
    obtain ⟨j, hj, rfl⟩ := List.mem_iff_getElem.1 (ht.indexAll n hn hk)
    exact hno j hj (by omega) (by omega) hv

/-- A well-formed tree has one leaf of a value at most (R40). -/
theorem TreeOK.leaf_unique (h : TreeOK nodes aidx root k) {m n : Nat} {v : Byte} (hm : kindAt nodes m = some .leaf)
    (hn : kindAt nodes n = some .leaf) (hmv : valueAt nodes m = some v) (hnv : valueAt nodes n = some v) : m = n :=
  h.leafDistinct m (kindAt_lt hm) n (kindAt_lt hn) hm hn (hmv.trans hnv.symm)

/-- The codeword of a value of the alphabet: it exists, has at least one bit, and leads from the root to the value's leaf
(R111). -/
theorem codeword_spec {s : State} (h : TreeReady s) {v : Byte} (hv : InAlphabet s.arena v) :
    ∃ n, kindAt s.arena n = some .leaf ∧ valueAt s.arena n = some v ∧ lookup s v = .found n ∧
      codeOf s.arena n = some (codeword s v) ∧ symbolCode s v = some (codeword s v) ∧
      follow s.arena s.root.toNat (codeword s v) = some n ∧ 1 ≤ (codeword s v).length ∧ (codeword s v).length ≤ maxCw := by
  rcases lookup_spec h v with ⟨n, hl, hn, hk, hval⟩ | ⟨-, hno⟩
  · obtain ⟨c, hc, hle, -, hf⟩ := codeOf_spec h.2.2 hn
    have hsc : symbolCode s v = some c := by simp [symbolCode, hl, hc]
    obtain rfl : codeword s v = c := by simp [codeword, hsc]
    refine ⟨n, hk, hval, hl, hc, hsc, hf, ?_, hle⟩
    rcases hcw : codeword s v with _ | ⟨b, bs⟩
    · rw [hcw] at hf
      obtain rfl : s.root.toNat = n := by simpa [follow] using hf
      have := h.2.2.rootInternal
      rw [hk] at this; simp at this
    · simp
  · exact absurd hv hno

/-- Walking the codeword of a value from the root emits the value and returns to the root (R122). -/
theorem walkBits_codeword {s : State} (h : TreeReady s) {v : Byte} (hv : InAlphabet s.arena v) {c : WalkCtx}
    (hc : c.cur = s.root.toNat) :
    walkBits s.arena s.root.toNat c (codeword s v) =
      some { cur := s.root.toNat, out := c.out ++ [v], bi := c.bi + (codeword s v).length } := by
  obtain ⟨n, hk, hval, -, -, -, hf, -⟩ := codeword_spec h hv
  exact walkBits_to_leaf h.2.2 (hc ▸ h.2.2.rootInternal) (hc ▸ hf) hk hval

/-- After a validation pass without a finding the message's bits are the codewords of the sequence (R114, R115). -/
theorem encodeBits_of_clean {s : State} (h : TreeReady s) (hs : ∀ v ∈ symbols s, InAlphabet s.arena v) :
    encodeBits s (symbols s) = some ((symbols s).flatMap (codeword s)) :=
  encodeBits_eq s _ fun v hv => by
    obtain ⟨n, -, -, -, -, hsc, -⟩ := codeword_spec h (hs v hv)
    exact ⟨_, hsc⟩

end Sys2Proof.Machine
end

