-- ==== Sys2Proof/Laws/Constructor.lean ====
section
/-! SUPPORT. The tree constructor: the trained alphabet (R93), the priority queue (R95), one merge step and the forest the
merges keep (R98), and the arena TRAIN ends with (R99, R104). -/

namespace Sys2Proof.Machine

/-! ### The trained alphabet -/

theorem mem_symbolValues (v : Byte) : v ∈ symbolValues ↔ v ≠ marker := by
  have : ∀ v : Byte, v ∈ symbolValues ↔ v ≠ marker := by decide +kernel
  exact this v

theorem symbolValues_sorted : symbolValues.Pairwise (· < ·) := by decide +kernel

theorem symbolValues_length : symbolValues.length = 255 := by decide +kernel

theorem mem_occurring (syms : List Byte) (v : Byte) : v ∈ occurring syms ↔ v ≠ marker ∧ v ∈ syms := by
  simp [occurring, mem_symbolValues, histogram, List.count_pos_iff]

/-- An alphabet is a sorted choice of the values 1 to 255. -/
structure AlphabetOK (a : List Byte) : Prop where
  sorted : a.Pairwise (· < ·)
  legal : ∀ v ∈ a, v ≠ marker

theorem AlphabetOK.filter (p : Byte → Bool) : AlphabetOK (symbolValues.filter p) where
  sorted := symbolValues_sorted.filter p
  legal := fun v hv => (mem_symbolValues v).1 (List.mem_filter.1 hv).1

theorem AlphabetOK.nodup {a : List Byte} (h : AlphabetOK a) : a.Nodup :=
  h.sorted.imp fun hlt => BitVec.ne_of_lt hlt

theorem AlphabetOK.length_le {a : List Byte} (h : AlphabetOK a) : a.length ≤ 255 := by
  rw [← symbolValues_length]
  exact (List.subperm_of_subset h.nodup fun v hv => (mem_symbolValues v).2 (h.legal v hv)).length_le

theorem occurring_ok (syms : List Byte) : AlphabetOK (occurring syms) := AlphabetOK.filter _

/-- One turn of the filler rule (R93): nothing with two members, otherwise the smallest absent value is added. -/
theorem addFiller_cases {a : List Byte} (h : AlphabetOK a) :
    (2 ≤ a.length ∧ addFiller a = a) ∨
    (a.length < 2 ∧ ∃ f, f ≠ marker ∧ f ∉ a ∧ (∀ u, u ≠ marker → u < f → u ∈ a) ∧ AlphabetOK (addFiller a) ∧
      (addFiller a).length = a.length + 1 ∧ ∀ v, v ∈ addFiller a ↔ v = f ∨ v ∈ a) := by
  by_cases hlt : a.length < 2
  · right
    refine ⟨hlt, ?_⟩
    cases hf : symbolValues.find? (fun v => !a.contains v) with
    | none =>
      exfalso
      rw [List.find?_eq_none] at hf
      have hsub : symbolValues ⊆ a := fun v hv => by simpa using hf v hv
      have := (List.subperm_of_subset (symbolValues_sorted.imp fun hlt => BitVec.ne_of_lt hlt) hsub).length_le
      rw [symbolValues_length] at this
      omega
    | some f =>
      rw [List.find?_eq_some_iff_append] at hf
      obtain ⟨hfa, as, bs, hs, has⟩ := hf
      have hmem : f ∈ symbolValues := by rw [hs]; simp
      have hfn : f ∉ a := by simpa using hfa
      have hfind : symbolValues.find? (fun v => !a.contains v) = some f := by
        rw [List.find?_eq_some_iff_append]; exact ⟨hfa, as, bs, hs, has⟩
      have hadd : addFiller a = symbolValues.filter fun v => v == f || a.contains v := by
        simp only [addFiller, hlt, if_true, hfind]
      have hmemadd : ∀ v, v ∈ addFiller a ↔ v = f ∨ v ∈ a := fun v => by
        rw [hadd, List.mem_filter, mem_symbolValues]
        constructor
        · rintro ⟨-, hv⟩; simpa using hv
        · rintro (rfl | hv)
          · exact ⟨(mem_symbolValues v).1 hmem, by simp⟩
          · exact ⟨h.legal v hv, by simp [hv]⟩
      refine ⟨f, (mem_symbolValues f).1 hmem, hfn, fun u hu huf => ?_, hadd ▸ AlphabetOK.filter _, ?_, hmemadd⟩
      · have hu' := (mem_symbolValues u).2 hu
        rw [hs] at hu'
        rcases List.mem_append.1 hu' with hu' | hu'
        · simpa using has u hu'
        · exfalso
          rcases List.mem_cons.1 hu' with rfl | hu'
          · exact absurd huf (by simp)
          · have hsort := symbolValues_sorted
            rw [hs, List.pairwise_append] at hsort
            have := (List.pairwise_cons.1 hsort.2.1).1 u hu'
            exact absurd (BitVec.lt_trans huf this) (by simp)
      · have hperm : (addFiller a).Perm (f :: a) :=
          (List.perm_ext_iff_of_nodup (hadd ▸ AlphabetOK.filter _ : AlphabetOK (addFiller a)).nodup
            (List.nodup_cons.2 ⟨hfn, h.nodup⟩)).2 fun v => by rw [hmemadd]; simp
        rw [hperm.length_eq, List.length_cons]
  · exact .inl ⟨by omega, by simp [addFiller, hlt]⟩

theorem addFiller_ok {a : List Byte} (h : AlphabetOK a) : AlphabetOK (addFiller a) := by
  rcases addFiller_cases h with ⟨-, he⟩ | ⟨-, f, -, -, -, hok, -⟩
  · rwa [he]
  · exact hok

/-- The trained alphabet is a sorted choice of 2 to 255 legal values, and every value that occurs is in it (R93). -/
theorem trainedAlphabet_spec (syms : List Byte) : AlphabetOK (trainedAlphabet syms) ∧
    2 ≤ (trainedAlphabet syms).length ∧ (trainedAlphabet syms).length ≤ 255 ∧
    (∀ v ∈ syms, v ≠ marker → v ∈ trainedAlphabet syms) ∧
    (2 ≤ (occurring syms).length → trainedAlphabet syms = occurring syms) := by
  have h0 := occurring_ok syms
  have h1 := addFiller_ok h0
  have h2 := addFiller_ok h1
  refine ⟨h2, ?_, h2.length_le, fun v hv hm => ?_, fun hlen => ?_⟩
  · unfold trainedAlphabet
    rcases addFiller_cases h0 with ⟨hl, he⟩ | ⟨-, f, -, -, -, -, hl, -⟩
    · rw [he, he]; exact hl
    · rcases addFiller_cases h1 with ⟨hl', he⟩ | ⟨-, f', -, -, -, -, hl', -⟩
      · rw [he]; exact hl'
      · omega
  · have step {a : List Byte} (ha : AlphabetOK a) (hva : v ∈ a) : v ∈ addFiller a := by
      rcases addFiller_cases ha with ⟨-, he⟩ | ⟨-, f, -, -, -, -, -, hmem⟩
      · rwa [he]
      · exact (hmem v).2 (.inr hva)
    exact step h1 (step h0 ((mem_occurring syms v).2 ⟨hm, hv⟩))
  · have he : addFiller (occurring syms) = occurring syms := by
      unfold addFiller; rw [if_neg (by omega)]
    rw [trainedAlphabet, he, he]

/-- The trained alphabet and the leaves' counts depend on the multiset of the input alone (R100). -/
theorem trainedAlphabet_perm {syms syms' : List Byte} (h : syms.Perm syms') :
    trainedAlphabet syms = trainedAlphabet syms' ∧ ∀ v, histogram syms v = histogram syms' v := by
  have hh : ∀ v, histogram syms v = histogram syms' v := fun v => h.count_eq v
  refine ⟨?_, hh⟩
  have : occurring syms = occurring syms' := by simp only [occurring, hh]
  rw [trainedAlphabet, trainedAlphabet, this]

/-! ### The priority queue (R95) -/

/-- The key of `a` is less than the key of `b`, as a proposition. -/
theorem keyLess_iff (nodes : List Node) (a b : Nat) : keyLess nodes a b = true ↔
    freqAt nodes a < freqAt nodes b ∨ (freqAt nodes a = freqAt nodes b ∧ a < b) := by simp [keyLess]

/-- `PQ_ExtractMin` chooses the member with the least key. -/
theorem leastKey_spec (nodes : List Node) (live : List Nat) (h : live ≠ []) :
    ∃ n ∈ live, leastKey nodes live = some n ∧ ∀ m ∈ live, m ≠ n → keyLess nodes n m = true := by
  induction live with
  | nil => exact absurd rfl h
  | cons x xs ih =>
    by_cases hx : xs = []
    · subst hx; exact ⟨x, by simp, by simp [leastKey], fun m hm hne => absurd (by simpa using hm) hne⟩
    · obtain ⟨n, hn, hl, hmin⟩ := ih hx
      by_cases hk : keyLess nodes n x = true
      · refine ⟨n, List.mem_cons_of_mem _ hn, by simp [leastKey, hl, hk], fun m hm hne => ?_⟩
        rcases List.mem_cons.1 hm with rfl | hm
        · exact hk
        · exact hmin m hm hne
      · refine ⟨x, by simp, by simp [leastKey, hl, hk], fun m hm hne => ?_⟩
        rcases List.mem_cons.1 hm with rfl | hm
        · exact absurd rfl hne
        · rw [keyLess_iff] at hk ⊢
          by_cases hmn : m = n
          · subst hmn; omega
          · have := (keyLess_iff nodes n m).1 (hmin m hm hmn)
            omega

theorem extractMin_spec (nodes : List Node) (live : List Nat) (h : live ≠ []) :
    ∃ n ∈ live, extractMin nodes live = some (n, live.erase n) ∧ ∀ m ∈ live, m ≠ n → keyLess nodes n m = true := by
  obtain ⟨n, hn, hl, hmin⟩ := leastKey_spec nodes live h
  exact ⟨n, hn, by simp [extractMin, hl], hmin⟩

/-- One merge step (R98): the two live nodes with the least keys get a new parent, which becomes live in their place. -/
theorem mergeStep_spec (t : Builder) (hnd : t.live.Nodup) (hlen : 1 < t.live.length) :
    ∃ a b, a ∈ t.live ∧ b ∈ t.live ∧ a ≠ b ∧ keyLess t.nodes a b = true ∧
      (∀ m ∈ t.live, m ≠ a → m ≠ b → keyLess t.nodes b m = true) ∧
      mergeStep t =
        { nodes := setParent (setParent t.nodes a t.nodes.length) b t.nodes.length
            ++ [newInternal (some a) (some b) (freqAt t.nodes a + freqAt t.nodes b) none]
          live := (t.live.erase a).erase b ++ [t.nodes.length] } := by
  obtain ⟨a, ha, hea, hmina⟩ := extractMin_spec t.nodes t.live (by rintro h; simp [h] at hlen)
  have hlen' : (t.live.erase a).length = t.live.length - 1 := List.length_erase_of_mem ha
  obtain ⟨b, hb, heb, hminb⟩ := extractMin_spec t.nodes (t.live.erase a)
    (by rintro h; rw [h] at hlen'; simp at hlen'; omega)
  have hb' := (hnd.mem_erase_iff).1 hb
  refine ⟨a, b, ha, hb'.2, hb'.1.symm, hmina b hb'.2 hb'.1, fun m hm h1 h2 => ?_, by simp [mergeStep, hea, heb]⟩
  exact hminb m ((hnd.mem_erase_iff).2 ⟨h1, hm⟩) h2

end Sys2Proof.Machine
end

