-- ==== Sys2Proof/Laws/Forest.lean ====
section
/-! SUPPORT. The forest that the merges of R98 keep, and the tree they end with (R99, R104). -/

namespace Sys2Proof.Machine

/-! ### One merge, field by field -/

/-- The arena after the nodes `a` and `b` were merged. -/
def mergedNodes (nodes : List Node) (a b : Nat) : List Node :=
  setParent (setParent nodes a nodes.length) b nodes.length
    ++ [newInternal (some a) (some b) (freqAt nodes a + freqAt nodes b) none]

section

variable (nodes : List Node) (a b n : Nat)

@[simp] theorem mergedNodes_length : (mergedNodes nodes a b).length = nodes.length + 1 := by simp [mergedNodes]

theorem kindAt_merged : kindAt (mergedNodes nodes a b) n = if n = nodes.length then some .internal else kindAt nodes n := by
  simp [mergedNodes, kindAt_append_one]

theorem valueAt_merged : valueAt (mergedNodes nodes a b) n = if n = nodes.length then some 0 else valueAt nodes n := by
  simp [mergedNodes, valueAt_append_one]

theorem freqAt_merged : freqAt (mergedNodes nodes a b) n =
    if n = nodes.length then freqAt nodes a + freqAt nodes b else freqAt nodes n := by
  simp [mergedNodes, freqAt_append_one]

theorem leftAt_merged : leftAt (mergedNodes nodes a b) n = if n = nodes.length then some a else leftAt nodes n := by
  simp [mergedNodes, leftAt_append_one]

theorem rightAt_merged : rightAt (mergedNodes nodes a b) n = if n = nodes.length then some b else rightAt nodes n := by
  simp [mergedNodes, rightAt_append_one]

theorem parentAt_merged (ha : a < nodes.length) (hb : b < nodes.length) : parentAt (mergedNodes nodes a b) n =
    if n = nodes.length then none else if n = a ∨ n = b then some nodes.length else parentAt nodes n := by
  simp only [mergedNodes, parentAt_append_one, setParent_length, newInternal_parent]
  split
  · rfl
  · rw [parentAt_setParent _ _ _ _ (by simpa using hb), parentAt_setParent _ _ _ _ ha]
    by_cases h1 : n = a <;> by_cases h2 : n = b <;> simp [h1, h2]

end

/-! ### The forest -/

/-- What holds of the tree under construction between two merges (R94 to R98): leaves `0 .. k-1` for the alphabet `a` with
their counts, then the internal nodes in the order they were made; the live nodes are the roots. -/
structure Forest (syms a : List Byte) (t : Builder) : Prop where
  nodup : t.live.Nodup
  liveLt : ∀ n ∈ t.live, n < t.nodes.length
  liveRoot : ∀ n ∈ t.live, parentAt t.nodes n = none
  nonempty : t.live ≠ []
  count : t.nodes.length + t.live.length = 2 * a.length
  atLeast : a.length ≤ t.nodes.length
  leaf : ∀ j, (hj : j < a.length) → kindAt t.nodes j = some .leaf ∧ valueAt t.nodes j = some a[j] ∧
    freqAt t.nodes j = histogram syms a[j] ∧ leftAt t.nodes j = none ∧ rightAt t.nodes j = none
  internal : ∀ n, a.length ≤ n → n < t.nodes.length → kindAt t.nodes n = some .internal ∧ valueAt t.nodes n = some 0 ∧
    ∃ l r, leftAt t.nodes n = some l ∧ rightAt t.nodes n = some r ∧ l < n ∧ r < n ∧ l ≠ r ∧
      parentAt t.nodes l = some n ∧ parentAt t.nodes r = some n ∧
      freqAt t.nodes n = freqAt t.nodes l + freqAt t.nodes r ∧ keyLess t.nodes l r = true ∧
      ∀ m < n, m ≠ l → m ≠ r → (∀ n' < n, leftAt t.nodes n' ≠ some m ∧ rightAt t.nodes n' ≠ some m) →
        keyLess t.nodes r m = true
  dead : ∀ n < t.nodes.length, n ∉ t.live → ∃ p, n < p ∧ p < t.nodes.length ∧ a.length ≤ p ∧
    parentAt t.nodes n = some p ∧ (leftAt t.nodes p = some n ∨ rightAt t.nodes p = some n)
  total : (t.live.map (freqAt t.nodes)).sum = (a.map (histogram syms)).sum

theorem keyLess_congr {nodes nodes' : List Node} {x y : Nat} (hx : freqAt nodes' x = freqAt nodes x)
    (hy : freqAt nodes' y = freqAt nodes y) : keyLess nodes' x y = keyLess nodes x y := by simp [keyLess, hx, hy]

/-- Before the first merge. -/
theorem forest_initial (syms : List Byte) (hk : 1 ≤ (trainedAlphabet syms).length) :
    Forest syms (trainedAlphabet syms) (initialBuilder syms) := by
  have hlen : (leaves syms).length = (trainedAlphabet syms).length := by simp [leaves]
  have hget : ∀ j, (hj : j < (trainedAlphabet syms).length) → (leaves syms)[j]? =
      some (newLeaf (trainedAlphabet syms)[j] (histogram syms (trainedAlphabet syms)[j]) none) := fun j hj => by
    simp [leaves, List.getElem?_eq_getElem hj]
  constructor
  · exact List.nodup_range
  · intro n hn; simpa [initialBuilder] using hn
  · intro n hn
    have hn' : n < (leaves syms).length := by simpa [initialBuilder] using hn
    simp [initialBuilder, parentAt, hget n (hlen ▸ hn')]
  · simp only [initialBuilder, ne_eq, List.range_eq_nil]; omega
  · simp only [initialBuilder, List.length_range]; omega
  · exact hlen.ge
  · intro j hj
    simp [initialBuilder, kindAt, valueAt, freqAt, leftAt, rightAt, hget j hj]
  · intro n h1 h2
    have : n < (leaves syms).length := h2
    omega
  · intro n hn hnl
    exact absurd (List.mem_range.2 hn) hnl
  · simp only [initialBuilder]
    congr 1
    refine List.ext_getElem (by simp [hlen]) fun j h1 h2 => ?_
    have hj : j < (trainedAlphabet syms).length := by simpa using h2
    simp [freqAt, hget j hj]

/-- The parent of a node is the one node that has it as a child. -/
theorem Forest.parent_of_child {syms a : List Byte} {t : Builder} (h : Forest syms a t) {n m : Nat} (hn : n < t.nodes.length)
    (hc : leftAt t.nodes n = some m ∨ rightAt t.nodes n = some m) : parentAt t.nodes m = some n := by
  by_cases hna : n < a.length
  · obtain ⟨-, -, -, hl, hr⟩ := h.leaf n hna
    simp [hl, hr] at hc
  · obtain ⟨-, -, l, r, hl, hr, -, -, -, hpl, hpr, -⟩ := h.internal n (by omega) hn
    rcases hc with hc | hc
    · rw [hl] at hc; rwa [← Option.some.inj hc]
    · rw [hr] at hc; rwa [← Option.some.inj hc]

/-- The children of an internal node were live when it was made (R98). -/
theorem Forest.live_of_child {syms a : List Byte} {t : Builder} (h : Forest syms a t) {n m : Nat} (hn : n < t.nodes.length)
    (hmn : m < n) (hc : leftAt t.nodes n = some m ∨ rightAt t.nodes n = some m) : LiveBefore t.nodes n m := by
  have hp := h.parent_of_child hn hc
  refine ⟨hmn, fun n' hn' => ?_⟩
  have no : ¬ (leftAt t.nodes n' = some m ∨ rightAt t.nodes n' = some m) := fun hc' => by
    have := Option.some.inj (hp.symm.trans (h.parent_of_child (by omega) hc'))
    omega
  exact not_or.1 no

/-- Every merge keeps the forest. -/
theorem Forest.merge {syms a : List Byte} {t : Builder} (h : Forest syms a t) (hlen : 1 < t.live.length) :
    Forest syms a (mergeStep t) ∧ (mergeStep t).live.length + 1 = t.live.length := by
  obtain ⟨x, y, hx, hy, hxy, hkxy, hmin, he⟩ := mergeStep_spec t h.nodup hlen
  have hxl := h.liveLt x hx
  have hyl := h.liveLt y hy
  have hnodes : (mergeStep t).nodes = mergedNodes t.nodes x y := by rw [he]; rfl
  have hlive : (mergeStep t).live = (t.live.erase x).erase y ++ [t.nodes.length] := by rw [he]
  have hex : (t.live.erase x).length = t.live.length - 1 := List.length_erase_of_mem hx
  have hyx : y ∈ t.live.erase x := (h.nodup.mem_erase_iff).2 ⟨hxy.symm, hy⟩
  have hey : ((t.live.erase x).erase y).length = t.live.length - 2 := by
    rw [List.length_erase_of_mem hyx, hex]; omega
  have hmem : ∀ m, m ∈ (mergeStep t).live ↔ m = t.nodes.length ∨ (m ∈ t.live ∧ m ≠ x ∧ m ≠ y) := fun m => by
    rw [hlive, List.mem_append, (h.nodup.erase x).mem_erase_iff, h.nodup.mem_erase_iff]
    simp only [List.mem_singleton]; tauto
  have hnew : t.nodes.length ∉ t.live := fun hc => absurd (h.liveLt _ hc) (lt_irrefl _)
  have old {n : Nat} (hn : n < t.nodes.length) : n ≠ t.nodes.length := Nat.ne_of_lt hn
  have hfreq {n : Nat} (hn : n < t.nodes.length) : freqAt (mergeStep t).nodes n = freqAt t.nodes n := by
    rw [hnodes, freqAt_merged, if_neg (old hn)]
  have hpar (n : Nat) : parentAt (mergeStep t).nodes n =
      if n = t.nodes.length then none else if n = x ∨ n = y then some t.nodes.length else parentAt t.nodes n := by
    rw [hnodes, parentAt_merged _ _ _ _ hxl hyl]
  have hL (n : Nat) : leftAt (mergeStep t).nodes n = if n = t.nodes.length then some x else leftAt t.nodes n := by
    rw [hnodes, leftAt_merged]
  have hR (n : Nat) : rightAt (mergeStep t).nodes n = if n = t.nodes.length then some y else rightAt t.nodes n := by
    rw [hnodes, rightAt_merged]
  have hlen' : (mergeStep t).nodes.length = t.nodes.length + 1 := by rw [hnodes, mergedNodes_length]
  have hl1 : (mergeStep t).live.length + 1 = t.live.length := by
    rw [hlive, List.length_append, hey, List.length_singleton]; omega
  have hpl {n p : Nat} (hp : parentAt t.nodes n = some p) : n ≠ x ∧ n ≠ y := by
    constructor
    · rintro rfl; rw [h.liveRoot _ hx] at hp; simp at hp
    · rintro rfl; rw [h.liveRoot _ hy] at hp; simp at hp
  refine ⟨?_, hl1⟩
  constructor
  · rw [hlive]
    refine List.nodup_append.2 ⟨(h.nodup.erase x).erase y, by simp, ?_⟩
    intro m hm m' hm' hmm
    rw [List.mem_singleton] at hm'
    subst hmm
    exact hnew (hm' ▸ List.mem_of_mem_erase (List.mem_of_mem_erase hm))
  · intro n hn
    rw [hlen']
    rcases (hmem n).1 hn with rfl | ⟨hn, -⟩
    · omega
    · have := h.liveLt n hn; omega
  · intro n hn
    rw [hpar]
    rcases (hmem n).1 hn with rfl | ⟨hn, h1, h2⟩
    · simp
    · rw [if_neg (old (h.liveLt n hn)), if_neg (by tauto), h.liveRoot n hn]
  · rw [hlive]; simp
  · have := h.count; omega
  · have := h.atLeast; omega
  · intro j hj
    have hjl : j < t.nodes.length := by have := h.atLeast; omega
    obtain ⟨h1, h2, h3, h4, h5⟩ := h.leaf j hj
    rw [hL, hR, hfreq hjl, hnodes, kindAt_merged, valueAt_merged]
    simp only [if_neg (old hjl)]
    exact ⟨h1, h2, h3, h4, h5⟩
  · intro n h1 h2
    by_cases hn : n = t.nodes.length
    · subst hn
      rw [hL, hR, hnodes, kindAt_merged, valueAt_merged]
      simp only [if_true]
      refine ⟨trivial, trivial, x, y, rfl, rfl, hxl, hyl, hxy, ?_, ?_, ?_, ?_, ?_⟩
      · rw [← hnodes, hpar, if_neg (old hxl), if_pos (.inl rfl)]
      · rw [← hnodes, hpar, if_neg (old hyl), if_pos (.inr rfl)]
      · rw [freqAt_merged, if_pos rfl, ← hnodes, hfreq hxl, hfreq hyl]
      · rw [← hnodes, keyLess_congr (hfreq hxl) (hfreq hyl)]; exact hkxy
      · intro m hm hmx hmy hno
        rw [← hnodes, keyLess_congr (hfreq hyl) (hfreq hm)]
        refine hmin m (by_contra fun hml => ?_) hmx hmy
        obtain ⟨p, -, hp, -, -, hc⟩ := h.dead m hm hml
        have := hno p hp
        rw [← hnodes, hL, hR, if_neg (old hp), if_neg (old hp)] at this
        exact hc.elim this.1 this.2
    · have hnl : n < t.nodes.length := by omega
      obtain ⟨hk, hv, l, r, hl, hr, hln, hrn, hlr, hpL, hpR, hf, hkey, hord⟩ := h.internal n h1 hnl
      have hll : l < t.nodes.length := by omega
      have hrl : r < t.nodes.length := by omega
      rw [hL, hR, hfreq hnl, hnodes, kindAt_merged, valueAt_merged]
      simp only [if_neg hn]
      refine ⟨hk, hv, l, r, hl, hr, hln, hrn, hlr, ?_, ?_, ?_, ?_, ?_⟩
      · rw [← hnodes, hpar, if_neg (old hll), if_neg (by have := hpl hpL; tauto), hpL]
      · rw [← hnodes, hpar, if_neg (old hrl), if_neg (by have := hpl hpR; tauto), hpR]
      · rw [← hnodes, hfreq hll, hfreq hrl]; exact hf
      · rw [← hnodes, keyLess_congr (hfreq hll) (hfreq hrl)]; exact hkey
      · intro m hm h3 h4 hno
        rw [← hnodes, keyLess_congr (hfreq hrl) (hfreq (by omega))]
        refine hord m hm h3 h4 fun n' hn' => ?_
        have := hno n' hn'
        rwa [← hnodes, hL, hR, if_neg (old (by omega)), if_neg (old (by omega))] at this
  · intro n hn hnl
    rw [hlen'] at hn
    have hnn : n ≠ t.nodes.length := fun hc => hnl ((hmem n).2 (.inl hc))
    by_cases hxyn : n = x ∨ n = y
    · refine ⟨t.nodes.length, by omega, by omega, h.atLeast, ?_, ?_⟩
      · rw [hpar, if_neg hnn, if_pos hxyn]
      · rw [hL, hR, if_pos rfl, if_pos rfl]
        rcases hxyn with rfl | rfl <;> simp
    · obtain ⟨p, hnp, hp, hkp, hpp, hc⟩ := h.dead n (by omega) fun hc => hnl ((hmem n).2 (.inr ⟨hc, by tauto⟩))
      refine ⟨p, hnp, by omega, hkp, ?_, ?_⟩
      · rw [hpar, if_neg hnn, if_neg hxyn, hpp]
      · rw [hL, hR, if_neg (old hp), if_neg (old hp)]; exact hc
  · rw [hlive, List.map_append, List.sum_append]
    have hmap : ((t.live.erase x).erase y).map (freqAt (mergeStep t).nodes)
        = ((t.live.erase x).erase y).map (freqAt t.nodes) :=
      List.map_congr_left fun m hm => hfreq (h.liveLt m (List.mem_of_mem_erase (List.mem_of_mem_erase hm)))
    have hsx : (t.live.map (freqAt t.nodes)).sum = freqAt t.nodes x + ((t.live.erase x).map (freqAt t.nodes)).sum := by
      rw [((List.perm_cons_erase hx).map _).sum_eq]; simp
    have hsy : ((t.live.erase x).map (freqAt t.nodes)).sum
        = freqAt t.nodes y + (((t.live.erase x).erase y).map (freqAt t.nodes)).sum := by
      rw [((List.perm_cons_erase hyx).map _).sum_eq]; simp
    have hnew' : freqAt (mergeStep t).nodes t.nodes.length = freqAt t.nodes x + freqAt t.nodes y := by
      rw [hnodes, freqAt_merged, if_pos rfl]
    simp only [hmap, List.map_cons, List.map_nil, List.sum_cons, List.sum_nil, hnew', ← h.total, hsx, hsy]
    omega

/-- All merges keep the forest, and end with one live node (R99). -/
theorem Forest.mergeAll {syms a : List Byte} {t : Builder} (h : Forest syms a t) (fuel : Nat) (hf : t.live.length ≤ fuel + 1) :
    Forest syms a (mergeAll fuel t) ∧ (Machine.mergeAll fuel t).live.length = 1 := by
  have hpos : 0 < t.live.length := List.length_pos_iff.2 h.nonempty
  induction fuel generalizing t with
  | zero => exact ⟨h, by simp only [Machine.mergeAll]; omega⟩
  | succ fuel ih =>
    by_cases hl : 1 < t.live.length
    · obtain ⟨h', hlen⟩ := h.merge hl
      have := ih h' (by omega) (by omega)
      simpa [Machine.mergeAll, hl] using this
    · simp only [Machine.mergeAll, if_neg hl]
      exact ⟨h, by omega⟩

/-! ### The tree -/

/-- The forest TRAIN ends with: one tree, whose root is the node made last (R99). -/
theorem trainedArena_forest (syms : List Byte) : ∃ t, Forest syms (trainedAlphabet syms) t ∧
    t.nodes = trainedArena syms ∧ t.live = [(trainedArena syms).length - 1] ∧
    (trainedArena syms).length + 1 = 2 * (trainedAlphabet syms).length := by
  obtain ⟨-, hk, -, -, -⟩ := trainedAlphabet_spec syms
  have h0 := forest_initial syms (by omega)
  have hll : (initialBuilder syms).live.length = (leaves syms).length := by simp [initialBuilder]
  obtain ⟨h, h1⟩ := h0.mergeAll (leaves syms).length (by omega)
  obtain ⟨r, hr⟩ := List.length_eq_one_iff.1 h1
  have hcount := h.count
  rw [h1] at hcount
  refine ⟨_, h, rfl, ?_, hcount⟩
  rw [hr]
  congr 1
  by_contra hne
  have hlast : (trainedArena syms).length - 1 < (trainedArena syms).length := by
    have : (trainedArena syms).length + 1 = 2 * (trainedAlphabet syms).length := hcount
    omega
  obtain ⟨p, hnp, hp, -⟩ := h.dead _ hlast (by rw [hr, List.mem_singleton]; exact fun hc => hne hc.symm)
  have : p < (trainedArena syms).length := hp
  omega

/-- TRAIN's arena and index are a well-formed tree with summed frequencies (R104). -/
theorem trainedArena_ok (syms : List Byte) :
    TreeOK (trainedArena syms) (List.range (trainedAlphabet syms).length) ((trainedArena syms).length - 1)
      (trainedAlphabet syms).length ∧ FreqOK (trainedArena syms) := by
  obtain ⟨t, h, hn, hlive, hlen⟩ := trainedArena_forest syms
  obtain ⟨hok, hk2, hk255, -, -⟩ := trainedAlphabet_spec syms
  rw [← hn] at hlive hlen ⊢
  have hroot : t.nodes.length - 1 ∈ t.live := by rw [hlive]; simp
  have hlive' {n : Nat} (hne : n ≠ t.nodes.length - 1) : n ∉ t.live := by rw [hlive]; simpa using hne
  have hkind {n : Nat} (hnl : n < t.nodes.length) : kindAt t.nodes n = some .leaf ↔ n < (trainedAlphabet syms).length := by
    constructor
    · intro hk
      by_contra hge
      rw [(h.internal n (by omega) hnl).1] at hk; simp at hk
    · exact fun hlt => (h.leaf n hlt).1
  have hval {n : Nat} (hlt : n < (trainedAlphabet syms).length) : valueAt t.nodes n = some (trainedAlphabet syms)[n] :=
    (h.leaf n hlt).2.1
  have hreach : ∀ g n, n < t.nodes.length → t.nodes.length ≤ n + g → ∃ d, ancestor t.nodes d n = some (t.nodes.length - 1) ∧
      ((trainedAlphabet syms).length ≤ n → d + n + 1 ≤ t.nodes.length) ∧ d + 1 ≤ (trainedAlphabet syms).length := by
    intro g
    induction g with
    | zero => intro n h1 h2; omega
    | succ g ih =>
      intro n h1 h2
      by_cases hr : n = t.nodes.length - 1
      · exact ⟨0, by simp [ancestor, hr], fun _ => by omega, by omega⟩
      · obtain ⟨p, hnp, hp, hkp, hpp, -⟩ := h.dead n h1 (hlive' hr)
        obtain ⟨d, hd, hd1, -⟩ := ih p hp (by omega)
        have := hd1 hkp
        exact ⟨d + 1, by rw [ancestor_succ hpp, hd], fun _ => by omega, by omega⟩
  have hleaf : ∀ n < t.nodes.length, kindAt t.nodes n = some .leaf → n ∈ List.range (trainedAlphabet syms).length :=
    fun n hnl hk => List.mem_range.2 ((hkind hnl).1 hk)
  refine ⟨⟨hk2, hk255, by omega, by omega, ?_, h.liveRoot _ hroot, ?_, ?_, ?_, ?_, ?_, ?_, ?_, ?_, by simp, ?_, hleaf, ?_⟩, ?_⟩
  · exact (h.internal _ (by omega) (by omega)).1
  · intro n hnl hne
    obtain ⟨p, hnp, hp, hkp, hpp, hc⟩ := h.dead n hnl (hlive' hne)
    obtain ⟨hki, -, l, r, hl, hr, -, -, hlr, -⟩ := h.internal p hkp hp
    refine ⟨p, hp, hpp, hki, ?_⟩
    rw [hl, hr] at hc ⊢
    simp only [Option.some.injEq] at hc ⊢
    constructor
    · rintro rfl hrl; exact hlr hrl.symm
    · exact fun hnr => hc.resolve_right hnr
  · intro n hnl hki
    have hge : (trainedAlphabet syms).length ≤ n := by
      by_contra hlt
      rw [(hkind hnl).2 (by omega)] at hki; simp at hki
    obtain ⟨-, -, l, r, hl, hr, hln, hrn, hlr, hpl, hpr, -⟩ := h.internal n hge hnl
    exact ⟨l, by omega, r, by omega, hl, hr, hlr, hpl, hpr⟩
  · intro n hnl
    obtain ⟨d, hd, -, hd'⟩ := hreach t.nodes.length n hnl (by omega)
    exact ⟨d, by simp only [maxCw]; omega, hd⟩
  · unfold leafCount
    have : (List.range t.nodes.length).filter (fun n => kindAt t.nodes n = some .leaf)
        = (List.range t.nodes.length).filter (fun n => n < (trainedAlphabet syms).length) :=
      List.filter_congr fun n hm => by simpa using hkind (List.mem_range.1 hm)
    rw [this, ← List.countP_eq_length_filter,
      show t.nodes.length = (trainedAlphabet syms).length + (t.nodes.length - (trainedAlphabet syms).length) by omega,
      List.range_add, List.countP_append, List.countP_eq_length.2 (by simp), List.countP_eq_zero.2 (by simp)]
    simp
  · intro n hnl hk
    rw [hval ((hkind hnl).1 hk)]
    simpa using hok.legal _ (List.getElem_mem _)
  · intro m hm n hnl hkm hkn hv
    rw [hval ((hkind hm).1 hkm), hval ((hkind hnl).1 hkn), Option.some.injEq] at hv
    exact (List.Nodup.getElem_inj_iff hok.nodup).1 hv
  · intro n hnl hk
    exact ⟨(h.leaf n ((hkind hnl).1 hk)).2.2.2.1, (h.leaf n ((hkind hnl).1 hk)).2.2.2.2⟩
  · intro n hnl hki
    have hge : (trainedAlphabet syms).length ≤ n := by
      by_contra hlt
      rw [(hkind hnl).2 (by omega)] at hki; simp at hki
    exact (h.internal n hge hnl).2.1
  · intro n hm
    have hlt := List.mem_range.1 hm
    have : n < t.nodes.length := by omega
    exact ⟨this, (hkind this).2 hlt⟩
  · have : (List.range (trainedAlphabet syms).length).map (fun n => (valueAt t.nodes n).getD 0) = trainedAlphabet syms := by
      refine List.ext_getElem (by simp) fun j h1 h2 => ?_
      simp [hval h2]
    rw [this]; exact hok.sorted
  · intro n hnl l hll r hrl hl hr
    have hge : (trainedAlphabet syms).length ≤ n := by
      by_contra hlt
      rw [(h.leaf n (by omega)).2.2.2.1] at hl; simp at hl
    obtain ⟨-, -, l', r', hl', hr', -, -, -, -, -, hf, -⟩ := h.internal n hge hnl
    rw [hl] at hl'; rw [hr] at hr'
    rw [hf, Option.some.inj hl', Option.some.inj hr']

end Sys2Proof.Machine
end

