-- ==== Sys2Proof/Laws/Optimal.lean ====
section
/-! SUPPORT. Greedy merging is never worse than a prefix-free code (the general fact behind R105): the Kraft sum of a
prefix-free code, the exchange argument, and the cost of the tree the merges make. -/

namespace Sys2Proof.Machine

/-! ### The Kraft sum -/

/-- The Kraft sum of some lengths. -/
def kraftSum (ls : List Nat) : ℚ := (ls.map fun l => (1 / 2 : ℚ) ^ l).sum

theorem kraftSum_perm {a b : List Nat} (h : a.Perm b) : kraftSum a = kraftSum b := (h.map _).sum_eq

theorem kraftSum_nonneg (ls : List Nat) : 0 ≤ kraftSum ls := List.sum_nonneg fun x hx => by
  obtain ⟨l, -, rfl⟩ := List.mem_map.1 hx
  positivity

/-- The words of a list that begin with a bit, without it. -/
def tailsOf (bit : Bool) (ws : List (List Bool)) : List (List Bool) :=
  ws.filterMap fun w => match w with
    | [] => none
    | b :: w => if b = bit then some w else none

theorem mem_tailsOf {bit : Bool} {ws : List (List Bool)} {w : List Bool} : w ∈ tailsOf bit ws ↔ (bit :: w) ∈ ws := by
  simp only [tailsOf, List.mem_filterMap]
  constructor
  · rintro ⟨x, hx, h⟩
    rcases x with _ | ⟨b, x⟩
    · simp at h
    · simp only [Option.ite_none_right_eq_some, Option.some.injEq] at h
      rw [← h.1, ← h.2]; exact hx
  · exact fun h => ⟨_, h, by simp⟩

theorem tailsOf_pairwise {bit : Bool} {ws : List (List Bool)} (h : ws.Pairwise fun u v => ¬ u <+: v ∧ ¬ v <+: u) :
    (tailsOf bit ws).Pairwise fun u v => ¬ u <+: v ∧ ¬ v <+: u := by
  refine List.Pairwise.filterMap _ (fun x y hxy u hu v hv => ?_) h
  rcases x with _ | ⟨b, x⟩
  · simp at hu
  rcases y with _ | ⟨c, y⟩
  · simp at hv
  simp only [Option.ite_none_right_eq_some, Option.some.injEq] at hu hv
  obtain ⟨rfl, rfl⟩ := hu
  obtain ⟨rfl, rfl⟩ := hv
  simpa [List.cons_prefix_cons] using hxy

theorem kraftSum_split {ws : List (List Bool)} (h : [] ∉ ws) :
    kraftSum (ws.map List.length) =
      (kraftSum ((tailsOf false ws).map List.length) + kraftSum ((tailsOf true ws).map List.length)) / 2 := by
  induction ws with
  | nil => simp [kraftSum, tailsOf]
  | cons w ws ih =>
    rcases w with _ | ⟨b, w⟩
    · simp at h
    · have := ih fun hc => h (List.mem_cons_of_mem _ hc)
      cases b <;> simp [kraftSum, tailsOf, pow_succ] at this ⊢ <;> linarith

/-- A prefix-free code has a Kraft sum of at most 1. -/
theorem kraft_prefixFree (n : Nat) (ws : List (List Bool)) (hn : ∀ w ∈ ws, w.length ≤ n)
    (h : ws.Pairwise fun u v => ¬ u <+: v ∧ ¬ v <+: u) : kraftSum (ws.map List.length) ≤ 1 := by
  induction n generalizing ws with
  | zero =>
    rcases ws with _ | ⟨w, _ | ⟨v, ws⟩⟩
    · simp [kraftSum]
    · have := hn w (by simp)
      simp [kraftSum, Nat.le_zero.1 this]
    · have h1 := hn w (by simp)
      have hw : w = [] := List.length_eq_zero_iff.1 (Nat.le_zero.1 h1)
      exact absurd (hw ▸ List.nil_prefix) ((List.pairwise_cons.1 h).1 v (by simp)).1
  | succ n ih =>
    by_cases hnil : [] ∈ ws
    · obtain ⟨as, bs, rfl⟩ := List.append_of_mem hnil
      obtain ⟨h1, h2, h3⟩ := List.pairwise_append.1 h
      have ha : as = [] := List.eq_nil_iff_forall_not_mem.2 fun x hx =>
        (h3 x hx [] (by simp)).2 List.nil_prefix
      have hb : bs = [] := List.eq_nil_iff_forall_not_mem.2 fun x hx =>
        ((List.pairwise_cons.1 h2).1 x hx).1 List.nil_prefix
      simp [ha, hb, kraftSum]
    · rw [kraftSum_split hnil]
      have key (bit : Bool) : kraftSum ((tailsOf bit ws).map List.length) ≤ 1 :=
        ih _ (fun w hw => by have := hn _ (mem_tailsOf.1 hw); simpa using this) (tailsOf_pairwise h)
      linarith [key false, key true]

/-- A Kraft sum is a whole number of the smallest weight in it. -/
theorem kraftSum_grid (n : Nat) (ls : List Nat) (h : ∀ l ∈ ls, l ≤ n) : ∃ m : ℕ, kraftSum ls * 2 ^ n = m := by
  induction ls with
  | nil => exact ⟨0, by simp [kraftSum]⟩
  | cons l ls ih =>
    obtain ⟨m, hm⟩ := ih fun x hx => h x (List.mem_cons_of_mem _ hx)
    have hl : l ≤ n := h l (by simp)
    refine ⟨2 ^ (n - l) + m, ?_⟩
    have : (1 / 2 : ℚ) ^ l * 2 ^ n = 2 ^ (n - l) := by
      rw [show n = (n - l) + l by omega, pow_add, Nat.add_sub_cancel]
      rw [div_pow, one_pow]; field_simp
    simp only [kraftSum, List.map_cons, List.sum_cons] at hm ⊢
    push_cast
    rw [add_mul, this, hm]

/-- A single longest word may lose a bit. -/
theorem kraftSum_shorten {l : Nat} {ls : List Nat} (h : ∀ x ∈ ls, x ≤ l) (hk : kraftSum ((l + 1) :: ls) ≤ 1) :
    kraftSum (l :: ls) ≤ 1 := by
  obtain ⟨m, hm⟩ := kraftSum_grid l ls h
  simp only [kraftSum, List.map_cons, List.sum_cons] at hk hm ⊢
  have hpos : (0 : ℚ) < 2 ^ l := by positivity
  have e1 : (1 / 2 : ℚ) ^ l * 2 ^ l = 1 := by rw [div_pow, one_pow]; field_simp
  have e2 : (1 / 2 : ℚ) ^ (l + 1) * 2 ^ l = 1 / 2 := by rw [pow_succ, mul_right_comm, e1, one_mul]
  have h1 : (1 / 2 : ℚ) + m ≤ 2 ^ l := by
    have := mul_le_mul_of_nonneg_right hk hpos.le
    rw [add_mul, e2, hm, one_mul] at this
    exact this
  have h2 : m + 1 ≤ 2 ^ l := by
    have : (m : ℚ) < ((2 ^ l : ℕ) : ℚ) := by push_cast; linarith
    exact_mod_cast this
  have h3 : (1 : ℚ) + m ≤ 2 ^ l := by
    have : ((m + 1 : ℕ) : ℚ) ≤ ((2 ^ l : ℕ) : ℚ) := by exact_mod_cast h2
    push_cast at this; linarith
  have : ((1 / 2 : ℚ) ^ l + (ls.map fun l => (1 / 2 : ℚ) ^ l).sum) * 2 ^ l ≤ 1 * 2 ^ l := by
    rw [add_mul, e1, hm, one_mul]; exact h3
  exact le_of_mul_le_mul_right this hpos

/-! ### Greedy merging -/

/-- Merging the two least of some weights until one is left costs the sum of the merged weights. -/
inductive Greedy : List Nat → Nat → Prop where
  | one (w : Nat) : Greedy [w] 0
  | merge {ws s : List Nat} {a b c : Nat} (hp : ws.Perm (a :: b :: s)) (hab : a ≤ b) (hb : ∀ x ∈ s, b ≤ x)
      (h : Greedy (s ++ [a + b]) c) : Greedy ws (a + b + c)

/-- What words of given lengths cost for given weights. -/
def wordCost (p : List (Nat × Nat)) : Nat := (p.map fun x => x.1 * x.2).sum

theorem wordCost_perm {p q : List (Nat × Nat)} (h : p.Perm q) : wordCost p = wordCost q := (h.map _).sum_eq

theorem wordCost_cons (x : Nat × Nat) (p : List (Nat × Nat)) : wordCost (x :: p) = x.1 * x.2 + wordCost p := by
  simp [wordCost]

/-- The exchange argument for the two least weights: they may be taken to be of equal length. -/
theorem exchange {a b c : Nat} {s : List Nat} (hab : a ≤ b) (hb : ∀ x ∈ s, b ≤ x)
    (hc : ∀ q : List (Nat × Nat), (q.map Prod.fst).Perm (s ++ [a + b]) → kraftSum (q.map Prod.snd) ≤ 1 → c ≤ wordCost q)
    (m la lb : Nat) (p : List (Nat × Nat)) (hp : (p.map Prod.fst).Perm s)
    (hk : kraftSum (la :: lb :: p.map Prod.snd) ≤ 1) (hm : la + lb + 2 * (p.map Prod.snd).sum ≤ m) :
    a + b + c ≤ a * la + b * lb + wordCost p := by
  induction m using Nat.strong_induction_on generalizing la lb p with
  | _ m ih =>
  -- swap a longer word of `p` against one of the two
  have take : ∀ (u l : Nat), (u, l) ∈ p → ∃ p', p.Perm ((u, l) :: p') := fun u l h => by
    obtain ⟨as, bs, rfl⟩ := List.append_of_mem h
    exact ⟨as ++ bs, List.perm_middle⟩
  by_cases heq : la = lb
  · subst heq
    have hpos : 1 ≤ la := by
      by_contra h0
      obtain rfl : la = 0 := by omega
      have := kraftSum_nonneg (p.map Prod.snd)
      simp only [kraftSum, List.map_cons, List.sum_cons, pow_zero] at hk this
      linarith
    obtain ⟨l, rfl⟩ : ∃ l, la = l + 1 := ⟨la - 1, by omega⟩
    have := hc ((a + b, l) :: p) (by
      rw [List.map_cons]
      exact (hp.cons _).trans (List.perm_append_comm (l₁ := [a + b]) (l₂ := s))) (by
      simp only [kraftSum, List.map_cons, List.sum_cons, pow_succ] at hk ⊢
      linarith)
    rw [wordCost_cons] at this
    simp only at this
    nlinarith
  · by_cases h1 : ∃ x ∈ p, la < x.2
    · obtain ⟨⟨u, l⟩, hx, hl⟩ := h1
      obtain ⟨p', hp'⟩ := take u l hx
      have hu : b ≤ u := hb u (hp.mem_iff.1 (List.mem_map.2 ⟨_, hx, rfl⟩))
      simp only at hl
      have hs : (p.map Prod.snd).sum = l + (p'.map Prod.snd).sum := by rw [((hp'.map _).sum_eq)]; simp
      have hperm : (la :: lb :: p.map Prod.snd).Perm (l :: lb :: ((u, la) :: p').map Prod.snd) := by
        refine ((hp'.map Prod.snd).cons lb |>.cons la).trans ?_
        simp only [List.map_cons]
        exact ((List.Perm.swap l lb _).cons la).trans ((List.Perm.swap l la _).trans ((List.Perm.swap lb la _).cons l))
      have := ih (l + lb + 2 * (((u, la) :: p').map Prod.snd).sum) (by
        simp only [List.map_cons, List.sum_cons]; omega) l lb ((u, la) :: p')
        (((hp'.map Prod.fst).symm.trans hp)) (by rw [← kraftSum_perm hperm]; exact hk) le_rfl
      rw [wordCost_perm hp', wordCost_cons]
      rw [wordCost_cons] at this
      simp only at this ⊢
      have hau : a ≤ u := hab.trans hu
      nlinarith
    · by_cases h2 : ∃ x ∈ p, lb < x.2
      · obtain ⟨⟨u, l⟩, hx, hl⟩ := h2
        obtain ⟨p', hp'⟩ := take u l hx
        have hu : b ≤ u := hb u (hp.mem_iff.1 (List.mem_map.2 ⟨_, hx, rfl⟩))
        simp only at hl
        have hs : (p.map Prod.snd).sum = l + (p'.map Prod.snd).sum := by rw [((hp'.map _).sum_eq)]; simp
        have hperm : (la :: lb :: p.map Prod.snd).Perm (la :: l :: ((u, lb) :: p').map Prod.snd) := by
          refine ((hp'.map Prod.snd).cons lb |>.cons la).trans ?_
          simp only [List.map_cons]
          exact (List.Perm.swap l lb _).cons la
        have := ih (la + l + 2 * (((u, lb) :: p').map Prod.snd).sum) (by
          simp only [List.map_cons, List.sum_cons]; omega) la l ((u, lb) :: p')
          (((hp'.map Prod.fst).symm.trans hp)) (by rw [← kraftSum_perm hperm]; exact hk) le_rfl
        rw [wordCost_perm hp', wordCost_cons]
        rw [wordCost_cons] at this
        simp only at this ⊢
        nlinarith
      · push Not at h1 h2
        rcases Nat.lt_or_gt_of_ne heq with hlt | hlt
        · obtain ⟨l, rfl⟩ : ∃ l, lb = l + 1 := ⟨lb - 1, by omega⟩
          have hk' : kraftSum (la :: l :: p.map Prod.snd) ≤ 1 := by
            rw [kraftSum_perm (List.Perm.swap l la _)]
            refine kraftSum_shorten (fun x hx => ?_) (by rw [kraftSum_perm (List.Perm.swap la (l + 1) _)]; exact hk)
            rcases List.mem_cons.1 hx with rfl | hx
            · omega
            · obtain ⟨y, hy, rfl⟩ := List.mem_map.1 hx
              have := h1 y hy
              omega
          have := ih (la + l + 2 * (p.map Prod.snd).sum) (by omega) la l p hp hk' le_rfl
          nlinarith
        · obtain ⟨l, rfl⟩ : ∃ l, la = l + 1 := ⟨la - 1, by omega⟩
          have hk' : kraftSum (l :: lb :: p.map Prod.snd) ≤ 1 := by
            refine kraftSum_shorten (fun x hx => ?_) hk
            rcases List.mem_cons.1 hx with rfl | hx
            · omega
            · obtain ⟨y, hy, rfl⟩ := List.mem_map.1 hx
              have := h2 y hy
              omega
          have := ih (l + lb + 2 * (p.map Prod.snd).sum) (by omega) l lb p hp hk' le_rfl
          nlinarith

/-- Greedy merging costs no more than words of any lengths that satisfy the Kraft inequality. -/
theorem Greedy.le {ws : List Nat} {c : Nat} (h : Greedy ws c) (q : List (Nat × Nat)) (hq : (q.map Prod.fst).Perm ws)
    (hk : kraftSum (q.map Prod.snd) ≤ 1) : c ≤ wordCost q := by
  induction h generalizing q with
  | one w => exact Nat.zero_le _
  | @merge ws s a b c hp hab hb _ ih =>
    have take : ∀ (q : List (Nat × Nat)) (x : Nat) (r : List Nat), (q.map Prod.fst).Perm (x :: r) →
        ∃ l q', q.Perm ((x, l) :: q') ∧ (q'.map Prod.fst).Perm r := fun q x r h => by
      obtain ⟨⟨y, l⟩, hy, rfl⟩ := List.mem_map.1 (h.mem_iff.2 (List.mem_cons_self (a := x)))
      obtain ⟨as, bs, rfl⟩ := List.append_of_mem hy
      refine ⟨l, as ++ bs, List.perm_middle, ?_⟩
      have := ((List.perm_middle (a := (y, l)) (l₁ := as) (l₂ := bs)).map Prod.fst).symm.trans h
      exact this.cons_inv
    obtain ⟨la, q1, h1, hq1⟩ := take q a (b :: s) (hq.trans hp)
    obtain ⟨lb, q2, h2, hq2⟩ := take q1 b s hq1
    have hperm : q.Perm ((a, la) :: (b, lb) :: q2) := h1.trans (h2.cons _)
    have hk2 : kraftSum (la :: lb :: q2.map Prod.snd) ≤ 1 := by
      rw [kraftSum_perm (hperm.map Prod.snd)] at hk; exact hk
    have := exchange hab hb ih _ la lb q2 hq2 hk2 le_rfl
    rw [wordCost_perm hperm, wordCost_cons, wordCost_cons]
    simp only
    omega

/-! ### The cost of a derivation -/

/-- The paths from a derivation's root to its leaves, with their values. -/
def ParseTree.paths : ParseTree → List (Byte × List Bool)
  | .leaf v => [(v, [])]
  | .node l r => l.paths.map (fun x => (x.1, false :: x.2)) ++ r.paths.map (fun x => (x.1, true :: x.2))

/-- The weight of a derivation's leaves. -/
def ParseTree.weight (w : Byte → Nat) (t : ParseTree) : Nat := (t.values.map w).sum

/-- The sum of weight times depth over a derivation's leaves. -/
def ParseTree.cost (w : Byte → Nat) (t : ParseTree) : Nat := (t.paths.map fun x => w x.1 * x.2.length).sum

theorem ParseTree.paths_values (t : ParseTree) : t.paths.map Prod.fst = t.values := by
  induction t with
  | leaf v => rfl
  | node l r hl hr =>
    simp only [ParseTree.paths, ParseTree.values, List.map_append, List.map_map, ← hl, ← hr]
    rfl

theorem ParseTree.cost_node (w : Byte → Nat) (l r : ParseTree) :
    (ParseTree.node l r).cost w = l.cost w + r.cost w + (l.weight w + r.weight w) := by
  have key : ∀ (ps : List (Byte × List Bool)) (bit : Bool),
      ((ps.map fun x => (x.1, bit :: x.2)).map fun x => w x.1 * x.2.length).sum
        = (ps.map fun x => w x.1 * x.2.length).sum + ((ps.map Prod.fst).map w).sum := by
    intro ps bit
    induction ps with
    | nil => rfl
    | cons x ps ih => simp only [List.map_cons, List.sum_cons, ih, List.length_cons]; ring
  simp only [ParseTree.cost, ParseTree.paths, List.map_append, List.sum_append, key, ParseTree.weight,
    ParseTree.paths_values]
  ring

/-- The path to a leaf leads to a node of its value (R75). -/
theorem ParseTree.follow_path {nodes : List Node} {t : ParseTree} {n : Nat} (h : Shaped nodes t n) {v : Byte}
    {p : List Bool} (hp : (v, p) ∈ t.paths) :
    ∃ m, follow nodes n p = some m ∧ kindAt nodes m = some .leaf ∧ valueAt nodes m = some v := by
  induction t generalizing n p with
  | leaf u =>
    obtain ⟨rfl, rfl⟩ : v = u ∧ p = [] := by simpa [ParseTree.paths] using hp
    exact ⟨n, rfl, h.1, h.2⟩
  | node l r hl hr =>
    obtain ⟨-, a, b, h1, h2, h3, h4⟩ := h
    simp only [ParseTree.paths, List.mem_append, List.mem_map, Prod.mk.injEq] at hp
    rcases hp with ⟨⟨u, q⟩, hq, rfl, rfl⟩ | ⟨⟨u, q⟩, hq, rfl, rfl⟩
    · obtain ⟨m, hm⟩ := hl h3 hq
      exact ⟨m, by simpa [follow, childOf, h1] using hm.1, hm.2⟩
    · obtain ⟨m, hm⟩ := hr h4 hq
      exact ⟨m, by simpa [follow, childOf, h2] using hm.1, hm.2⟩

/-- Shapes are kept when entries change in their `parent` only, or are appended. -/
theorem Shaped.congr {nodes nodes' : List Node} {t : ParseTree} {n : Nat} (h : Shaped nodes t n)
    (hk : ∀ m < nodes.length, kindAt nodes' m = kindAt nodes m) (hv : ∀ m < nodes.length, valueAt nodes' m = valueAt nodes m)
    (hl : ∀ m < nodes.length, leftAt nodes' m = leftAt nodes m) (hr : ∀ m < nodes.length, rightAt nodes' m = rightAt nodes m) :
    Shaped nodes' t n := by
  induction t generalizing n with
  | leaf v => have := kindAt_lt h.1; exact ⟨by rw [hk n this]; exact h.1, by rw [hv n this]; exact h.2⟩
  | node l r ihl ihr =>
    obtain ⟨h0, a, b, h1, h2, h3, h4⟩ := h
    have := kindAt_lt h0
    exact ⟨by rw [hk n this]; exact h0, a, b, by rw [hl n this]; exact h1, by rw [hr n this]; exact h2, ihl h3, ihr h4⟩

/-- The forest's live nodes as derivations: their weights are their frequencies, and their leaves are the alphabet's. -/
structure ShapedForest (syms a : List Byte) (t : Builder) (shape : Nat → ParseTree) : Prop where
  shaped : ∀ n ∈ t.live, Shaped t.nodes (shape n) n
  weight : ∀ n ∈ t.live, (shape n).weight (histogram syms) = freqAt t.nodes n
  values : (t.live.flatMap fun n => (shape n).values).Perm a

theorem shapedForest_initial (syms : List Byte) :
    ShapedForest syms (trainedAlphabet syms) (initialBuilder syms) fun j => .leaf ((trainedAlphabet syms).getD j 0) := by
  have hlen : (leaves syms).length = (trainedAlphabet syms).length := by simp [leaves]
  have hget : ∀ j, (hj : j < (trainedAlphabet syms).length) → (leaves syms)[j]? =
      some (newLeaf (trainedAlphabet syms)[j] (histogram syms (trainedAlphabet syms)[j]) none) := fun j hj => by
    simp [leaves, List.getElem?_eq_getElem hj]
  have hlt : ∀ j ∈ (initialBuilder syms).live, j < (trainedAlphabet syms).length := fun j hj => by
    have : j < (leaves syms).length := by simpa [initialBuilder] using hj
    omega
  constructor
  · intro j hj
    simp [Shaped, initialBuilder, kindAt, valueAt, hget j (hlt j hj), List.getElem?_eq_getElem (hlt j hj)]
  · intro j hj
    simp [ParseTree.weight, ParseTree.values, initialBuilder, freqAt, hget j (hlt j hj), List.getElem?_eq_getElem (hlt j hj)]
  · have : (List.range (leaves syms).length).flatMap (fun j => (ParseTree.leaf ((trainedAlphabet syms).getD j 0)).values)
        = trainedAlphabet syms := by
      have : (fun j => (ParseTree.leaf ((trainedAlphabet syms).getD j 0)).values)
          = fun j => [(trainedAlphabet syms).getD j 0] := rfl
      rw [this, ← List.map_eq_flatMap]
      refine List.ext_getElem (by simp [hlen]) fun j h1 h2 => ?_
      simp [List.getElem?_eq_getElem h2]
    exact List.Perm.of_eq this

/-- The merges are greedy merging of the live nodes' frequencies, and its cost is the cost of the tree they make. -/
theorem mergeAll_greedy {syms a : List Byte} (fuel : Nat) {t : Builder} (h : Forest syms a t) {shape : Nat → ParseTree}
    (hs : ShapedForest syms a t shape) (hf : t.live.length ≤ fuel + 1) :
    ∃ c root tree, Greedy (t.live.map (freqAt t.nodes)) c ∧ (mergeAll fuel t).live = [root] ∧
      Shaped (mergeAll fuel t).nodes tree root ∧ tree.values.Perm a ∧
      tree.cost (histogram syms) = (t.live.map fun n => (shape n).cost (histogram syms)).sum + c := by
  induction fuel generalizing t shape with
  | zero =>
    have hpos : 0 < t.live.length := List.length_pos_iff.2 h.nonempty
    obtain ⟨r, hr⟩ := List.length_eq_one_iff.1 (show t.live.length = 1 by omega)
    refine ⟨0, r, shape r, by rw [hr]; exact .one _, by simpa [mergeAll] using hr, hs.shaped r (by simp [hr]), ?_, by simp [hr]⟩
    simpa [hr] using hs.values
  | succ fuel ih =>
    by_cases hl : 1 < t.live.length
    · obtain ⟨h', hlen⟩ := h.merge hl
      obtain ⟨x, y, hx, hy, hxy, hkxy, hmin, he⟩ := mergeStep_spec t h.nodup hl
      have hyx : y ∈ t.live.erase x := (h.nodup.mem_erase_iff).2 ⟨hxy.symm, hy⟩
      have hperm : t.live.Perm (x :: y :: (t.live.erase x).erase y) :=
        (List.perm_cons_erase hx).trans ((List.perm_cons_erase hyx).cons x)
      have hnodes : (mergeStep t).nodes = mergedNodes t.nodes x y := by rw [he]; rfl
      have hlive : (mergeStep t).live = (t.live.erase x).erase y ++ [t.nodes.length] := by rw [he]
      have hrest {n : Nat} (hn : n ∈ (t.live.erase x).erase y) : n ∈ t.live ∧ n < t.nodes.length := by
        have := List.mem_of_mem_erase (List.mem_of_mem_erase hn)
        exact ⟨this, h.liveLt n this⟩
      have old {n : Nat} (hn : n < t.nodes.length) : n ≠ t.nodes.length := Nat.ne_of_lt hn
      have keep {n : Nat} {u : ParseTree} (hu : Shaped t.nodes u n) : Shaped (mergeStep t).nodes u n := by
        rw [hnodes]
        exact hu.congr (fun m hm => by rw [kindAt_merged, if_neg (old hm)])
          (fun m hm => by rw [valueAt_merged, if_neg (old hm)]) (fun m hm => by rw [leftAt_merged, if_neg (old hm)])
          (fun m hm => by rw [rightAt_merged, if_neg (old hm)])
      let shape' : Nat → ParseTree := fun n => if n = t.nodes.length then .node (shape x) (shape y) else shape n
      have hnew : shape' t.nodes.length = .node (shape x) (shape y) := by simp [shape']
      have hsame {n : Nat} (hn : n < t.nodes.length) : shape' n = shape n := by simp [shape', old hn]
      have hs' : ShapedForest syms a (mergeStep t) shape' := by
        constructor
        · intro n hn
          rw [hlive] at hn
          rcases List.mem_append.1 hn with hn | hn
          · rw [hsame (hrest hn).2]; exact keep (hs.shaped n (hrest hn).1)
          · obtain rfl := List.mem_singleton.1 hn
            rw [hnew]
            refine ⟨by rw [hnodes, kindAt_merged, if_pos rfl], x, y, by rw [hnodes, leftAt_merged, if_pos rfl],
              by rw [hnodes, rightAt_merged, if_pos rfl], keep (hs.shaped x hx), keep (hs.shaped y hy)⟩
        · intro n hn
          rw [hlive] at hn
          rw [hnodes, freqAt_merged]
          rcases List.mem_append.1 hn with hn | hn
          · rw [hsame (hrest hn).2, if_neg (old (hrest hn).2)]; exact hs.weight n (hrest hn).1
          · obtain rfl := List.mem_singleton.1 hn
            rw [hnew, if_pos rfl, ← hs.weight x hx, ← hs.weight y hy]
            simp [ParseTree.weight, ParseTree.values]
        · rw [hlive, List.flatMap_append]
          have h1 : ((t.live.erase x).erase y).flatMap (fun n => (shape' n).values)
              = ((t.live.erase x).erase y).flatMap (fun n => (shape n).values) :=
            List.flatMap_congr fun n hn => by rw [hsame (hrest hn).2]
          have h2 : (x :: y :: (t.live.erase x).erase y).flatMap (fun n => (shape n).values)
              = (shape x).values ++ ((shape y).values ++ ((t.live.erase x).erase y).flatMap fun n => (shape n).values) := by
            simp
          refine List.Perm.trans ?_ ((hperm.flatMap_right _).symm.trans hs.values)
          rw [h1, h2, ← List.append_assoc]
          simp only [List.flatMap_cons, List.flatMap_nil, List.append_nil, hnew, ParseTree.values]
          exact List.perm_append_comm
      obtain ⟨c, root, tree, hg, hr, hsh, hv, hcost⟩ := ih h' hs' (by omega)
      have hfr : (mergeStep t).live.map (freqAt (mergeStep t).nodes) =
          ((t.live.erase x).erase y).map (freqAt t.nodes) ++ [freqAt t.nodes x + freqAt t.nodes y] := by
        rw [hlive, List.map_append, hnodes]
        congr 1
        · exact List.map_congr_left fun n hn => by rw [freqAt_merged, if_neg (old (hrest hn).2)]
        · simp [freqAt_merged]
      rw [hfr] at hg
      have hxy' := (keyLess_iff _ _ _).1 hkxy
      refine ⟨freqAt t.nodes x + freqAt t.nodes y + c, root, tree,
        .merge (hperm.map _) (by omega) (fun w hw => ?_) hg, by simpa [mergeAll, hl] using hr,
        by simpa [mergeAll, hl] using hsh, hv, ?_⟩
      · obtain ⟨m, hm, rfl⟩ := List.mem_map.1 hw
        have h1 := (h.nodup.erase x).mem_erase_iff.1 hm
        have h2 := h.nodup.mem_erase_iff.1 h1.2
        have := (keyLess_iff _ _ _).1 (hmin m h2.2 h2.1 h1.1)
        omega
      · rw [hcost, ((hperm.map _).sum_eq), hlive, List.map_append, List.sum_append]
        have h1 : ((t.live.erase x).erase y).map (fun n => (shape' n).cost (histogram syms))
            = ((t.live.erase x).erase y).map (fun n => (shape n).cost (histogram syms)) :=
          List.map_congr_left fun n hn => by rw [hsame (hrest hn).2]
        simp only [h1, List.map_cons, List.map_nil, List.sum_cons, List.sum_nil, hnew, ParseTree.cost_node,
          hs.weight x hx, hs.weight y hy]
        omega
    · have hpos : 0 < t.live.length := List.length_pos_iff.2 h.nonempty
      obtain ⟨r, hr⟩ := List.length_eq_one_iff.1 (show t.live.length = 1 by omega)
      refine ⟨0, r, shape r, by rw [hr]; exact .one _, by simpa [mergeAll, hl] using hr, ?_, ?_, by simp [hr]⟩
      · simp only [mergeAll, if_neg hl]; exact hs.shaped r (by simp [hr])
      · simpa [hr] using hs.values

/-- TRAIN's tree as a derivation: its leaves are the trained alphabet, and its cost is that of greedy merging of the counts. -/
theorem trainedArena_greedy (syms : List Byte) : ∃ c tree,
    Greedy ((trainedAlphabet syms).map (histogram syms)) c ∧
    Shaped (trainedArena syms) tree ((trainedArena syms).length - 1) ∧ tree.values.Perm (trainedAlphabet syms) ∧
    tree.cost (histogram syms) = c := by
  obtain ⟨-, hk, -, -, -⟩ := trainedAlphabet_spec syms
  have h0 := forest_initial syms (by omega)
  obtain ⟨c, root, tree, hg, hr, hsh, hv, hcost⟩ := mergeAll_greedy (leaves syms).length h0 (shapedForest_initial syms)
    (by simp [initialBuilder])
  obtain ⟨t, ht, htn, htl, -⟩ := trainedArena_forest syms
  have hfreq : (initialBuilder syms).live.map (freqAt (initialBuilder syms).nodes) =
      (trainedAlphabet syms).map (histogram syms) := by
    refine List.ext_getElem (by simp [initialBuilder, leaves]) fun j h1 h2 => ?_
    have hj : j < (trainedAlphabet syms).length := by simpa using h2
    have := (h0.leaf j hj).2.2.1
    simpa [initialBuilder] using this
  have hroot : root = (trainedArena syms).length - 1 := by
    obtain ⟨h1, h2⟩ := h0.mergeAll (leaves syms).length (by simp [initialBuilder])
    by_contra hne
    have hpos : 0 < (trainedArena syms).length := by
      have := h1.atLeast
      have e : (mergeAll (leaves syms).length (initialBuilder syms)).nodes = trainedArena syms := rfl
      rw [e] at this; omega
    obtain ⟨p, hp1, hp2, -⟩ := h1.dead ((trainedArena syms).length - 1) (by
      have e : (mergeAll (leaves syms).length (initialBuilder syms)).nodes = trainedArena syms := rfl
      rw [e]; omega) (by rw [hr, List.mem_singleton]; exact fun hc => hne hc.symm)
    have e : (mergeAll (leaves syms).length (initialBuilder syms)).nodes = trainedArena syms := rfl
    rw [e] at hp2
    omega
  refine ⟨c, tree, by rwa [hfreq] at hg, by rw [← hroot]; exact hsh, hv, ?_⟩
  rw [hcost]
  have hz : ((initialBuilder syms).live.map fun n =>
      ParseTree.cost (histogram syms) (.leaf ((trainedAlphabet syms).getD n 0))).sum = 0 := by
    refine List.sum_eq_zero fun x hx => ?_
    obtain ⟨n, -, rfl⟩ := List.mem_map.1 hx
    simp [ParseTree.cost, ParseTree.paths]
  rw [hz, Nat.zero_add]

end Sys2Proof.Machine
end

