-- ==== Sys2Proof/Laws/Codewords.lean ====
section
/-! SUPPORT. The codewords of a tree are the paths of its shape (R75, R111), so that they depend on the shape alone (R139),
and their weighted length is the shape's cost (R105, R117). -/

namespace Sys2Proof.Machine

variable {nodes : List Node} {aidx : List Nat} {root k : Nat}

/-- One path leads from the root to a node. -/
theorem TreeOK.follow_unique (h : TreeOK nodes aidx root k) {n : Nat} {a b : List Bool} (ha : follow nodes root a = some n)
    (hb : follow nodes root b = some n) : a = b := by
  have hlen : a.length = b.length := by
    have h1 := h.follow_depth (d := 0) rfl ha
    have h2 := h.follow_depth (d := 0) rfl hb
    have := ancestor_unique h.rootParent h1 h2
    omega
  induction a using List.reverseRecOn generalizing b n with
  | nil => exact (List.length_eq_zero_iff.1 hlen.symm).symm
  | append_singleton a x ih =>
    rcases List.eq_nil_or_concat b with rfl | ⟨b, y, rfl⟩
    · simp at hlen
    · have last {c : List Bool} {z : Bool} (hc : follow nodes root (c ++ [z]) = some n) :
          ∃ p, follow nodes root c = some p ∧ Machine.childOf nodes p z = some n ∧ parentAt nodes n = some p ∧
            kindAt nodes p = some .internal := by
        rw [follow_append] at hc
        cases hp : follow nodes root c with
        | none => simp [hp] at hc
        | some p =>
          rw [hp, Option.bind_some] at hc
          cases hq : Machine.childOf nodes p z with
          | none => simp [follow, hq] at hc
          | some q =>
            obtain rfl : q = n := by simpa [follow, hq] using hc
            have hpl : p < nodes.length := by
              by_contra hge
              have hnone := List.getElem?_eq_none (Nat.not_lt.1 hge)
              cases z <;> simp [Machine.childOf, leftAt, rightAt, hnone] at hq
            rcases kindAt_cases p hpl with hk | hk
            · rw [h.leaf_childOf hk] at hq; simp at hq
            · obtain ⟨m, -, hm, hpm⟩ := h.childOf hk z
              obtain rfl : q = m := by rw [hq] at hm; exact Option.some.inj hm
              exact ⟨p, rfl, hq, hpm, hk⟩
      obtain ⟨p, hp, hcp, hpp, hk⟩ := last ha
      obtain ⟨q, hq, hcq, hpq, -⟩ := last (by simpa using hb)
      obtain rfl : p = q := by rw [hpp] at hpq; exact Option.some.inj hpq
      obtain rfl := ih hp hq (by simpa using hlen)
      rw [h.childOf_inj hcp hcq hk]
      simp

/-- A path that ends at a leaf is one of the shape's. -/
theorem ParseTree.path_of_follow (h : TreeOK nodes aidx root k) {t : ParseTree} {n m : Nat} {c : List Bool}
    (hs : Shaped nodes t n) (hf : follow nodes n c = some m) (hm : kindAt nodes m = some .leaf) {v : Byte}
    (hv : valueAt nodes m = some v) : (v, c) ∈ t.paths := by
  induction t generalizing n c with
  | leaf u =>
    obtain ⟨rfl, rfl⟩ := h.follow_leaf hs.1 hf
    obtain rfl : u = v := Option.some.inj (hs.2.symm.trans hv)
    simp [ParseTree.paths]
  | node l r hl hr =>
    obtain ⟨h0, a, b, h1, h2, h3, h4⟩ := hs
    rcases c with _ | ⟨bit, c⟩
    · obtain rfl : n = m := by simpa [follow] using hf
      rw [h0] at hm; simp at hm
    · cases bit
      · have hf' : follow nodes a c = some m := by simpa [follow, Machine.childOf, h1] using hf
        simp only [ParseTree.paths, List.mem_append, List.mem_map, Prod.mk.injEq]
        exact .inl ⟨_, hl h3 hf', rfl, rfl⟩
      · have hf' : follow nodes b c = some m := by simpa [follow, Machine.childOf, h2] using hf
        simp only [ParseTree.paths, List.mem_append, List.mem_map, Prod.mk.injEq]
        exact .inr ⟨_, hr h4 hf', rfl, rfl⟩

section

variable {s : State} {t : ParseTree}

/-- The alphabet of a tree is the leaf values of its shape. -/
theorem inAlphabet_iff (h : TreeReady s) (hs : Shaped s.arena t s.root.toNat) (v : Byte) :
    InAlphabet s.arena v ↔ v ∈ t.values := by
  constructor
  · rintro ⟨n, hn, hk, hv⟩
    obtain ⟨c, -, -, -, hf⟩ := codeOf_spec h.2.2 hn
    rw [← t.paths_values]
    exact List.mem_map.2 ⟨_, ParseTree.path_of_follow h.2.2 hs hf hk hv, rfl⟩
  · intro hv
    rw [← t.paths_values] at hv
    obtain ⟨⟨u, p⟩, hp, rfl⟩ := List.mem_map.1 hv
    obtain ⟨m, -, hk, hval⟩ := ParseTree.follow_path hs hp
    exact ⟨m, kindAt_lt hk, hk, hval⟩

/-- The codeword of a value is its path in the shape (R75, R111). -/
theorem codeword_eq_path (h : TreeReady s) (hs : Shaped s.arena t s.root.toNat) {v : Byte} {p : List Bool}
    (hp : (v, p) ∈ t.paths) : codeword s v = p ∧ symbolCode s v = some p := by
  obtain ⟨m, hf, hk, hv⟩ := ParseTree.follow_path hs hp
  obtain ⟨n, hkn, hvn, -, -, hsc, hfn, -⟩ := codeword_spec h ⟨m, kindAt_lt hk, hk, hv⟩
  obtain rfl := h.2.2.leaf_unique hk hkn hv hvn
  have := h.2.2.follow_unique hfn hf
  exact ⟨this, by rw [hsc, this]⟩

/-- Codes depend on the shape alone: two states whose trees have one shape have one code (R139, R197). -/
theorem symbolCode_of_shape {s' : State} (h : TreeReady s) (h' : TreeReady s') (hs : Shaped s.arena t s.root.toNat)
    (hs' : Shaped s'.arena t s'.root.toNat) (v : Byte) : symbolCode s v = symbolCode s' v := by
  by_cases hv : v ∈ t.values
  · rw [← t.paths_values] at hv
    obtain ⟨⟨u, p⟩, hp, rfl⟩ := List.mem_map.1 hv
    rw [(codeword_eq_path h hs hp).2, (codeword_eq_path h' hs' hp).2]
  · have h1 := mt (inAlphabet_iff h hs v).1 hv
    have h2 := mt (inAlphabet_iff h' hs' v).1 hv
    rcases lookup_spec h v with ⟨n, -, hn, hk, hval⟩ | ⟨hl, -⟩
    · exact absurd ⟨n, hn, hk, hval⟩ h1
    · rcases lookup_spec h' v with ⟨n, -, hn, hk, hval⟩ | ⟨hl', -⟩
      · exact absurd ⟨n, hn, hk, hval⟩ h2
      · simp [symbolCode, hl, hl']

/-- The cost of a shape is the weighted length of its code (R105). -/
theorem cost_eq_weightedLength (h : TreeReady s) (hs : Shaped s.arena t s.root.toNat) (w : Byte → Nat) :
    t.cost w = (t.values.map fun v => w v * (codeword s v).length).sum := by
  rw [← t.paths_values, List.map_map, ParseTree.cost]
  congr 1
  refine List.map_congr_left fun x hx => ?_
  obtain ⟨v, p⟩ := x
  simp [(codeword_eq_path h hs hx).1]

end

end Sys2Proof.Machine
end

