-- ==== Sys2Proof/Laws/PerInstr.lean ====
section
/-! SUPPORT. Facts made instruction by instruction, for the host's case split. -/

namespace Sys2Proof.Laws.WordFits

/-- An instruction's word is one byte, and fits the number of bits the opcode table gives its space (R70, R72, R75, R77). -/
def Statement (i : Instr) : Prop :=
  (encode i).length = 1 ∧ (encodeByte i).toNat < 2 ^ wordBits (spaceOf i)

theorem nop : Statement .nop := by unfold Statement; decide
theorem clear : Statement .clear := by unfold Statement; decide
theorem train : Statement .train := by unfold Statement; decide
theorem tser : Statement .tser := by unfold Statement; decide
theorem encode : Statement .encode := by unfold Statement; decide
theorem compress : Statement .compress := by unfold Statement; decide
theorem tdes : Statement .tdes := by unfold Statement; decide
theorem decode : Statement .decode := by unfold Statement; decide
theorem expand : Statement .expand := by unfold Statement; decide
theorem codeword : Statement .codeword := by unfold Statement; decide
theorem reservedA : Statement .reservedA := by unfold Statement; decide
theorem reservedB : Statement .reservedB := by unfold Statement; decide
theorem reservedC : Statement .reservedC := by unfold Statement; decide
theorem reservedD : Statement .reservedD := by unfold Statement; decide
theorem reservedE : Statement .reservedE := by unfold Statement; decide
theorem reservedF : Statement .reservedF := by unfold Statement; decide
theorem treeInternal : Statement .treeInternal := by unfold Statement; decide
theorem treeLeaf (v : Byte) : Statement (.treeLeaf v) := ⟨rfl, v.isLt⟩
theorem codeLeft : Statement .codeLeft := by unfold Statement; decide
theorem codeRight : Statement .codeRight := by unfold Statement; decide
theorem msgByte (b : Byte) : Statement (.msgByte b) := ⟨rfl, b.isLt⟩

end Sys2Proof.Laws.WordFits
end

