-- ==== Sys2Proof/Laws/Rebuild.lean ====
section
/-! SUPPORT. What TDES leaves for an artifact that begins with a legal tree: a well-formed tree of that shape (R135, R138). -/

namespace Sys2Proof.Machine

variable {nodes : List Node}

theorem length_le_of_nodup_legal {vs : List Byte} (h : vs.Nodup) (hm : marker ∉ vs) : vs.length ≤ 255 := by
  rw [← symbolValues_length]
  exact (List.subperm_of_subset h fun v hv => (mem_symbolValues v).2 fun hc => hm (hc ▸ hv)).length_le

/-- A byte that occurs at two places of a derivation is the marker, if its leaf values are distinct. -/
theorem ParseTree.byte_unique {t : ParseTree} (hm : marker ∉ t.values) (hnd : t.values.Nodup) {i j : Nat} {v : Byte}
    (hi : t.bytes[i]? = some v) (hj : t.bytes[j]? = some v) (hv : v ≠ marker) : i = j := by
  rw [← t.values_eq hm] at hnd
  by_contra hne
  wlog hlt : i < j generalizing i j
  · exact this hj hi (Ne.symm hne) (by omega)
  obtain ⟨hil, hi⟩ := List.getElem?_eq_some_iff.1 hi
  obtain ⟨hjl, hj⟩ := List.getElem?_eq_some_iff.1 hj
  have hsplit : t.bytes = t.bytes.take j ++ t.bytes.drop j := (List.take_append_drop j _).symm
  rw [hsplit, List.filter_append, List.nodup_append] at hnd
  refine hnd.2.2 v ?_ v ?_ rfl
  · refine List.mem_filter.2 ⟨List.mem_iff_getElem.2 ⟨i, by simp; omega, by simp [hi]⟩, by simpa using hv⟩
  · refine List.mem_filter.2 ⟨List.mem_iff_getElem.2 ⟨0, by simp; omega, by simp [hj]⟩, by simpa using hv⟩

/-- A placed derivation with distinct leaf values is a well-formed tree, with the index of R135 (R40). -/
theorem treeOK_of_placed {l r : ParseTree} (h : Placed nodes none (.node l r) 0)
    (hlen : nodes.length = (ParseTree.node l r).bytes.length) (hm : marker ∉ (ParseTree.node l r).values)
    (hnd : (ParseTree.node l r).values.Nodup) :
    TreeOK nodes (leafIndex nodes) 0 (ParseTree.node l r).values.length := by
  generalize ht : ParseTree.node l r = t at *
  have hent : ∀ m < nodes.length, EntryOK nodes t 0 m := fun m hm => h.entry (by omega) (by omega)
  have hsz := t.bytes_length
  have h2 : 2 ≤ t.values.length := by
    have h1 := l.values_length_pos
    have h2 := r.values_length_pos
    subst ht; simp only [ParseTree.values, List.length_append]; omega
  have h255 := length_le_of_nodup_legal hnd hm
  obtain ⟨hperm, hsorted⟩ := leafIndex_spec nodes
  have hmem (n : Nat) : n ∈ leafIndex nodes ↔ n < nodes.length ∧ kindAt nodes n = some .leaf := by
    rw [hperm.mem_iff]; simp
  have hcount : leafCount nodes = t.values.length := by
    unfold leafCount
    have hc : t.bytes.countP (· != marker) = t.values.length := t.leaves hm
    rw [← hc, ← List.countP_eq_length_filter]
    have hr : t.bytes.map (fun b => b != marker) = (List.range nodes.length).map fun n => decide (kindAt nodes n = some .leaf) := by
      refine List.ext_getElem (by simp [hlen]) fun j h1 h2 => ?_
      have hj : j < t.bytes.length := by simpa using h1
      have hk := (hent j (by omega)).leafKind hm
      simp only [Nat.sub_zero, List.getElem?_eq_getElem hj, ne_eq, Option.some.injEq] at hk
      simp only [List.getElem_map, List.getElem_range, hk]
      by_cases hb : t.bytes[j] = marker <;> simp [hb]
    have hcp {α : Type} (p : α → Bool) (l : List α) : l.countP p = (l.map p).countP id := by
      rw [List.countP_map]; rfl
    rw [hcp, hcp (fun b => b != marker), hr]
  have hval {n : Nat} (hn : n < nodes.length) (hk : kindAt nodes n = some .leaf) :
      ∃ v, valueAt nodes n = some v ∧ t.bytes[n]? = some v ∧ v ≠ marker := by
    have e := hent n hn
    have hb : n < t.bytes.length := by omega
    refine ⟨t.bytes[n], ?_, List.getElem?_eq_getElem hb, ?_⟩
    · rw [e.byte, Nat.sub_zero, List.getElem?_eq_getElem hb]
    · have := (e.leafKind hm).1 hk
      rw [Nat.sub_zero, List.getElem?_eq_getElem hb] at this
      simpa using this
  refine ⟨h2, h255, by omega, by omega, ?_, h.parent, ?_, ?_, ?_, hcount, ?_, ?_, ?_, ?_, ?_, ?_, ?_, ?_⟩
  · subst ht; simp [kindAt, h.1]
  · intro n hn hne
    obtain ⟨q, h1, h2, h3⟩ := (hent n hn).linked hne
    exact ⟨q, by omega, h3⟩
  · intro n hn hk
    obtain ⟨-, a, b, x1, x2, x3, x4, x5⟩ := (hent n hn).internalShape hk
    exact ⟨a, by omega, b, by omega, x5⟩
  · intro n hn
    obtain ⟨d, hd, ha⟩ := (hent n hn).depth
    exact ⟨d, by simp only [maxCw]; omega, ha⟩
  · intro n hn hk
    obtain ⟨v, hv, -, hvm⟩ := hval hn hk
    rw [hv]; simpa using hvm
  · intro m hm' n hn hkm hkn hv
    obtain ⟨v, hv1, hb1, hvm⟩ := hval hm' hkm
    obtain ⟨w, hw1, hb2, -⟩ := hval hn hkn
    rw [hv1, hw1] at hv
    obtain rfl := Option.some.inj hv
    exact ParseTree.byte_unique hm hnd hb1 hb2 hvm
  · exact fun n hn => (hent n hn).leafShape
  · exact fun n hn hk => ((hent n hn).internalShape hk).1
  · rw [hperm.length_eq]; exact hcount
  · exact fun n hn => (hmem n).1 hn
  · exact fun n hn hk => (hmem n).2 ⟨hn, hk⟩
  · have hnodup : (leafIndex nodes).Nodup := hperm.nodup_iff.2 (List.nodup_range.filter _)
    rw [List.pairwise_map]
    refine List.Pairwise.imp_of_mem (R := fun i j => (valueAt nodes i).getD 0 ≤ (valueAt nodes j).getD 0 ∧ i ≠ j)
      (fun {i j} hi hj hle => ?_) (hsorted.and hnodup)
    obtain ⟨hin, hik⟩ := (hmem i).1 hi
    obtain ⟨hjn, hjk⟩ := (hmem j).1 hj
    obtain ⟨v, hv1, hb1, hvm⟩ := hval hin hik
    obtain ⟨w, hw1, hb2, -⟩ := hval hjn hjk
    rw [hv1, hw1] at hle ⊢
    simp only [Option.getD_some] at hle ⊢
    have hvw : v ≠ w := fun heq => hle.2 (ParseTree.byte_unique hm hnd hb1 (heq ▸ hb2) hvm)
    have h1 := BitVec.le_def.1 hle.1
    have h2 : v.toNat ≠ w.toNat := fun hc => hvw (BitVec.eq_of_toNat_eq hc)
    rw [BitVec.lt_def]; omega

/-- The deserializer on a legal tree: it stops after the tree's last byte, with the tree in its nodes (R138). -/
theorem deserialize_tree {l r : ParseTree} (hm : marker ∉ (ParseTree.node l r).values)
    (hnd : (ParseTree.node l r).values.Nodup) (artLen : Nat) (more : List Byte) :
    ∃ c, deserialize artLen (l.bytes ++ (r.bytes ++ more)) deserStart = .ok c ∧ c.stk = [] ∧
      c.ap = (ParseTree.node l r).bytes.length ∧ c.nodes.length = (ParseTree.node l r).bytes.length ∧
      Placed c.nodes none (.node l r) 0 := by
  have h255 := length_le_of_nodup_legal hnd hm
  simp only [ParseTree.values, List.mem_append, not_or, List.length_append] at hm h255
  have hnd' := List.nodup_append.1 hnd
  have hrp := r.values_length_pos
  obtain ⟨c1, e1, g1⟩ := deser_subtree l hm.1 hnd'.1 deserStart { par := 0, rem := 2 } [] rfl (by decide)
    (fun v _ => by simp [deserStart]) (by simp only [deserStart, maxInt]; omega) artLen (r.bytes ++ more)
  have hs1 : c1.stk = [{ par := 0, rem := 1 }] := by rw [g1.stk]; simp
  have hn1 := g1.nint
  have hl1 : c1.nodes.length = 1 + l.bytes.length := by rw [g1.length]; rfl
  simp only [deserStart] at hn1
  obtain ⟨c2, e2, g2⟩ := deser_subtree r hm.2 hnd'.2.1 c1 { par := 0, rem := 1 } [] hs1 (by simp only; omega)
    (fun v hv hc => by
      rcases (g1.seen v).1 hc with h | h
      · exact hnd'.2.2 v h v hv rfl
      · simp [deserStart] at h) (by simp only [maxInt]; omega) artLen more
  have hs2 : c2.stk = [] := by rw [g2.stk]; simp
  refine ⟨c2, ?_, hs2, ?_, ?_, ?_, ?_, ?_⟩
  · rw [e1, e2]
    cases more <;> simp [deserialize, hs2]
  · have := g1.ap
    simp only [deserStart] at this
    rw [g2.ap, this]; simp only [ParseTree.bytes, List.length_cons, List.length_append]; omega
  · rw [g2.length, hl1]; simp only [ParseTree.bytes, List.length_cons, List.length_append]; omega
  · have h2 := g2.parent
    have h1 := g1.parent
    simp only [linkChild, if_true, setLeft, deserStart, List.getElem?_modify] at h1
    simp only [linkChild, if_false, setRight, List.getElem?_modify, OfNat.one_ne_ofNat, hl1] at h2
    rw [h2, h1]
    simp [newInternal]
  · have := g1.placed
    refine Placed.congr (nodes := c1.nodes) this fun m h1 h2 => g2.others m (by omega) (by simp only; omega)
  · have := g2.placed
    rw [hl1] at this
    simpa [Nat.add_comm] using this

/-! ### The deserializer in the middle of a tree (R136, R137) -/

/-- What holds of the deserializer after the bytes `done`, all of them legal: as many children are lacking as the bytes leave
open, and the counts, the cursor and the values met are those of the bytes. -/
structure DeserOK (c : DeserCtx) (done : List Byte) : Prop where
  lacking : (c.stk.map (·.rem)).sum + done.countP (· != marker) = done.countP (· == marker) + 1
  open_ : ∀ e ∈ c.stk, (e.rem = 1 ∨ e.rem = 2) ∧ e.par < c.nodes.length
  nint : c.nint = done.countP (· == marker)
  few : done.countP (· == marker) ≤ maxInt
  ap : c.ap = done.length
  nodes : c.nodes.length = done.length
  seen : ∀ v, v ∈ c.seen ↔ v ≠ marker ∧ v ∈ done
  distinct : (done.filter (· != marker)).Nodup

theorem deserOK_start : DeserOK deserStart [marker] where
  lacking := by decide
  open_ := by decide
  nint := by decide
  few := by decide
  ap := by decide
  nodes := by decide
  seen := fun v => by simp [deserStart]
  distinct := by decide

/-- The stacks are empty exactly when the bytes are complete (R134). -/
theorem DeserOK.stk_eq_nil {c : DeserCtx} {done : List Byte} (h : DeserOK c done) :
    c.stk = [] ↔ done.countP (· == marker) < done.countP (· != marker) := by
  have hl := h.lacking
  constructor
  · intro hs
    rw [hs] at hl; simp at hl; omega
  · intro hlt
    cases hs : c.stk with
    | nil => rfl
    | cons e rest =>
      have := (h.open_ e (by simp [hs])).1
      rw [hs, List.map_cons, List.sum_cons] at hl
      omega

/-- A legal byte keeps it. -/
theorem DeserOK.step {c : DeserCtx} {done : List Byte} (h : DeserOK c done) (hs : c.stk ≠ []) {b : Byte} {c' : DeserCtx}
    (hb : takeTreeByte c b = .ok c') : DeserOK c' (done ++ [b]) := by
  rcases takeTreeByte_cases c b with ⟨-, -, he⟩ | ⟨-, -, he⟩ | ⟨hm, hv, he⟩
  · rw [he] at hb; simp at hb
  · rw [he] at hb; simp at hb
  rw [he] at hb
  obtain rfl : deserStep c b = c' := by simpa using hb
  cases hstk : c.stk with
  | nil => exact absurd hstk hs
  | cons top rest =>
  obtain ⟨hrem, hpar⟩ := h.open_ top (by simp [hstk])
  have hrest : ∀ e ∈ rest, (e.rem = 1 ∨ e.rem = 2) ∧ e.par < c.nodes.length := fun e he => h.open_ e (by simp [hstk, he])
  have hl := h.lacking
  rw [hstk, List.map_cons, List.sum_cons] at hl
  have hpop : ((if top.rem - 1 = 0 then rest else { par := top.par, rem := top.rem - 1 } :: rest).map (·.rem)).sum + 1
      = top.rem + (rest.map (·.rem)).sum := by
    rcases hrem with h1 | h1 <;> simp [h1] <;> omega
  have hopen : ∀ e ∈ (if top.rem - 1 = 0 then rest else { par := top.par, rem := top.rem - 1 } :: rest),
      (e.rem = 1 ∨ e.rem = 2) ∧ e.par < c.nodes.length + 1 := by
    intro e he
    rcases hrem with h1 | h1
    · simp only [h1, Nat.sub_self, if_true] at he
      exact ⟨(hrest e he).1, by have := (hrest e he).2; omega⟩
    · simp only [h1, Nat.add_one_sub_one, Nat.one_ne_zero, if_false, List.mem_cons] at he
      rcases he with rfl | he
      · exact ⟨.inl rfl, by simp only; omega⟩
      · exact ⟨(hrest e he).1, by have := (hrest e he).2; omega⟩
  by_cases hbm : b = marker
  · subst hbm
    have hn := hm rfl
    have hfew := h.few
    have hni := h.nint
    rw [deserStep_marker hstk]
    constructor
    · simp only [List.map_cons, List.sum_cons, List.countP_append, List.countP_cons, List.countP_nil, bne_self_eq_false,
        beq_self_eq_true, if_true, Bool.false_eq_true, if_false]
      omega
    · intro e he
      simp only [List.length_append, linkChild_length, List.length_singleton]
      rcases List.mem_cons.1 he with rfl | he
      · exact ⟨.inr rfl, by simp only; omega⟩
      · exact hopen e he
    · simp [hni, List.countP_append]
    · simp only [List.countP_append, List.countP_cons, List.countP_nil, beq_self_eq_true, if_true]; omega
    · simp [h.ap]
    · simp [h.nodes]
    · intro v
      simp only [h.seen v, List.mem_append, List.mem_singleton]
      tauto
    · rw [List.filter_append]; simpa using h.distinct
  · have hvs := hv hbm
    have hnot : b ∉ done := fun hc => hvs ((h.seen b).2 ⟨hbm, hc⟩)
    rw [deserStep_leaf hstk hbm]
    constructor
    · have hbq : (b != marker) = true := by simpa using hbm
      have hbe : (b == marker) = false := by simpa using hbm
      simp only [List.countP_append, List.countP_cons, List.countP_nil, hbq, hbe, if_true, Bool.false_eq_true, if_false]
      omega
    · intro e he
      simp only [List.length_append, linkChild_length, List.length_singleton]
      exact hopen e he
    · simp [h.nint, List.countP_append, hbm]
    · have hbe : (b == marker) = false := by simpa using hbm
      simp only [List.countP_append, List.countP_cons, List.countP_nil, hbe, Bool.false_eq_true, if_false]
      exact h.few
    · simp [h.ap]
    · simp [h.nodes]
    · intro v
      simp only [List.mem_cons, h.seen v, List.mem_append, List.not_mem_nil, or_false]
      constructor
      · rintro (rfl | ⟨h1, h2⟩)
        · exact ⟨hbm, .inr rfl⟩
        · exact ⟨h1, .inl h2⟩
      · rintro ⟨h1, h2 | rfl⟩
        · exact .inr ⟨h1, h2⟩
        · exact .inl rfl
    · have hbq : (b != marker) = true := by simpa using hbm
      rw [List.filter_append, List.nodup_append]
      refine ⟨h.distinct, by simp [hbq], fun x hx y hy => ?_⟩
      simp only [List.filter_cons, hbq, if_true, List.filter_nil, List.mem_singleton] at hy
      subst hy
      rintro rfl
      exact hnot (List.mem_filter.1 hx).1

/-- The loop over bytes that leave the tree incomplete, with no defect M4 or M5 among them. -/
theorem deserialize_run (artLen : Nat) (more bs : List Byte) {c : DeserCtx} {done : List Byte} (h : DeserOK c done)
    (hopen : ∀ m < bs.length, ((done ++ bs.take m)).countP (· != marker) ≤ (done ++ bs.take m).countP (· == marker))
    (hfew : (done ++ bs).countP (· == marker) ≤ maxInt) (hnd : ((done ++ bs).filter (· != marker)).Nodup) :
    ∃ c', deserialize artLen (bs ++ more) c = deserialize artLen more c' ∧ DeserOK c' (done ++ bs) := by
  induction bs generalizing c done with
  | nil => exact ⟨c, rfl, by simpa using h⟩
  | cons b bs ih =>
    have hs : c.stk ≠ [] := fun hc => by
      have h1 := h.stk_eq_nil.1 hc
      have h2 := hopen 0 (by simp)
      simp only [List.take_zero, List.append_nil] at h2
      omega
    have hok : takeTreeByte c b = .ok (deserStep c b) := by
      rcases takeTreeByte_cases c b with ⟨rfl, hn, -⟩ | ⟨hb, hseen, -⟩ | ⟨-, -, he⟩
      · exfalso
        rw [h.nint] at hn
        simp only [List.countP_append, List.countP_cons, beq_self_eq_true, if_true] at hfew
        omega
      · exfalso
        have hbq : (b != marker) = true := by simpa using hb
        rw [List.filter_append, List.filter_cons, if_pos hbq, List.nodup_append] at hnd
        exact hnd.2.2 b (List.mem_filter.2 ⟨((h.seen b).1 hseen).2, hbq⟩) b (by simp) rfl
      · exact he
    have hassoc : done ++ b :: bs = (done ++ [b]) ++ bs := by simp
    obtain ⟨c', he, hc'⟩ := ih (h.step hs hok) (fun m hm => by
      have := hopen (m + 1) (by simpa using hm)
      simpa using this) (by rwa [← hassoc]) (by rwa [← hassoc])
    exact ⟨c', by simp [deserialize, hs, hok, he], by rwa [hassoc]⟩

/-- When the loop ends in a defect (R137), every byte it has read was legal and left the tree incomplete, and the defect is M3,
M4 or M5 at the next. -/
theorem deserialize_error (artLen : Nat) (bs : List Byte) {c : DeserCtx} {done : List Byte} (h : DeserOK c done) {pos : Nat}
    {val : Byte} (hd : deserialize artLen bs c = .error (pos, val)) :
    ∃ read more, bs = read ++ more ∧ (done ++ read).countP (· == marker) ≤ maxInt ∧
      ((done ++ read).filter (· != marker)).Nodup ∧
      (∀ m ≤ read.length, (done ++ read.take m).countP (· != marker) ≤ (done ++ read.take m).countP (· == marker)) ∧
      ((more = [] ∧ pos = artLen ∧ val = 0) ∨
       ∃ b tail, more = b :: tail ∧ pos = (done ++ read).length ∧
        ((b = marker ∧ (done ++ read).countP (· == marker) = maxInt ∧ val = 0) ∨
         (b ≠ marker ∧ b ∈ done ++ read ∧ val = b))) := by
  induction bs generalizing c done with
  | nil =>
    have hs : c.stk ≠ [] := fun hs => by simp [deserialize, hs] at hd
    simp only [deserialize, hs, if_false, Except.error.injEq, Prod.mk.injEq] at hd
    have := mt h.stk_eq_nil.2 hs
    exact ⟨[], [], rfl, by simpa using h.few, by simpa using h.distinct, fun m _ => by simpa using this,
      .inl ⟨rfl, hd.1.symm, hd.2.symm⟩⟩
  | cons b bs ih =>
    have hs : c.stk ≠ [] := fun hs => by simp [deserialize, hs] at hd
    have hopen := mt h.stk_eq_nil.2 hs
    simp only [deserialize, hs, if_false] at hd
    cases ht : takeTreeByte c b with
    | error e =>
      obtain rfl : e = (pos, val) := by simpa [ht] using hd
      refine ⟨[], b :: bs, rfl, by simpa using h.few, by simpa using h.distinct, fun m _ => by simpa using hopen,
        .inr ⟨b, bs, rfl, ?_⟩⟩
      rcases takeTreeByte_cases c b with ⟨hb, hn, he⟩ | ⟨hb, hn, he⟩ | ⟨-, -, he⟩ <;> rw [ht] at he
      · simp only [Except.error.injEq, Prod.mk.injEq] at he
        exact ⟨by simp [he.1, h.ap], .inl ⟨hb, by simpa [← h.nint] using hn, he.2⟩⟩
      · simp only [Except.error.injEq, Prod.mk.injEq] at he
        exact ⟨by simp [he.1, h.ap], .inr ⟨hb, by simpa using ((h.seen b).1 hn).2, he.2⟩⟩
      · simp at he
    | ok c1 =>
      rw [ht] at hd
      obtain ⟨read, more, hbs, hfew, hnd, hop, hcase⟩ := ih (h.step hs ht) hd
      have hassoc : done ++ b :: read = (done ++ [b]) ++ read := by simp
      refine ⟨b :: read, more, by simp [hbs], by rwa [hassoc], by rwa [hassoc], fun m hm => ?_, by rwa [hassoc]⟩
      cases m with
      | zero => simpa using hopen
      | succ m =>
        have := hop m (by simpa using hm)
        simpa using this

/-- When the loop ends without a defect, the bytes it has read complete a tree, with distinct leaf values, and none of their
beginnings does (R138). -/
theorem deserialize_ok (artLen : Nat) (bs : List Byte) {c c' : DeserCtx} {done : List Byte} (h : DeserOK c done)
    (hd : deserialize artLen bs c = .ok c') :
    ∃ read more, bs = read ++ more ∧ DeserOK c' (done ++ read) ∧ c'.stk = [] ∧
      ∀ m < read.length, (done ++ read.take m).countP (· != marker) ≤ (done ++ read.take m).countP (· == marker) := by
  induction bs generalizing c done with
  | nil =>
    by_cases hs : c.stk = []
    · obtain rfl : c = c' := by simpa [deserialize, hs] using hd
      exact ⟨[], [], rfl, by simpa using h, hs, by simp⟩
    · simp [deserialize, hs] at hd
  | cons b bs ih =>
    by_cases hs : c.stk = []
    · obtain rfl : c = c' := by simpa [deserialize, hs] using hd
      exact ⟨[], b :: bs, rfl, by simpa using h, hs, by simp⟩
    · cases ht : takeTreeByte c b with
      | error e => simp [deserialize, hs, ht] at hd
      | ok c1 =>
        simp only [deserialize, hs, if_false, ht] at hd
        obtain ⟨read, more, hbs, hok, hs', hop⟩ := ih (h.step hs ht) hd
        refine ⟨b :: read, more, by simp [hbs], by simpa using hok, hs', fun m hm => ?_⟩
        cases m with
        | zero =>
          have := mt h.stk_eq_nil.2 hs
          simp only [List.take_zero, List.append_nil]; omega
        | succ m =>
          have := hop m (by simpa using hm)
          simpa using this

end Sys2Proof.Machine
end

