-- ==== Sys2Proof/Tests/Slice0.lean ====
section
/-! SUPPORT. The model's own tests, and a witness for the hypotheses of every statement. The expected values are the spec's
own words and vectors (95_test_vectors.md); each test names the vector. -/

set_option Elab.async false

namespace Sys2Proof.Tests

open Sys2Proof Sys2Proof.Machine

/-! ### Well-formedness: each check refuses an ill-formed term -/

theorem smoke_treeLeaf_marker_refused : (Instr.treeLeaf 0x00).wellFormed = false := by decide
theorem smoke_treeLeaf_value_accepted : (Instr.treeLeaf 0xFF).wellFormed = true := by decide

/-! ### Decoding: the words of R70, R72, R75 and R77, written out -/

theorem test_decode_nop : decode .command [0b0000] = .ok (.nop, []) := rfl
theorem test_decode_clear : decode .command [0b0001] = .ok (.clear, []) := rfl
theorem test_decode_train : decode .command [0b0010] = .ok (.train, []) := rfl
theorem test_decode_tser : decode .command [0b0011] = .ok (.tser, []) := rfl
theorem test_decode_encode : decode .command [0b0100] = .ok (.encode, []) := rfl
theorem test_decode_compress : decode .command [0b0101] = .ok (.compress, []) := rfl
theorem test_decode_tdes : decode .command [0b0110] = .ok (.tdes, []) := rfl
theorem test_decode_decode : decode .command [0b0111] = .ok (.decode, []) := rfl
theorem test_decode_expand : decode .command [0b1000] = .ok (.expand, []) := rfl
theorem test_decode_codeword : decode .command [0b1001] = .ok (.codeword, []) := rfl
theorem test_decode_reservedA : decode .command [0b1010] = .ok (.reservedA, []) := rfl
theorem test_decode_reservedB : decode .command [0b1011] = .ok (.reservedB, []) := rfl
theorem test_decode_reservedC : decode .command [0b1100] = .ok (.reservedC, []) := rfl
theorem test_decode_reservedD : decode .command [0b1101] = .ok (.reservedD, []) := rfl
theorem test_decode_reservedE : decode .command [0b1110] = .ok (.reservedE, []) := rfl
theorem test_decode_reservedF : decode .command [0b1111] = .ok (.reservedF, []) := rfl
theorem test_decode_treeInternal : decode .treeByte [0b00000000] = .ok (.treeInternal, []) := rfl
theorem test_decode_treeLeaf : decode .treeByte [0b01100001, 0x00] = .ok (.treeLeaf 0x61, [0x00]) := rfl
theorem test_decode_codeLeft : decode .codeBit [0b0] = .ok (.codeLeft, []) := rfl
theorem test_decode_codeRight : decode .codeBit [0b1] = .ok (.codeRight, []) := rfl
theorem test_decode_msgByte : decode .message [0b00000101] = .ok (.msgByte 0x05, []) := rfl
theorem test_decode_rejects_wide : decode .command [0x10] = .error .wideCommand := rfl
theorem test_decode_rejects_bit : decode .codeBit [2] = .error .notABit := rfl
theorem test_decode_rejects_nothing : decode .treeByte [] = .error .noWord := rfl

/-! ### Small states -/

/-- The state after reset of an instance with these capacities. -/
def idleCap (symCap artCap : Nat) : State := State.resetWith { symCap := symCap, artCap := artCap } 0 0 []

/-- The state after reset of an instance with 64-byte buffers. -/
def idle : State := idleCap 64 64

/-- `LD SYM` (R83). -/
def withSym (bytes : List Byte) (s : State) : State :=
  { s with sym := Memory.pokeAll s.sym 0 bytes, symLen := BitVec.ofNat 32 bytes.length }

/-- `LD ART` (R83). -/
def withArt (bytes : List Byte) (s : State) : State :=
  { s with art := Memory.pokeAll s.art 0 bytes, artLen := BitVec.ofNat 32 bytes.length }

/-- The tree of vector V5d, trained on `61 62`. -/
def arenaAB : List Node :=
  [Node.mk .leaf 0x61 1 none none (some 2), Node.mk .leaf 0x62 1 none none (some 2),
   Node.mk .internal 0 2 (some 0) (some 1) none]

/-- The tree of vector V5d in place: `a = 0`, `b = 1`. -/
def treeAB (s : State) : State :=
  { s with treeValid := true, alphaSize := 2, nodeCnt := 3, root := 2, arena := arenaAB, aidx := [0, 1] }

/-- The tree of vector V1, trained on `"aaaaabbcd"`. -/
def arenaV1 : List Node :=
  [Node.mk .leaf 0x61 5 none none (some 6), Node.mk .leaf 0x62 2 none none (some 5),
   Node.mk .leaf 0x63 1 none none (some 4), Node.mk .leaf 0x64 1 none none (some 4),
   Node.mk .internal 0 2 (some 2) (some 3) (some 5), Node.mk .internal 0 4 (some 1) (some 4) (some 6),
   Node.mk .internal 0 9 (some 5) (some 0) none]

/-- The tree of vector V1 in place. -/
def treeV1 (s : State) : State :=
  { s with treeValid := true, alphaSize := 4, nodeCnt := 7, root := 6, arena := arenaV1, aidx := [0, 1, 2, 3] }

/-- The bytes of `"aaaaabbcd"`. -/
def bytesV1 : List Byte := [0x61, 0x61, 0x61, 0x61, 0x61, 0x62, 0x62, 0x63, 0x64]

/-- The artifact of vector V19b. -/
def bytesV19b : List Byte := [0x00, 0x61, 0x00, 0x62, 0x63, 0xC6, 0x01]

/-- The tree of vector V19b, numbered in preorder. -/
def arenaV19b : List Node :=
  [Node.mk .internal 0 0 (some 1) (some 2) none, Node.mk .leaf 0x61 0 none none (some 0),
   Node.mk .internal 0 0 (some 3) (some 4) (some 0), Node.mk .leaf 0x62 0 none none (some 2),
   Node.mk .leaf 0x63 0 none none (some 2)]

/-- The state of vector V20: the artifact of V19b after TDES. -/
def stateV20 : State :=
  { withArt bytesV19b idle with
    treeValid := true, alphaSize := 3, nodeCnt := 5, root := 0, arena := arenaV19b, aidx := [1, 3, 4], msgOff := 5 }

/-- The next state of a result. -/
def nextOf : Result → Option State
  | .next s => some s
  | .fault _ => none
  | .refused _ => none

/-- What a next state is asked for. -/
def after {α : Type} (r : Result) (f : State → α) : Option α := (nextOf r).map f

/-! ### One step of each command -/

/-- V21c: the fault code of an earlier command stays. -/
theorem test_nop_keeps_code : nextOf (exec .nop (faulted .illegalCommand 0 0xF idle)) =
    some (faulted .illegalCommand 0 0xF idle) := by decide +kernel

/-- V21e: every register 0, the bytes of `SYM` unchanged. -/
theorem test_clear : after (exec .clear (faulted .illegalCommand 0 0xF (treeV1 (withSym bytesV1 idle))))
    (fun t => (statusWord t, t.errInfo, t.symLen, t.alphaSize, symByte t 8)) = some (0, 0, 0, 0, 0x64) := by decide +kernel

/-- V1: the whole state, the older node winning the tie of step 2. -/
theorem test_train_V1 : nextOf (exec .train (withSym bytesV1 idle)) = some (treeV1 (withSym bytesV1 idle)) := by
  decide +kernel

/-- V5c: the filler leaf 2 is extracted first, and becomes the left child. -/
theorem test_train_V5c : after (exec .train (withSym [1, 1, 1] idle)) (·.arena) =
    some [Node.mk .leaf 1 3 none none (some 2), Node.mk .leaf 2 0 none none (some 2),
      Node.mk .internal 0 3 (some 1) (some 0) none] := by decide +kernel

/-- V8a. -/
theorem test_tser_V8a : after (exec .tser (treeV1 idle)) (fun t => (artifact t, t.artLen, t.msgOff, t.bitLen)) =
    some ([0x00, 0x00, 0x62, 0x00, 0x63, 0x64, 0x61], 7, 7, 0) := by decide +kernel

/-- V8h. -/
theorem test_tser_V8h : after (exec .tser idle) (fun t => (statusWord t, t.artLen)) = some (0x12, 0) := by
  decide +kernel

/-- V9e with `MSG_OFF = 7`: the example of R115. -/
theorem test_encode_V9e : after (exec .encode { treeV1 (withSym bytesV1 idle) with msgOff := 7 })
    (fun t => (artByte t 7, artByte t 8, t.artLen, t.bitLen, Memory.peek t.art 6)) =
    some (0x1F, 0x64, 9, 15, none) := by decide +kernel

/-- V10c: the first offending byte decides. -/
theorem test_encode_V10c : after (exec .encode (treeAB (withSym [0x63, 0x00] idle)))
    (fun t => (statusWord t, t.errInfo, t.art)) = some (0x07, 0x6300000000, []) := by decide +kernel

/-- V13: the singleton input. -/
theorem test_compress_V13 : after (exec .compress (withSym [0x61, 0x61, 0x61, 0x61] idle))
    (fun t => (artifact t, t.msgOff, t.bitLen, statusWord t)) = some ([0x00, 0x01, 0x61, 0x0F], 3, 4, 0x01) := by
  decide +kernel

/-- V24b: a fault in the ENCODE stage keeps what TSER left. -/
theorem test_compress_V24b : after (exec .compress (withSym bytesV1 (idleCap 64 8)))
    (fun t => (statusWord t, artifact t, t.msgOff, t.bitLen)) =
    some (0x17, [0x00, 0x00, 0x62, 0x00, 0x63, 0x64, 0x61], 7, 0) := by decide +kernel

/-- V19d: the index is sorted by value, not by position. -/
theorem test_tdes_V19d : after (exec .tdes (withArt [0x00, 0x62, 0x61, 0x00] idle))
    (fun t => (t.aidx, t.msgOff, t.root, t.alphaSize)) = some ([2, 1], 3, 0, 2) := by decide +kernel

/-- V18g: M5 at the second `61`. -/
theorem test_tdes_V18g : after (exec .tdes (withArt [0x00, 0x00, 0x61, 0x62, 0x00, 0x61, 0x63] idle))
    (fun t => (statusWord t, t.errInfo, t.nodeCnt)) = some (0x0E, 0x6100000005, 0) := by decide +kernel

/-- V20a: the exact message. -/
theorem test_decode_V20a : after (exec .decode { stateV20 with bitLen := 10 }) symbols =
    some [0x61, 0x63, 0x61, 0x61, 0x61, 0x63, 0x62] := by decide +kernel

/-- V20b: the last bit starts a walk that never ends, and is dropped. -/
theorem test_decode_V20b : after (exec .decode { stateV20 with bitLen := 9 }) symbols =
    some [0x61, 0x63, 0x61, 0x61, 0x61, 0x63] := by decide +kernel

/-- V11: pad bits decode to six more symbols. -/
theorem test_expand_V11 : after (exec .expand (withArt [0x00, 0x61, 0x62, 0x02] idle)) symbols =
    some [0x61, 0x62, 0x61, 0x61, 0x61, 0x61, 0x61, 0x61] := by decide +kernel

/-- V24d: a fault in the DECODE stage. -/
theorem test_expand_V24d :
    after (exec .expand (withArt [0x00, 0x61, 0x62, 0xFF, 0x01] (idleCap 8 64)))
    (fun t => (statusWord t, t.msgOff, t.bitLen, t.symLen)) = some (0x17, 3, 16, 0) := by decide +kernel

/-- V7c: `CW_BITS[0] = 0, CW_BITS[1] = 1, CW_BITS[2] = 0`. -/
theorem test_codeword_V7c : after (exec .codeword { treeV1 idle with arg := 0x63 }) (fun t => (t.cwLen, t.cwBits)) =
    some (3, 2) := by decide +kernel

/-- V7e: no such leaf, and the results are cleared. -/
theorem test_codeword_V7e : after (exec .codeword { treeV1 idle with arg := 0x65, cwLen := 3, cwBits := 6 })
    (fun t => (statusWord t, t.errInfo, t.cwLen, t.cwBits)) = some (0x07, 0x6500000000, 0, 0) := by decide +kernel

/-- V21a, and R153 for the other five codes. -/
theorem test_reserved_codes : [Instr.reservedA, .reservedB, .reservedC, .reservedD, .reservedE, .reservedF].map
    (fun i => after (exec i idle) (fun t => (statusWord t, t.errInfo))) =
    [some (0x1E, 0x0A00000000), some (0x1E, 0x0B00000000), some (0x1E, 0x0C00000000), some (0x1E, 0x0D00000000),
     some (0x1E, 0x0E00000000), some (0x1E, 0x0F00000000)] := by decide +kernel

/-! ### One word of each stream, by the example of R136 and the walk of V20 -/

/-- The deserializer after the bytes `00 61` of V19b (R136, example). -/
def deserAfter2 : DeserCtx :=
  { nodes := [Node.mk .internal 0 0 (some 1) none none, Node.mk .leaf 0x61 0 none none (some 0)]
    stk := [{ par := 0, rem := 1 }]
    seen := [0x61]
    nint := 1
    ap := 2 }

/-- V19b while TDES reads its third byte. -/
def readingTree : State := { withArt bytesV19b idle with work := .deser deserAfter2 }

/-- "byte 2 internal `N[2]`, right child of 0, which is popped" (R136, example). -/
theorem test_treeInternal : after (exec .treeInternal readingTree) (·.work) = some (.deser
    { nodes := [Node.mk .internal 0 0 (some 1) (some 2) none, Node.mk .leaf 0x61 0 none none (some 0),
        Node.mk .internal 0 0 none none (some 0)]
      stk := [{ par := 2, rem := 2 }]
      seen := [0x61]
      nint := 2
      ap := 3 }) := by decide +kernel

/-- A leaf there completes the root, and the stacks are empty. -/
theorem test_treeLeaf : after (exec (.treeLeaf 0x62) readingTree) (·.work) = some (.deser
    { nodes := [Node.mk .internal 0 0 (some 1) (some 2) none, Node.mk .leaf 0x61 0 none none (some 0),
        Node.mk .leaf 0x62 0 none none (some 0)]
      stk := []
      seen := [0x62, 0x61]
      nint := 1
      ap := 3 }) := by decide +kernel

/-- M5 at a word: the value was met before. -/
theorem test_treeLeaf_twice : after (exec (.treeLeaf 0x61) readingTree) (fun t => (statusWord t, t.errInfo, t.work)) =
    some (0x0E, 0x6100000002, .idle) := by decide +kernel

/-- V20 while DECODE is at the start of the message. -/
def readingMessage : State := openMessage { stateV20 with bitLen := 10 }

/-- `a = 0`: the left child of the root is a leaf. -/
theorem test_codeLeft : after (exec .codeLeft readingMessage) (·.work) =
    some (.walk { cur := 0, out := [0x61], bi := 1 }) := by decide +kernel

/-- The right child of the root is internal. -/
theorem test_codeRight : after (exec .codeRight readingMessage) (·.work) =
    some (.walk { cur := 2, out := [], bi := 1 }) := by decide +kernel

/-- V20: the byte `C6` is the bits `0 1 1 0 0 0 1 1`. -/
theorem test_msgByte : after (exec (.msgByte 0xC6) readingMessage) (·.work) =
    some (.walk { cur := 0, out := [0x61, 0x63, 0x61, 0x61, 0x61, 0x63], bi := 8 }) := by decide +kernel

/-- Only two bits of the second byte lie below `BIT_LEN` (V20a). -/
theorem test_msgByte_last :
    after (exec (.msgByte 0x01) { readingMessage with work := .walk { cur := 0, out := [], bi := 8 } }) (·.work) =
    some (.walk { cur := 0, out := [0x62], bi := 10 }) := by decide +kernel

/-! ### The host -/

/-- P1's encoding of its first and last writing lines (R82). -/
theorem test_lineTriple : (loadBuffer .sym [0x61] ++ [runCommand .compress]).map lineTriple =
    [some (.sym, 0, 0x61), some (.reg, 3, 1), some (.reg, 0, 0x5)] := by decide +kernel

/-- V21g and V21h. -/
theorem test_host_registers :
    (nextOf (hostAct (.writeReg 1 0xFF) idle), after (hostAct (.readReg 0) idle) (·.hostRead),
      after (hostAct (.writeReg 7 0x162) idle) (·.arg)) = (some idle, some 0, some 0x62) := by decide +kernel

/-- A command placed for the step is the one it runs (V21f, V21a). -/
theorem test_step_runs_word : after (step (State.reset.withFetchWord 8 0xC)) (fun t => (statusWord t, t.input)) =
    some (0x1E, []) := by decide +kernel

/-! ### Witnesses: states and operands that meet the hypotheses of each statement, at the boundaries of its clauses -/

/-- A result whose next state is known. -/
theorem next_of {r : Result} {t : State} (h : nextOf r = some t) : r = .next t := by
  cases r with
  | next s => exact congrArg _ (Option.some.inj h)
  | fault f => exact absurd h (by simp [nextOf])
  | refused x => exact absurd h (by simp [nextOf])

/-- A next state of a result, and what it is asked for. -/
theorem next_with {α : Type} {r : Result} {f : State → α} {x : α} (h : after r f = some x) :
    ∃ t, r = .next t ∧ f t = x := by
  cases r with
  | next s => exact ⟨s, rfl, Option.some.inj h⟩
  | fault k => exact absurd h (by simp [after, nextOf])
  | refused k => exact absurd h (by simp [after, nextOf])

theorem treeOK_AB : TreeOK arenaAB [0, 1] 2 2 where
  alphaLow := by decide
  alphaHigh := by decide
  nodeCount := by decide
  rootBound := by decide
  rootInternal := by decide
  rootParent := by decide
  linked := by decide +kernel
  children := by decide +kernel
  reach := by decide +kernel
  leaves := by decide
  leafValue := by decide
  leafDistinct := fun m hm n hn => by
    have hm : m < 3 := hm
    have hn : n < 3 := hn
    interval_cases m <;> interval_cases n <;> decide
  leafShape := by decide
  internalShape := by decide
  indexSize := by decide
  indexLeaf := by decide
  indexAll := by decide
  indexSorted := by decide

theorem treeOK_V19b : TreeOK arenaV19b [1, 3, 4] 0 3 where
  alphaLow := by decide
  alphaHigh := by decide
  nodeCount := by decide
  rootBound := by decide
  rootInternal := by decide
  rootParent := by decide
  linked := by decide +kernel
  children := by decide +kernel
  reach := by decide +kernel
  leaves := by decide
  leafValue := by decide
  leafDistinct := fun m hm n hn => by
    have hm : m < 5 := hm
    have hn : n < 5 := hn
    interval_cases m <;> interval_cases n <;> decide
  leafShape := by decide
  internalShape := by decide
  indexSize := by decide
  indexLeaf := by decide
  indexAll := by decide
  indexSorted := by decide

theorem ready_treeAB (s : State) : TreeReady (treeAB s) := ⟨rfl, rfl, treeOK_AB⟩

theorem ready_V20 : TreeReady stateV20 := ⟨rfl, rfl, treeOK_V19b⟩

theorem inAlphabet_AB : InAlphabet arenaAB 0x61 ∧ InAlphabet arenaAB 0x62 ∧ ¬ InAlphabet arenaAB 0x63 ∧
    ¬ InAlphabet arenaAB 0x00 := by
  refine ⟨⟨0, by decide⟩, ⟨1, by decide⟩, ?_, ?_⟩ <;> rintro ⟨n, hn, h⟩ <;>
    (have : n < 3 := hn) <;> interval_cases n <;> revert h <;> decide

/-- `61 62` in `SYM` with its tree in place. -/
def readyAB : State := treeAB (withSym [0x61, 0x62] idle)

/-! Encodings. -/

theorem witness_DecodeOfEncode : (Instr.treeLeaf 0xFF).wellFormed = true ∧ (Instr.treeLeaf 0x01).wellFormed = true := by
  decide

theorem witness_EncodeOfDecode : decode .command [0x0F, 0xFF] = .ok (.reservedF, [0xFF]) ∧
    decode .message [] = .error .noWord ∧ decode .command [0x10] = .error .wideCommand ∧
    decode .codeBit [2] = .error .notABit := ⟨rfl, rfl, rfl, rfl⟩

/-! Reset, the host, and the step. -/

/-- The reset input in a state that holds a tree, bytes and a fault: every register 0, the bytes without a value (R185). -/
theorem test_reset : after (hostAct .reset (faulted .badRange 1 2 (treeV1 (withSym bytesV1 idle))))
    (fun t => (statusWord t, t.errInfo, t.symLen, t.nodeCnt, Memory.peek t.sym 0)) = some (0, 0, 0, 0, none) := by
  decide +kernel

theorem witness_ResetAndClearValues : idle.treeValid = false ∧ Instr.codeword ∈ [Instr.tser, .encode, .decode, .codeword] ∧
    (0 : Nat) ≤ 12 ∧ (12 : Nat) ≤ 12 := by decide

theorem witness_ClearResetsRegisters :
    exec .nop (faulted .badRange 0 0 idle) = .next (faulted .badRange 0 0 idle) ∧
    (faulted .badRange 0 0 idle).faultSeen = true ∧ Instr.nop ≠ .clear := ⟨rfl, rfl, by decide⟩

theorem witness_ReservedCodesRaise : 10 ≤ (0xA : BitVec 4).toNat ∧ 10 ≤ (0xF : BitVec 4).toNat := by decide

theorem witness_RegisterReads : registerValue idle 0 = some 0 ∧ registerValue idle 12 = some 0 := by decide

theorem witness_HostRegisterAccess : (1 : Nat) ∈ [1, 2, 8, 9, 10, 11, 12] ∧ 13 ≤ 13 := by decide

theorem witness_BufferAccess : 0 < capacityOf idle.params .sym ∧ 63 < capacityOf idle.params .art ∧
    capacityOf idle.params .sym ≤ 64 ∧ capacityOf idle.params .art ≤ 64 := by decide

/-- A state in which the host is about to run CLEAR and then to read register 0. -/
def aboutToClear : State := { idle with input := [.writeReg 0 1, .readReg 0] }

theorem witness_StepTakesHostAction : idle.work = .idle ∧ idle.input = [] ∧ aboutToClear.work = .idle ∧
    aboutToClear.input = .writeReg 0 1 :: [.readReg 0] := ⟨rfl, rfl, rfl, rfl⟩

theorem witness_StepRunsCommand : aboutToClear.work = .idle ∧ aboutToClear.input = .writeReg 0 1 :: [.readReg 0] ∧
    decode .command [BitVec.ofNat 8 ((1 : BitVec 254).toNat % 16)] = .ok (.clear, []) := ⟨rfl, rfl, by decide⟩

theorem witness_PlacedWordRuns : decodeTableWord 8 0 = some .nop ∧ decodeTableWord 8 15 = some .reservedF := by decide

theorem witness_StepRunsStreamWord_tree : readingTree.work = .deser deserAfter2 ∧ deserAfter2.stk ≠ [] ∧
    deserAfter2.ap < readingTree.artLen.toNat ∧
    decode .treeByte [artByte readingTree deserAfter2.ap] = .ok (.treeInternal, []) := by
  refine ⟨rfl, by decide, by decide, ?_⟩
  have h : artByte readingTree deserAfter2.ap = 0x00 := by decide
  rw [h]; rfl

/-- The last byte `ART_LEN` allows. -/
def readingLastTreeByte : State := { readingTree with artLen := 3 }

theorem witness_StepRunsStreamWord_tree_last : readingLastTreeByte.work = .deser deserAfter2 ∧
    deserAfter2.ap + 1 = readingLastTreeByte.artLen.toNat ∧ artByte readingLastTreeByte deserAfter2.ap = 0x00 := by
  refine ⟨rfl, by decide, by decide⟩

/-- The decoder at a bit of the message. -/
def readingBit (cur bi : Nat) : State := { readingMessage with work := .walk { cur := cur, out := [], bi := bi } }

theorem witness_StepRunsStreamWord_message :
    (readingBit 0 8).work = .walk { cur := 0, out := [], bi := 8 } ∧ 8 < (readingBit 0 8).bitLen.toNat ∧ 8 % 8 = 0 ∧
    decode .message [artByte (readingBit 0 8) ((readingBit 0 8).msgOff.toNat + 8 / 8)] = .ok (.msgByte 0x01, []) := by
  refine ⟨rfl, by decide, by decide, ?_⟩
  have h : artByte (readingBit 0 8) ((readingBit 0 8).msgOff.toNat + 8 / 8) = 0x01 := by decide
  rw [h]; rfl

theorem witness_StepRunsStreamWord_bit :
    (readingBit 2 9).work = .walk { cur := 2, out := [], bi := 9 } ∧ 9 < (readingBit 2 9).bitLen.toNat ∧ 9 % 8 ≠ 0 ∧
    decode .codeBit [BitVec.ofNat 8 (msgBit (readingBit 2 9) 9).toNat] = .ok (.codeLeft, []) := by
  refine ⟨rfl, by decide, by decide, ?_⟩
  have h : msgBit (readingBit 2 9) 9 = false := by decide
  rw [h]; rfl

/-! TRAIN. -/

/-- A full symbol buffer. -/
def fullSym : State := withSym (List.replicate 64 0xFF) idle

/-- A length register one above the capacity. -/
def overlongSym : State := { idle with symLen := 65 }

/-- A marker at index 1. -/
def markerAt1 : State := withSym [0x61, 0x00] idle

theorem witness_TrainBuildsTree : idle.symLen.toNat ≤ idle.params.symCap ∧
    (∀ i < idle.symLen.toNat, symByte idle i ≠ marker) ∧ fullSym.symLen.toNat = fullSym.params.symCap ∧
    ∀ i < fullSym.symLen.toNat, symByte fullSym i ≠ marker := by decide +kernel

theorem witness_TrainFaults : overlongSym.params.symCap < overlongSym.symLen.toNat ∧ 1 < markerAt1.symLen.toNat ∧
    markerAt1.symLen.toNat ≤ markerAt1.params.symCap ∧ symByte markerAt1 1 = 0x00 ∧ ∀ j < 1, symByte markerAt1 j ≠ 0x00 := by
  decide +kernel

/-- A next state of TRAIN without fault: two values, one value that is not 1, the value 1 alone, and no symbol. -/
theorem witness_TrainedLeaves :
    (∃ t, exec .train (withSym [0x61, 0x62] idle) = .next t ∧ t.err = none) ∧
    (∃ t, exec .train (withSym [0xFF] idle) = .next t ∧ t.err = none) ∧
    (∃ t, exec .train (withSym [1, 1] idle) = .next t ∧ t.err = none) ∧
    ∃ t, exec .train idle = .next t ∧ t.err = none :=
  ⟨next_with (by decide +kernel), next_with (by decide +kernel), next_with (by decide +kernel),
    next_with (by decide +kernel)⟩

/-- The first and the last internal node of a trained tree. -/
theorem witness_TrainMergeOrder : exec .train (withSym bytesV1 idle) = .next (treeV1 (withSym bytesV1 idle)) ∧
    (treeV1 (withSym bytesV1 idle)).err = none ∧ (treeV1 (withSym bytesV1 idle)).alphaSize.toNat ≤ 4 ∧
    6 < (treeV1 (withSym bytesV1 idle)).nodeCnt.toNat := ⟨next_of test_train_V1, rfl, by decide, by decide⟩

theorem witness_TrainByHistogram : (symbols (withSym [0x61, 0x62] idle)).Perm (symbols (withSym [0x62, 0x61] idle)) ∧
    (∃ t, exec .train (withSym [0x61, 0x62] idle) = .next t ∧ t.err = none) ∧
    ∃ t, exec .train (withSym [0x62, 0x61] idle) = .next t ∧ t.err = none :=
  ⟨by decide +kernel, next_with (by decide +kernel), next_with (by decide +kernel)⟩

theorem witness_TrainFrequencies : (withSym bytesV1 idle).params.ok = true ∧
    exec .train (withSym bytesV1 idle) = .next (treeV1 (withSym bytesV1 idle)) ∧
    (treeV1 (withSym bytesV1 idle)).err = none := ⟨by decide, next_of test_train_V1, rfl⟩

/-- The code `61 = 0`, `62 = 1` for the trained alphabet of `61 62`. -/
theorem witness_TrainIsOptimal :
    PrefixFree (trainedAlphabet [0x61, 0x62]) (fun v => [v == 0x62]) ∧
    symbols (withSym [0x61, 0x62] idle) = [0x61, 0x62] ∧
    exec .train (withSym [0x61, 0x62] idle) = .next readyAB ∧ readyAB.err = none ∧ readyAB.params.ok = true ∧
    ∃ w, exec .encode readyAB = .next w ∧ w.err = none := by
  refine ⟨?_, by decide +kernel, next_of (by decide +kernel), rfl, by decide, next_with (by decide +kernel)⟩
  have h : trainedAlphabet [0x61, 0x62] = [0x61, 0x62] := by decide +kernel
  intro u hu v hv
  rw [h] at hu hv
  simp only [List.mem_cons, List.not_mem_nil, or_false] at hu hv
  rcases hu with rfl | rfl <;> rcases hv with rfl | rfl <;> decide

/-! Lookup, codewords, ENCODE. -/

theorem witness_LookupFindsLeaf : TreeReady readyAB := ready_treeAB _

theorem witness_CodeLeadsToLeaf : TreeReady readyAB ∧ 0 < readyAB.arena.length ∧
    kindAt readyAB.arena 0 = some .leaf := ⟨ready_treeAB _, by decide, by decide⟩

theorem witness_CodesPrefixFree : TreeReady readyAB ∧ InAlphabet readyAB.arena 0x61 ∧ InAlphabet readyAB.arena 0x62 ∧
    (0x61 : Byte) ≠ 0x62 := ⟨ready_treeAB _, inAlphabet_AB.1, inAlphabet_AB.2.1, by decide⟩

/-- `ARG` names a leaf, no leaf, and the marker. -/
theorem witness_CodewordCommand : idle.treeValid = false ∧
    (TreeReady (treeAB { idle with arg := 0x63 }) ∧ ¬ InAlphabet arenaAB 0x63) ∧
    (TreeReady (treeAB idle) ∧ ¬ InAlphabet arenaAB (treeAB idle).arg) ∧
    TreeReady (treeAB { idle with arg := 0x62 }) ∧ InAlphabet arenaAB 0x62 :=
  ⟨rfl, ⟨ready_treeAB _, inAlphabet_AB.2.2.1⟩, ⟨ready_treeAB _, inAlphabet_AB.2.2.2⟩, ready_treeAB _, inAlphabet_AB.2.1⟩

theorem witness_EncodeCommand_tests : idle.treeValid = false ∧ (treeAB overlongSym).treeValid = true ∧
    (treeAB overlongSym).params.symCap < (treeAB overlongSym).symLen.toNat ∧
    (treeAB { idle with msgOff := 65 }).params.artCap < (treeAB { idle with msgOff := 65 }).msgOff.toNat := by decide

/-- An offending byte after a good one: the marker, and a value outside the alphabet. -/
theorem witness_EncodeCommand_scan (v : Byte) (hv : v = 0x00 ∨ v = 0x63) :
    TreeReady (treeAB (withSym [0x61, v] idle)) ∧
    (treeAB (withSym [0x61, v] idle)).symLen.toNat ≤ (treeAB (withSym [0x61, v] idle)).params.symCap ∧
    (treeAB (withSym [0x61, v] idle)).msgOff.toNat ≤ (treeAB (withSym [0x61, v] idle)).params.artCap ∧
    1 < (treeAB (withSym [0x61, v] idle)).symLen.toNat ∧
    (∀ j < 1, InAlphabet arenaAB (symByte (treeAB (withSym [0x61, v] idle)) j)) ∧
    symByte (treeAB (withSym [0x61, v] idle)) 1 = v ∧ ¬ InAlphabet arenaAB v := by
  have first : ∀ j < 1, InAlphabet arenaAB (symByte (treeAB (withSym [0x61, v] idle)) j) := fun j hj => by
    obtain rfl : j = 0 := by omega
    exact inAlphabet_AB.1
  rcases hv with rfl | rfl
  · exact ⟨ready_treeAB _, by decide, by decide, by decide, first, rfl, inAlphabet_AB.2.2.2⟩
  · exact ⟨ready_treeAB _, by decide, by decide, by decide, first, rfl, inAlphabet_AB.2.2.1⟩

/-- Two message bits at `MSG_OFF = 63`, the last byte, and at 64, where they do not fit. -/
theorem witness_EncodeCommand_fits (off : BitVec 32) (h : off = 63 ∨ off = 64) :
    ∃ s : State, s.msgOff = off ∧ TreeReady s ∧ s.params.ok = true ∧ s.symLen.toNat = 2 ∧
      (∀ i < 2, InAlphabet s.arena (symByte s i)) ∧ (((symbols s).flatMap (codeword s)).length + 7) / 8 = 1 ∧
      s.msgOff.toNat ≤ s.params.artCap ∧ s.params.artCap = 64 := by
  refine ⟨{ readyAB with msgOff := off }, rfl, ⟨rfl, rfl, treeOK_AB⟩, rfl, rfl, fun i hi => ?_, ?_, ?_, rfl⟩
  · interval_cases i
    exacts [inAlphabet_AB.1, inAlphabet_AB.2.1]
  · rcases h with rfl | rfl <;> decide +kernel
  · rcases h with rfl | rfl <;> decide

theorem witness_EncodeAfterTrain : exec .train (withSym [0x61, 0x62] idle) = .next readyAB ∧ readyAB.err = none ∧
    SameTree readyAB readyAB ∧ symbols readyAB = symbols (withSym [0x61, 0x62] idle) ∧
    readyAB.symLen = (withSym [0x61, 0x62] idle).symLen ∧ readyAB.params = (withSym [0x61, 0x62] idle).params :=
  ⟨next_of (by decide +kernel), rfl, ⟨rfl, rfl, rfl, rfl, rfl, rfl⟩, rfl, rfl, rfl⟩

theorem witness_EncodeBitCount : readyAB.params.ok = true ∧ TreeReady readyAB ∧
    (∃ w, exec .encode readyAB = .next w ∧ w.err = none) ∧ exec .train (withSym [0x61, 0x62] idle) = .next readyAB :=
  ⟨by decide, ready_treeAB _, next_with (by decide +kernel), next_of (by decide +kernel)⟩

theorem witness_PackUnpack : (9 : Nat) ≤ 8 * [(0x1F : Byte), 0x64].length ∧ (8 : Nat) < 9 ∧
    (1 : Nat) < ([true, true, true, true, true, false, false, false, false].length + 7) / 8 := by decide

/-! DECODE. -/

theorem witness_DecoderTotal : TreeReady stateV20 := ready_V20

theorem witness_DecoderEmitsSymbols : TreeReady readyAB ∧ (∀ v ∈ [(0x61 : Byte), 0x62], InAlphabet readyAB.arena v) ∧
    InAlphabet readyAB.arena 0x62 ∧ [] <+: codeword readyAB 0x62 ∧ [] ≠ codeword readyAB 0x62 := by
  refine ⟨ready_treeAB _, ?_, inAlphabet_AB.2.1, List.nil_prefix, by decide +kernel⟩
  intro v hv
  simp only [List.mem_cons, List.not_mem_nil, or_false] at hv
  rcases hv with rfl | rfl
  exacts [inAlphabet_AB.1, inAlphabet_AB.2.1]

/-- Each of the three range tests, one beyond its bound. -/
theorem witness_DecodeCommand_tests : idle.treeValid = false ∧ stateV20.treeValid = true ∧
    ({ stateV20 with artLen := 65 } : State).params.artCap < ({ stateV20 with artLen := 65 } : State).artLen.toNat ∧
    stateV20.artLen.toNat < ({ stateV20 with msgOff := 8 } : State).msgOff.toNat ∧
    8 * (stateV20.artLen.toNat - stateV20.msgOff.toNat) < ({ stateV20 with bitLen := 17 } : State).bitLen.toNat := by
  decide

/-- The bounds themselves: `BIT_LEN = 8 * (ART_LEN - MSG_OFF)`, and `MSG_OFF = ART_LEN` with no bit. -/
theorem witness_DecodeCommand_bounds : TreeReady { stateV20 with bitLen := 16 } ∧
    stateV20.artLen.toNat ≤ stateV20.params.artCap ∧ stateV20.msgOff.toNat ≤ stateV20.artLen.toNat ∧
    16 ≤ 8 * (stateV20.artLen.toNat - stateV20.msgOff.toNat) ∧ stateV20.params.ok = true ∧
    TreeReady { stateV20 with msgOff := 7 } ∧ (7 : BitVec 32).toNat ≤ stateV20.artLen.toNat ∧
    stateV20.bitLen.toNat ≤ 8 * (stateV20.artLen.toNat - 7) :=
  ⟨ready_V20, by decide, by decide, by decide, by decide, ready_V20, by decide, by decide⟩

/-- Six symbols for a buffer of five. -/
theorem witness_DecodeCommand_capacity :
    (walkBits arenaV19b 0 { cur := 0, out := [], bi := 0 } (messageBits { stateV20 with bitLen := 9 })).map
      (fun c => c.out.length) = some 6 ∧
    TreeReady { stateV20 with params := ⟨5, 64⟩, bitLen := 9 } := ⟨by decide +kernel, ready_V20⟩

theorem witness_DecodeInvertsEncode : fullSym.params.ok = true ∧ fullSym.symLen.toNat ≤ fullSym.params.symCap ∧
    fullSym.msgOff.toNat ≤ fullSym.params.artCap ∧ ∀ i < fullSym.symLen.toNat, symByte fullSym i ≠ 0x00 := by
  decide +kernel

/-! The artifact codec. -/

theorem witness_TserCommand : idle.treeValid = false ∧
    (treeAB (idleCap 64 2)).treeValid = true ∧ (treeAB (idleCap 64 2)).params.artCap < (treeAB (idleCap 64 2)).nodeCnt.toNat ∧
    TreeReady (treeAB (idleCap 64 3)) ∧ (treeAB (idleCap 64 3)).nodeCnt.toNat ≤ (treeAB (idleCap 64 3)).params.artCap :=
  ⟨rfl, rfl, by decide, ready_treeAB _, by decide⟩

/-- The derivation of the tree bytes of V19b. -/
def parseV19b : ParseTree := .node (.leaf 0x61) (.node (.leaf 0x62) (.leaf 0x63))

theorem witness_TdesBuildsTree : (withArt bytesV19b idle).artLen.toNat ≤ (withArt bytesV19b idle).params.artCap ∧
    parseV19b.accepted ∧ artifact (withArt bytesV19b idle) = parseV19b.bytes ++ [0xC6, 0x01] :=
  ⟨by decide, ⟨by decide, by decide, by decide⟩, by decide +kernel⟩

theorem witness_TdesAccepts : (withArt bytesV19b idle).artLen.toNat ≤ (withArt bytesV19b idle).params.artCap ∧
    ∃ t, exec .tdes (withArt bytesV19b idle) = .next t ∧ t.err = none := ⟨by decide, next_with (by decide +kernel)⟩

/-- The range test, M1 and M2. -/
theorem witness_TdesFaults_first : ({ idle with artLen := 65 } : State).params.artCap < (65 : BitVec 32).toNat ∧
    idle.artLen.toNat ≤ idle.params.artCap ∧ idle.artLen = 0 ∧
    (withArt [0x61] idle).artLen.toNat ≤ (withArt [0x61] idle).params.artCap ∧ (withArt [0x61] idle).artLen ≠ 0 ∧
    artByte (withArt [0x61] idle) 0 ≠ 0x00 := by decide

/-- M3: the shortest truncated tree, and one that lacks its last leaf. -/
theorem witness_TdesFaults_M3 : IncompleteTree (withArt [0x00] idle) (withArt [0x00] idle).artLen.toNat ∧
    IncompleteTree (withArt [0x00, 0x61] idle) (withArt [0x00, 0x61] idle).artLen.toNat := by
  refine ⟨⟨by decide, by decide, fun m h1 h2 => ?_, by decide, by decide⟩,
    ⟨by decide, by decide, fun m h1 h2 => ?_, by decide, by decide⟩⟩
  · have : m ≤ 1 := h2
    interval_cases m; decide
  · have : m ≤ 2 := h2
    interval_cases m <;> decide

/-- M5 at the first byte where it can occur. -/
theorem witness_TdesFaults_M5 : 2 < (withArt [0x00, 0x61, 0x61] idle).artLen.toNat ∧
    IncompleteTree (withArt [0x00, 0x61, 0x61] idle) 2 ∧ artByte (withArt [0x00, 0x61, 0x61] idle) 2 ≠ 0x00 ∧
    artByte (withArt [0x00, 0x61, 0x61] idle) 2 ∈ (List.range 2).map (artByte (withArt [0x00, 0x61, 0x61] idle)) := by
  refine ⟨by decide, ⟨by decide, by decide, fun m h1 h2 => ?_, by decide, by decide⟩, by decide, by decide⟩
  interval_cases m <;> decide

/-- 255 markers (V18d). -/
def markerBytes : List Byte := List.replicate 255 0x00

/-- 255 markers in `ART`. -/
def markers : State := withArt markerBytes (idleCap 64 512)

theorem withArt_art (bytes : List Byte) (s : State) : (withArt bytes s).art = Memory.pokeAll s.art 0 bytes := rfl

theorem markers_artByte (i : Nat) (h : i < 255) : artByte markers i = 0x00 := by
  have hl : markerBytes.length = 255 := List.length_replicate
  rw [artByte_pokeAll (idleCap 64 512) markers markerBytes 0 (withArt_art _ _) rfl i, dif_pos (by omega)]
  exact List.getElem_replicate _

theorem markers_map (m : Nat) (hm : m ≤ 255) : (List.range m).map (artByte markers) = List.replicate m 0x00 := by
  refine List.eq_replicate_iff.2 ⟨by rw [List.length_map, List.length_range], fun b hb => ?_⟩
  obtain ⟨i, hi, rfl⟩ := List.mem_map.1 hb
  exact markers_artByte i (by have := List.mem_range.1 hi; omega)

/-- M4: the 255th marker. -/
theorem witness_TdesFaults_M4 : 254 < markers.artLen.toNat ∧ markers.artLen.toNat ≤ markers.params.artCap ∧
    IncompleteTree markers 254 ∧ ((List.range 254).map (artByte markers)).countP (· == marker) = 254 ∧
    artByte markers 254 = 0x00 := by
  have heq (m : Nat) : (List.replicate m (0x00 : Byte)).countP (· == marker) = m := by
    rw [List.countP_replicate]; rfl
  have hne (m : Nat) : (List.replicate m (0x00 : Byte)).countP (· != marker) = 0 := by
    rw [List.countP_replicate]; rfl
  refine ⟨by decide +kernel, by decide +kernel, ⟨by omega, markers_artByte 0 (by omega), fun m _ hm => ?_, ?_, ?_⟩, ?_,
    markers_artByte 254 (by omega)⟩
  · rw [markers_map m (by omega), hne, heq]; omega
  · rw [markers_map 254 (by omega), heq]; exact le_rfl
  · rw [markers_map 254 (by omega), List.filter_replicate]
    exact List.nodup_nil
  · rw [markers_map 254 (by omega), heq]

/-- TSER, and TDES of its bytes with a byte appended; and TDES first. -/
theorem witness_TserTdesInverse : TreeReady (treeAB idle) ∧
    (∃ t, exec .tser (treeAB idle) = .next t ∧ (t.err, t.artLen, artifact t) = (none, 3, [0x00, 0x61, 0x62])) ∧
    artifact (withArt [0x00, 0x61, 0x62, 0x02] idle) = [0x00, 0x61, 0x62] ++ [0x02] ∧
    ∃ t, exec .tdes (withArt bytesV19b idle) = .next t ∧ t.err = none :=
  ⟨ready_treeAB _, next_with (by decide +kernel), by decide +kernel, next_with (by decide +kernel)⟩

/-- The two faults of TRAIN, an instance too small for the tree, one too small for the message, and one just large enough
(V24a, V24b, V24c: seven tree bytes and two message bytes). -/
theorem witness_CompressCommand : overlongSym.params.ok = true ∧ overlongSym.params.symCap < overlongSym.symLen.toNat ∧
    markerAt1.params.ok = true ∧ symByte markerAt1 1 = 0x00 ∧ symByte markerAt1 0 ≠ 0x00 ∧
    ∀ cap ∈ [6, 7, 8, 9], (withSym bytesV1 (idleCap 64 cap)).params.ok = true ∧
      (withSym bytesV1 (idleCap 64 cap)).symLen.toNat ≤ 64 ∧
      ∀ i < (withSym bytesV1 (idleCap 64 cap)).symLen.toNat, symByte (withSym bytesV1 (idleCap 64 cap)) i ≠ 0x00 := by
  decide +kernel

theorem witness_ExpandCommand : (∃ t, exec .tdes idle = .next t ∧ t.err = some .malformedArtifact) ∧
    (withArt bytesV19b idle).params.ok = true ∧
    (withArt bytesV19b idle).artLen.toNat ≤ (withArt bytesV19b idle).params.artCap ∧ parseV19b.accepted ∧
    artifact (withArt bytesV19b idle) = parseV19b.bytes ++ [0xC6, 0x01] :=
  ⟨next_with (by decide +kernel), by decide, by decide, ⟨by decide, by decide, by decide⟩, by decide +kernel⟩

/-- The same artifact for an instance whose symbol buffer is one byte too small (V11: eight symbols). -/
theorem witness_ExpandCommand_capacity : (∃ t, exec .expand (withArt [0x00, 0x61, 0x62, 0x02] (idleCap 7 64)) = .next t ∧
      t.err = some .capacityExceeded) ∧
    ∃ t, exec .expand (withArt [0x00, 0x61, 0x62, 0x02] (idleCap 8 64)) = .next t ∧ t.err = none :=
  ⟨next_with (by decide +kernel), next_with (by decide +kernel)⟩

/-- V11: `"ab"` gives two bits, and so six pad bits; the capacities 8 and 7 are those of the two clauses. -/
theorem witness_ExpandAfterCompress (cap : Nat) (h : cap = 8 ∨ cap = 7) :
    (withSym [0x61, 0x62] (idleCap cap 64)).params.ok = true ∧
    ∃ t, exec .compress (withSym [0x61, 0x62] (idleCap cap 64)) = .next t ∧ (t.err, t.bitLen) = (none, 2) := by
  rcases h with rfl | rfl <;> exact ⟨by decide, next_with (by decide +kernel)⟩

theorem witness_CompositeStages :
    (∃ t, exec .train markerAt1 = .next t ∧ t.err = some .ambiguousAlphabet) ∧
    exec .train (withSym [0x61, 0x62] idle) = .next readyAB ∧ readyAB.err = none ∧
    (∃ u, exec .tser readyAB = .next u ∧ u.err = none) ∧
    (∃ u, exec .tser (treeAB (idleCap 64 2)) = .next u ∧ u.err = some .capacityExceeded) ∧
    (∃ t, exec .tdes idle = .next t ∧ t.err = some .malformedArtifact) ∧
    ∃ t, exec .tdes (withArt bytesV19b idle) = .next t ∧ t.err = none :=
  ⟨next_with (by decide +kernel), next_of (by decide +kernel), rfl, next_with (by decide +kernel),
    next_with (by decide +kernel), next_with (by decide +kernel), next_with (by decide +kernel)⟩

theorem witness_CompositesIgnoreOldState : idle.params = (treeAB idle).params ∧ idle.symLen = (treeAB idle).symLen ∧
    symbols idle = symbols (treeAB idle) ∧ idle.artLen = (treeAB idle).artLen ∧ artifact idle = artifact (treeAB idle) :=
  ⟨rfl, rfl, rfl, rfl, rfl⟩

/-! Faults and whole-machine rules. -/

/-- A fault of each row of R171's table: TRAIN, M1 to M5 of TDES, ENCODE, CODEWORD, no tree, a reserved code. -/
theorem witness_FaultEntryEffect : (∃ t, exec .train markerAt1 = .next t ∧ t.err = some .ambiguousAlphabet) ∧
    (∃ t, exec .tdes idle = .next t ∧ (t.err, t.errInfo) = (some .malformedArtifact, 0)) ∧
    (∃ t, exec .tdes (withArt [0x61] idle) = .next t ∧ (t.err, t.errInfo) = (some .malformedArtifact, 0x6100000000)) ∧
    (∃ t, exec .tdes (withArt [0x00, 0x61] idle) = .next t ∧ (t.err, t.errInfo) = (some .malformedArtifact, 2)) ∧
    (∃ t, exec .tdes (withArt [0x00, 0x61, 0x61] idle) = .next t ∧
      (t.err, t.errInfo) = (some .malformedArtifact, 0x6100000002)) ∧
    (∃ t, exec .encode (treeAB (withSym [0x61, 0x63] idle)) = .next t ∧
      (t.err, t.errInfo) = (some .symbolNotFound, 0x6300000001)) ∧
    (∃ t, exec .codeword (treeAB { idle with arg := 0x63 }) = .next t ∧
      (t.err, t.errInfo) = (some .symbolNotFound, 0x6300000000)) ∧
    (∃ t, exec .reservedA idle = .next t ∧ (t.err, t.errInfo) = (some .illegalCommand, 0x0A00000000)) ∧
    ∃ t, exec .codeword idle = .next t ∧ (t.err, t.errInfo) = (some .noTree, 0) :=
  ⟨next_with (by decide +kernel), next_with (by decide +kernel), next_with (by decide +kernel),
    next_with (by decide +kernel), next_with (by decide +kernel), next_with (by decide +kernel),
    next_with (by decide +kernel), next_with (by decide +kernel), next_with (by decide +kernel)⟩

/-- M4: the 255th marker, which TDES reaches after 254 legal bytes (V18d). -/
theorem witness_FaultEntryEffect_M4 : after (exec .tdes markers) (fun t => (t.err, t.errInfo)) =
    some (some .malformedArtifact, 254) := by decide +kernel

theorem witness_FaultSeenSticks : (∃ t, step { aboutToClear with faultSeen := true } = .next t ∧ t.faultSeen = false) ∧
    (∃ t, step { idle with faultSeen := true } = .next t ∧ t.faultSeen = true) ∧
    spaceOf .train = .command ∧ Instr.train ≠ .nop ∧ ∃ t, exec .train idle = .next t ∧ t.err = none :=
  ⟨next_with (by decide +kernel), next_with (by decide +kernel), rfl, by decide, next_with (by decide +kernel)⟩

theorem witness_OnlyTreeCommandsWriteTree : (∃ t, exec .tser (treeAB idle) = .next t ∧ t.err = none) ∧
    (∃ t, exec (.msgByte 0xC6) readingMessage = .next t ∧ t.err = none) ∧
    (∃ t, hostAct (.readReg 0) idle = .next t ∧ t.err = none) :=
  ⟨next_with (by decide +kernel), next_with (by decide +kernel), next_with (by decide +kernel)⟩

theorem witness_CommandsRaiseOnlyTheirFaults : idle.params.ok = true ∧
    ∀ i ∈ [Instr.train, .tser, .encode, .tdes, .decode, .codeword, .compress, .expand],
      (nextOf (exec i idle)).isSome = true := by decide +kernel

/-! The words of the data streams. -/

/-- An entry that lacks one child, and one that lacks both; 253 and 254 internal nodes; a value met and one not met. -/
theorem witness_DeserializerStep : readingTree.work = .deser deserAfter2 ∧ deserAfter2.stk = { par := 0, rem := 1 } :: [] ∧
    0 < deserAfter2.nodes.length ∧ deserStart.stk = { par := 0, rem := 2 } :: [] ∧ 0 < deserStart.nodes.length ∧
    (openTree idle).work = .deser deserStart ∧ deserAfter2.nint < 254 ∧ (0x62 : Byte) ≠ 0x00 ∧
    (0x62 : Byte) ∉ deserAfter2.seen := by decide

theorem witness_TreeWordFaults : deserAfter2.stk ≠ [] ∧ (0x61 : Byte) ∈ deserAfter2.seen ∧ (0x61 : Byte) ≠ 0x00 ∧
    ({ deserAfter2 with nint := 254 } : DeserCtx).nint = 254 ∧ ({ deserAfter2 with nint := 254 } : DeserCtx).stk ≠ [] ∧
    ({ readingTree with work := .deser { deserAfter2 with nint := 254 } } : State).work =
      .deser { deserAfter2 with nint := 254 } := by decide

/-- The last bit `BIT_LEN` allows, from the root and from the other internal node: to a leaf and to an internal node. -/
theorem witness_CodeBitStep : TreeReady (readingBit 0 9) ∧ (readingBit 0 9).work = .walk { cur := 0, out := [], bi := 9 } ∧
    9 < (readingBit 0 9).bitLen.toNat ∧ kindAt (readingBit 0 9).arena 0 = some .internal ∧
    kindAt (readingBit 2 9).arena 2 = some .internal ∧
    (leftAt arenaV19b 0 = some 1 ∧ kindAt arenaV19b 1 = some .leaf) ∧
    rightAt arenaV19b 0 = some 2 ∧ kindAt arenaV19b 2 = some .internal :=
  ⟨ready_V20, rfl, by decide, by decide, by decide, by decide, by decide, by decide⟩

/-- A cursor at the first and at the last bit of a message byte, and at the last bit below `BIT_LEN`. -/
theorem witness_MessageByteStep : ∀ bi ∈ [0, 7, 8, 9], TreeReady (readingBit 0 bi) ∧
    (readingBit 0 bi).work = .walk { cur := 0, out := [], bi := bi } ∧ bi < (readingBit 0 bi).bitLen.toNat ∧
    kindAt (readingBit 0 bi).arena 0 = some .internal := fun bi h =>
  ⟨ready_V20, rfl, (by decide : ∀ bi ∈ [0, 7, 8, 9], bi < 10) bi h,
    (by decide : kindAt arenaV19b 0 = some .internal)⟩

theorem witness_DataWordsNeedTheirStream : idle.work = .idle ∧ spaceOf .treeInternal ≠ .command ∧
    spaceOf .codeRight ≠ .command ∧ spaceOf (.msgByte 0) ≠ .command := by decide

theorem witness_TdesFromTreeWords : (withArt bytesV19b idle).work = .idle ∧
    (withArt bytesV19b idle).artLen.toNat ≤ (withArt bytesV19b idle).params.artCap ∧ (withArt bytesV19b idle).artLen ≠ 0 ∧
    artByte (withArt bytesV19b idle) 0 = 0x00 := by decide

theorem witness_DecodeFromMessageWords : stateV20.work = .idle ∧ stateV20.treeValid = true ∧
    stateV20.artLen.toNat ≤ stateV20.params.artCap ∧ stateV20.msgOff.toNat ≤ stateV20.artLen.toNat ∧
    ({ stateV20 with bitLen := 10 } : State).bitLen.toNat ≤ 8 * (stateV20.artLen.toNat - stateV20.msgOff.toNat) := by
  decide

/-! Invariants. -/

theorem stateOK_idle : StateOK idle where
  params := by decide
  sym := ⟨by decide, by decide⟩
  art := ⟨by decide, by decide⟩
  tree := fun h => absurd h (by decide)
  noTree := fun _ => ⟨rfl, rfl, rfl, rfl, rfl, rfl⟩
  idle := rfl
  sticky := by decide
  record := by decide
  noTreeErr := by decide
  malformedErr := by decide
  codeLength := by decide
  codeBits := fun i _ => by simp [Tests.idle, idleCap, State.resetWith]

theorem freqOK_AB : FreqOK arenaAB := fun n hn l hl r hr => by
  have hn : n < 3 := hn
  have hl : l < 3 := hl
  have hr : r < 3 := hr
  interval_cases n <;> interval_cases l <;> interval_cases r <;> decide

/-- A state that holds a tree meets the invariant as well. -/
theorem stateOK_readyAB : StateOK readyAB where
  params := by decide
  sym := ⟨by decide, by decide⟩
  art := ⟨by decide, by decide⟩
  tree := fun _ => ⟨ready_treeAB _, freqOK_AB⟩
  noTree := fun h => absurd h (by decide)
  idle := rfl
  sticky := by decide
  record := by decide
  noTreeErr := by decide
  malformedErr := by decide
  codeLength := by decide
  codeBits := fun i _ => by simp [readyAB, treeAB, withSym, Tests.idle, idleCap, State.resetWith]

theorem witness_StepKeepsStateOK : StateOK readyAB ∧ StateOK idle ∧ (∃ t, step readyAB = .next t ∧ t.err = none) :=
  ⟨stateOK_readyAB, stateOK_idle, next_with (by decide +kernel)⟩

/-- The host asks for a register and for a byte that do not exist. -/
theorem witness_CommandsAlwaysEnd : StateOK readyAB ∧ spaceOf .reservedF = .command ∧
    step { idle with input := [.readReg 13] } = .refused .noSuchRegister ∧
    step { idle with input := [.readByte .sym 64] } = .refused .indexBeyondCapacity :=
  ⟨stateOK_readyAB, rfl, rfl, rfl⟩

theorem witness_ResetMeetsStateOK : ({ symCap := 1, artCap := 3 } : Params).ok = true ∧
    ({ symCap := 2 ^ 32 - 1, artCap := 2 ^ 32 - 1 } : Params).ok = true := by decide

theorem witness_ParametersNeverChange : ∃ t, step aboutToClear = .next t ∧ t.params = aboutToClear.params :=
  next_with (by decide +kernel)

theorem witness_LoadBufferScript : idle.work = .idle ∧ idle.params.ok = true ∧
    (List.replicate 64 (0x61 : Byte)).length ≤ capacityOf idle.params .sym ∧
    ({ idle with input := loadBuffer .sym [0x61] ++ [runCommand .compress] } : State).input =
      loadBuffer .sym [0x61] ++ [runCommand .compress] := ⟨rfl, by decide, by decide, rfl⟩

end Sys2Proof.Tests
end

section
/-! PROOF. What TSER writes for a tree and what TDES reads back, as far as the state's invariant needs it. -/

namespace Sys2Proof.Machine

/-- Below a node that the root leads to, no two leaves have the same value (R40). -/
theorem Shaped.values_nodup {nodes : List Node} {aidx : List Nat} {root k : Nat} (h : TreeOK nodes aidx root k)
    {p : ParseTree} {n : Nat} {path : List Bool} (hpath : follow nodes root path = some n) (hs : Shaped nodes p n) :
    p.values.Nodup := by
  induction p generalizing n path with
  | leaf v => simp [ParseTree.values]
  | node l r ihl ihr =>
    obtain ⟨-, a, b, ha, hb, hsl, hsr⟩ := hs
    have hfa : follow nodes root (path ++ [false]) = some a := by
      rw [follow_append, hpath]; simp [follow, childOf, ha]
    have hfb : follow nodes root (path ++ [true]) = some b := by
      rw [follow_append, hpath]; simp [follow, childOf, hb]
    refine List.nodup_append'.2 ⟨ihl hfa hsl, ihr hfb hsr, fun v hl hr => ?_⟩
    rw [← ParseTree.paths_values] at hl hr
    obtain ⟨⟨_, x⟩, hx, rfl⟩ := List.mem_map.1 hl
    obtain ⟨⟨_, y⟩, hy, rfl⟩ := List.mem_map.1 hr
    obtain ⟨m, hmx, hmk, hmv⟩ := ParseTree.follow_path hsl hx
    obtain ⟨m', hmy, hmk', hmv'⟩ := ParseTree.follow_path hsr hy
    obtain rfl := h.leaf_unique hmk hmk' hmv hmv'
    have hsame : path ++ [false] ++ x = path ++ [true] ++ y :=
      h.follow_unique (by rw [follow_append, hfa]; exact hmx) (by rw [follow_append, hfb]; exact hmy)
    simp at hsame

/-- A value is in the alphabet when an index entry has it (R30). -/
theorem TreeOK.mem_indexValues {nodes : List Node} {aidx : List Nat} {root k : Nat} (h : TreeOK nodes aidx root k)
    (v : Byte) : v ∈ aidx.map (fun n => (valueAt nodes n).getD 0) ↔ InAlphabet nodes v := by
  simp only [List.mem_map]
  constructor
  · rintro ⟨n, hn, rfl⟩
    obtain ⟨hlt, hk⟩ := h.indexLeaf n hn
    exact ⟨n, hlt, hk, by rw [valueAt_of_lt hlt]; rfl⟩
  · rintro ⟨n, hn, hk, hv⟩
    exact ⟨n, h.indexAll n hn hk, by rw [hv]; rfl⟩

/-- The shape of the held tree has one leaf for each value of the alphabet. -/
theorem TreeReady.values_length {s : State} (h : TreeReady s) {p : ParseTree} (hs : Shaped s.arena p s.root.toNat) :
    p.values.length = s.alphaSize.toNat := by
  obtain ⟨-, -, htree⟩ := id h
  have hnd : (s.aidx.map fun n => (valueAt s.arena n).getD 0).Nodup := htree.indexSorted.imp fun hlt => by
    rintro rfl; exact absurd hlt (by simp)
  have hperm : p.values.Perm (s.aidx.map fun n => (valueAt s.arena n).getD 0) :=
    (List.perm_ext_iff_of_nodup (Shaped.values_nodup htree (path := []) rfl hs) hnd).2 fun v => by
      rw [htree.mem_indexValues, inAlphabet_iff h hs]
  rw [hperm.length_eq, List.length_map, htree.indexSize]

/-- With a tree TSER's bytes exist, and there are `NODE_CNT` of them (R130, R132). -/
theorem TreeReady.treeBytes_spec {s : State} (h : TreeReady s) :
    ∃ bytes, treeBytes s = some bytes ∧ bytes.length = s.nodeCnt.toNat := by
  obtain ⟨-, hcnt, htree⟩ := id h
  obtain ⟨p, hs, hbytes⟩ := shaped_root htree
  refine ⟨p.bytes, hbytes, ?_⟩
  have hsize := p.bytes_length
  have hvalues := h.values_length hs
  have hnodes := htree.nodeCount
  have hlow := htree.alphaLow
  omega

/-- A tree that is put in place is the tree the state holds: its sizes fit their registers (R29). -/
theorem treeReady_installTree {nodes : List Node} {ix : List Nat} {r : Nat} (h : TreeOK nodes ix r ix.length) (s : State) :
    TreeReady (installTree nodes ix r s) := by
  have hhigh := h.alphaHigh
  have hnodes := h.nodeCount
  have hroot := h.rootBound
  refine ⟨rfl, ?_, ?_⟩
  · simp only [installTree_nodeCnt, installTree_arena, BitVec.toNat_ofNat]; omega
  · have hr : (BitVec.ofNat 9 r).toNat = r := by rw [BitVec.toNat_ofNat]; omega
    have hk : (BitVec.ofNat 8 ix.length).toNat = ix.length := by rw [BitVec.toNat_ofNat]; omega
    simpa [hr, hk] using h

/-- Without a defect the deserializer has read a legal tree, placed in preorder from node 0 on (R134, R138). -/
theorem deserialize_placed {artLen : Nat} {bs : List Byte} {c : DeserCtx} (h : deserialize artLen bs deserStart = .ok c) :
    ∃ l r, marker ∉ (ParseTree.node l r).values ∧ (ParseTree.node l r).values.Nodup ∧
      c.nodes.length = (ParseTree.node l r).bytes.length ∧ Placed c.nodes none (.node l r) 0 := by
  obtain ⟨read, more, rfl, hok, hstk, -⟩ := deserialize_ok artLen bs deserOK_start h
  have hclosed := hok.stk_eq_nil.1 hstk
  rcases parse_cases ([marker] ++ read) with ⟨p, rest, hp, hm⟩ | hopen
  · cases p with
    | leaf v =>
      rw [ParseTree.bytes, List.cons_append, List.cons_append, List.cons.injEq] at hp
      exact absurd hp.1 (by simpa [ParseTree.values] using hm)
    | node l r =>
      have hnd : (ParseTree.node l r).values.Nodup := by
        have := hok.distinct
        rw [hp, List.filter_append, ParseTree.values_eq _ hm] at this
        exact (List.nodup_append'.1 this).1
      have hread : read ++ more = l.bytes ++ (r.bytes ++ (rest ++ more)) := by
        have hp' : read = l.bytes ++ r.bytes ++ rest := by simpa [ParseTree.bytes] using hp
        simp [hp']
      obtain ⟨c', hc', -, -, hlen, hplaced⟩ := deserialize_tree hm hnd artLen (rest ++ more)
      rw [hread, hc'] at h
      obtain rfl := Except.ok.inj h
      exact ⟨l, r, hm, hnd, hlen, hplaced⟩
  · have := hopen _ (Nat.le_refl _)
    rw [List.take_length] at this
    omega

/-- Placed entries all have frequency 0, so that the sums of R40 hold. -/
theorem freqOK_of_placed {nodes : List Node} {p : ParseTree} (h : Placed nodes none p 0)
    (hlen : nodes.length = p.bytes.length) : FreqOK nodes := by
  have hzero {n : Nat} (hn : n < nodes.length) : freqAt nodes n = 0 := (h.entry (Nat.zero_le n) (by omega)).freq
  intro n hn l hl r hr _ _
  rw [hzero hn, hzero hl, hzero hr]

/-- What TDES leaves without a defect is a tree with summed frequencies (R135). -/
theorem deserialize_treeOK {artLen : Nat} {bs : List Byte} {c : DeserCtx} (h : deserialize artLen bs deserStart = .ok c) :
    TreeOK c.nodes (leafIndex c.nodes) 0 (leafIndex c.nodes).length ∧ FreqOK c.nodes := by
  obtain ⟨l, r, hm, hnd, hlen, hplaced⟩ := deserialize_placed h
  have htree := treeOK_of_placed hplaced hlen hm hnd
  exact ⟨by rwa [htree.indexSize], freqOK_of_placed hplaced hlen⟩

end Sys2Proof.Machine
end

section
/-! PROOF. What a stage, an instruction, a host action and a step can leave, said once each: the fault kinds come with the
tree state they need (R164, R170). -/

namespace Sys2Proof.Machine

/-- A result is one next state at most. -/
theorem next_unique {r : Result} {t u : State} (ht : r = .next t) (hu : r = .next u) : t = u :=
  Host.Outcome.next.inj (ht.symm.trans hu)

/-- A fault kind that says there is no tree (R164, R170) is raised without one only. -/
def Raisable (s : State) (k : ErrKind) : Prop := k = .noTree ∨ k = .malformedArtifact → s.treeValid = false

/-- The fault entries of TRAIN and TDES invalidate the tree (R170); of the other stages no fault does. -/
theorem trainStage_next {s t : State} (h : trainStage s = .next t) :
    (∃ k pos val, t = raiseInTree k pos val s) ∨
    t = succeed (installTree (trainedArena (symbols s)) (List.range (trainedAlphabet (symbols s)).length)
      ((trainedArena (symbols s)).length - 1) s) := by
  rcases trainStage_cases s with ⟨-, e⟩ | ⟨-, i, -, -, -, e⟩ | ⟨-, -, e⟩
  · exact .inl ⟨_, _, _, next_unique h e⟩
  · exact .inl ⟨_, _, _, next_unique h e⟩
  · exact .inr (next_unique h e)

theorem tdesStage_next {s t : State} (h : tdesStage s = .next t) :
    (∃ k pos val, t = raiseInTree k pos val s) ∨
    ∃ c, deserialize s.artLen.toNat ((artifact s).drop 1) deserStart = .ok c ∧ t = finishTree c s := by
  rcases tdesStage_cases s with ⟨k, val, -, e⟩ | ⟨-, ⟨pos, val, -, e⟩ | ⟨c, hc, e⟩⟩
  · exact .inl ⟨_, _, _, next_unique h e⟩
  · exact .inl ⟨_, _, _, next_unique h e⟩
  · exact .inr ⟨c, hc, next_unique h e⟩

theorem tserStage_next {s t : State} (h : tserStage s = .next t) :
    (∃ k pos val, Raisable s k ∧ t = raise k pos val s) ∨
    ∃ bytes, s.treeValid = true ∧ s.nodeCnt.toNat ≤ s.params.artCap ∧ treeBytes s = some bytes ∧
      t = succeed (storeTree bytes s) := by
  rcases tserStage_cases s with ⟨hv, e⟩ | ⟨-, -, e⟩ | ⟨hv, hcap, ⟨-, e⟩ | ⟨bytes, hb, e⟩⟩
  · exact .inl ⟨_, _, _, fun _ => hv, next_unique h e⟩
  · exact .inl ⟨_, _, _, by simp [Raisable], next_unique h e⟩
  · rw [e] at h; cases h
  · exact .inr ⟨bytes, hv, hcap, hb, next_unique h e⟩

/-- The validation pass of ENCODE finds one of two faults (R115). -/
theorem scanSymbols_bad {s : State} {vs : List Byte} {k : ErrKind} {i : Nat} {v : Byte}
    (h : scanSymbols s 0 vs = .bad k i v) : k = .ambiguousAlphabet ∨ k = .symbolNotFound := by
  rcases scanSymbols_cases s 0 vs with ⟨e, -⟩ | ⟨e, -⟩ | ⟨j, hj, -, ⟨-, e⟩ | ⟨-, -, e⟩⟩ <;> rw [e] at h <;> cases h
  · exact .inl rfl
  · exact .inr rfl

theorem encodeStage_next {s t : State} (h : encodeStage s = .next t) :
    (∃ k pos val, Raisable s k ∧ t = raise k pos val s) ∨
    ∃ bits, s.msgOff.toNat + ceil8 bits.length ≤ s.params.artCap ∧ t = succeed (storeMessage bits s) := by
  rcases encodeStage_cases s with ⟨hv, e⟩ | ⟨-, -, e⟩ |
    ⟨-, -, -, ⟨k, i, v, hbad, e⟩ | e | ⟨-, bits, -, ⟨-, e⟩ | ⟨hcap, e⟩⟩⟩
  · exact .inl ⟨_, _, _, fun _ => hv, next_unique h e⟩
  · exact .inl ⟨_, _, _, by simp [Raisable], next_unique h e⟩
  · refine .inl ⟨_, _, _, ?_, next_unique h e⟩
    rcases scanSymbols_bad hbad with rfl | rfl <;> simp [Raisable]
  · rw [e] at h; cases h
  · exact .inl ⟨_, _, _, by simp [Raisable], next_unique h e⟩
  · exact .inr ⟨bits, hcap, next_unique h e⟩

theorem decodeStage_next {s t : State} (h : decodeStage s = .next t) :
    (∃ k pos val, Raisable s k ∧ t = raise k pos val s) ∨
    ∃ out : List Byte, out.length ≤ s.params.symCap ∧
      t = succeed { s with sym := Memory.pokeAll s.sym 0 out, symLen := BitVec.ofNat 32 out.length } := by
  rcases decodeStage_cases s with ⟨k, hk, e⟩ | ⟨-, ⟨-, e⟩ | ⟨c, -, ⟨-, e⟩ | ⟨hcap, e⟩⟩⟩
  · refine .inl ⟨k, 0, 0, ?_, next_unique h e⟩
    rcases decodeTests_cases s with ⟨hv, hk'⟩ | ⟨-, -, hk'⟩ | ⟨-, -, -, -, hk'⟩ <;> rw [hk'] at hk <;> cases hk
    · exact fun _ => hv
    · simp [Raisable]
  · rw [e] at h; cases h
  · exact .inl ⟨_, _, _, by simp [Raisable], next_unique h e⟩
  · exact .inr ⟨c.out, hcap, next_unique h e⟩

theorem codewordStage_next {s t : State} (h : codewordStage s = .next t) :
    (∃ k pos val, Raisable s k ∧ t = raise k pos val { s with cwLen := 0, cwBits := 0 }) ∨
    ∃ leaf c, s.treeValid = true ∧ lookup s s.arg = .found leaf ∧ codeOf s.arena leaf = some c ∧
      t = succeed { s with cwLen := BitVec.ofNat 8 c.length, cwBits := BitVec.ofNat 254 (bitsValue c) } := by
  rcases codewordStage_cases s with ⟨hv, e⟩ | ⟨-, -, e⟩ | ⟨-, -, e⟩ | ⟨hv, leaf, hl, ⟨-, e⟩ | ⟨c, hc, e⟩⟩
  · exact .inl ⟨_, _, _, fun _ => hv, next_unique h e⟩
  · rw [e] at h; cases h
  · exact .inl ⟨_, _, _, by simp [Raisable], next_unique h e⟩
  · rw [e] at h; cases h
  · exact .inr ⟨leaf, c, hv, hl, hc, next_unique h e⟩

theorem takeBits_next {bits : List Bool} {s t : State} (h : takeBits bits s = .next t) :
    ∃ c c', s.work = .walk c ∧ t = { s with work := .walk c' } := by
  rcases takeBits_cases bits s with ⟨c, c', hw, -, -, e⟩ | ⟨-, -, -, -, e⟩ | e
  · exact ⟨c, c', hw, next_unique h e⟩
  · rw [e] at h; cases h
  · rw [e] at h; cases h

theorem takeTreeWord_next {b : Byte} {s t : State} (h : takeTreeWord b s = .next t) :
    ∃ c, s.work = .deser c ∧ ((∃ c', t = { s with work := .deser c' }) ∨
      ∃ pos val, t = raiseInTree .malformedArtifact pos val { s with work := .idle }) := by
  rcases takeTreeWord_cases b s with ⟨c, c', hw, -, -, e⟩ | ⟨c, pos, val, hw, -, -, e⟩ | e
  · exact ⟨c, hw, .inl ⟨c', next_unique h e⟩⟩
  · exact ⟨c, hw, .inr ⟨pos, val, next_unique h e⟩⟩
  · rw [e] at h; cases h

/-- What every stage keeps, a composite of stages keeps (R140). -/
theorem andThen_keeps {P : State → Prop} {r : Result} {f : State → Result} (hr : ∀ t, r = .next t → P t)
    (hf : ∀ t u, P t → f t = .next u → P u) {u : State} (h : andThen r f = .next u) : P u := by
  obtain ⟨t, ht, ⟨-, rfl⟩ | ⟨-, hu⟩⟩ := andThen_next h
  · exact hr u ht
  · exact hf t u (hr t ht) hu

/-- What a host action can leave: a command's outcome, the state after reset, one byte written, or new values in the
host's own registers (R37, R61, R82). -/
theorem hostAct_next {a : HostAct} {s t : State} (h : hostAct a s = .next t) :
    (∃ v, a = .writeReg 0 v ∧ exec (decodeCommand (commandWord v)) s = .next t) ∨
    (a = .reset ∧ t = hostReset s) ∨
    (∃ b i v, i < capacityOf s.params b ∧ t = writeByte s b i v) ∨
    ∃ symLen artLen msgOff bitLen arg hostRead, t = { s with
      symLen := symLen, artLen := artLen, msgOff := msgOff, bitLen := bitLen, arg := arg, hostRead := hostRead } := by
  cases a with
  | reset => exact .inr (.inl ⟨rfl, (Host.Outcome.next.inj h).symm⟩)
  | writeByte b i v =>
    simp only [hostAct, hostWriteByte] at h
    split at h
    · next hi => exact .inr (.inr (.inl ⟨b, i, v, hi, (Host.Outcome.next.inj h).symm⟩))
    · cases h
  | readByte b i =>
    simp only [hostAct, hostReadByte] at h
    split at h
    · exact .inr (.inr (.inr ⟨_, _, _, _, _, _, (Host.Outcome.next.inj h).symm⟩))
    · cases h
  | readReg n =>
    simp only [hostAct, hostReadReg] at h
    split at h
    · exact .inr (.inr (.inr ⟨_, _, _, _, _, _, (Host.Outcome.next.inj h).symm⟩))
    · cases h
  | writeReg n v =>
    simp only [hostAct, hostWriteReg] at h
    split at h
    case h_1 => exact .inl ⟨v, rfl, h⟩
    case h_14 => cases h
    all_goals exact .inr (.inr (.inr ⟨_, _, _, _, _, _, (Host.Outcome.next.inj h).symm⟩))

/-- Between commands the engine waits for the host (R61, R185). -/
theorem step_of_no_input {s : State} (hw : s.work = .idle) (hi : s.input = []) : step s = .next s := by
  cases s; cases hw; cases hi; rfl

/-- Between commands a step is the host's next action (R61). -/
theorem step_of_input {s : State} (hw : s.work = .idle) {a : HostAct} {rest : List HostAct} (hi : s.input = a :: rest) :
    step s = hostAct a { s with input := rest } := by
  cases s; cases hw; cases hi; rfl

theorem step_idle_next {s t : State} (hw : s.work = .idle) (h : step s = .next t) :
    t = s ∨ ∃ a rest, s.input = a :: rest ∧ hostAct a { s with input := rest } = .next t := by
  cases hi : s.input with
  | nil => exact .inl (next_unique h (step_of_no_input hw hi))
  | cons a rest => exact .inr ⟨a, rest, rfl, (step_of_input hw hi).symm.trans h⟩

end Sys2Proof.Machine
end

section
/-! PROOF. The invariant `StateOK` (R23, R25, R34, R40, R164, R170): it holds after reset, and every step keeps it. -/

namespace Sys2Proof.Machine

variable {s t : State}

/-! ### What the shared operations keep -/

theorem StateOK.raise (h : StateOK s) {k : ErrKind} (hk : Raisable s k) (pos : Nat) (val : Byte) :
    StateOK (raise k pos val s) :=
  { h with
    sticky := fun _ => rfl
    record := fun he => nomatch he
    noTreeErr := fun he => hk (.inl (Option.some.inj he))
    malformedErr := fun he => hk (.inr (Option.some.inj he)) }

theorem StateOK.dropTree (h : StateOK s) : StateOK (dropTree s) :=
  { h with
    tree := fun hv => nomatch hv
    noTree := fun _ => ⟨rfl, rfl, rfl, rfl, rfl, rfl⟩
    noTreeErr := fun _ => rfl
    malformedErr := fun _ => rfl }

theorem StateOK.raiseInTree (h : StateOK s) (k : ErrKind) (pos : Nat) (val : Byte) : StateOK (raiseInTree k pos val s) :=
  h.dropTree.raise (fun _ => rfl) pos val

theorem StateOK.succeed (h : StateOK s) : StateOK (succeed s) :=
  { h with
    sticky := fun he => absurd rfl he
    record := fun _ => rfl
    noTreeErr := fun he => nomatch he
    malformedErr := fun he => nomatch he }

/-- A command that puts a well-formed tree in place ends in the invariant (R40). -/
theorem StateOK.succeed_installTree (h : StateOK s) {nodes : List Node} {ix : List Nat} {r : Nat}
    (htree : TreeOK nodes ix r ix.length) (hfreq : FreqOK nodes) : StateOK (Machine.succeed (installTree nodes ix r s)) :=
  { h.succeed with
    tree := fun _ => ⟨treeReady_installTree htree s, hfreq⟩
    noTree := fun hv => nomatch hv
    noTreeErr := fun he => nomatch he
    malformedErr := fun he => nomatch he }

/-- The registers and fields that the invariant says nothing of may take any value. -/
theorem StateOK.withFree (h : StateOK s) (symLen artLen msgOff : BitVec 32) (bitLen : BitVec 40) (arg : BitVec 8)
    (input : List HostAct) (hostRead : BitVec 254) : StateOK { s with
      symLen := symLen, artLen := artLen, msgOff := msgOff, bitLen := bitLen, arg := arg, input := input,
      hostRead := hostRead } :=
  { h with }

/-- A codeword put in `CW_LEN` and `CW_BITS` (R34, R113). -/
theorem StateOK.withCodeword (h : StateOK s) {c : List Bool} (hc : c.length ≤ maxCw) :
    StateOK { s with cwLen := BitVec.ofNat 8 c.length, cwBits := BitVec.ofNat 254 (bitsValue c) } := by
  have hlen : (BitVec.ofNat 8 c.length).toNat = c.length := by
    rw [BitVec.toNat_ofNat]; simp only [maxCw] at hc; omega
  refine { h with codeLength := by simpa [hlen] using hc, codeBits := fun i hi => ?_ }
  rw [BitVec.getLsbD_ofNat, testBit_bitsValue, List.getD_eq_default _ _ (by simpa [hlen] using hi), Bool.and_false]

theorem StateOK.withSym (h : StateOK s) {m : Memory} (hm : BufferOK m s.params.symCap) : StateOK { s with sym := m } :=
  { h with sym := hm }

theorem StateOK.withArt (h : StateOK s) {m : Memory} (hm : BufferOK m s.params.artCap) : StateOK { s with art := m } :=
  { h with art := hm }

theorem StateOK.writeByte (h : StateOK s) {b : Buffer} {i : Nat} (hi : i < capacityOf s.params b) (v : Byte) :
    StateOK (writeByte s b i v) := by
  cases b with
  | sym => exact h.withSym (h.sym.poke hi v)
  | art => exact h.withArt (h.art.poke hi v)

/-- The state after reset meets the invariant (R38, R185). -/
theorem stateOK_resetWith {p : Params} (hp : p.ok = true) (epoch : Nat) (hostRead : BitVec 254) (input : List HostAct) :
    StateOK (State.resetWith p epoch hostRead input) where
  params := hp
  sym := ⟨rfl, fun _ hc => absurd hc List.not_mem_nil⟩
  art := ⟨rfl, fun _ hc => absurd hc List.not_mem_nil⟩
  tree := fun hv => nomatch hv
  noTree := fun _ => ⟨rfl, rfl, rfl, rfl, rfl, rfl⟩
  idle := rfl
  sticky := fun he => absurd rfl he
  record := fun _ => rfl
  noTreeErr := fun he => nomatch he
  malformedErr := fun he => nomatch he
  codeLength := Nat.zero_le _
  codeBits := fun _ _ => BitVec.getLsbD_zero

/-! ### What the stages keep -/

theorem trainStage_keeps_stateOK (hs : StateOK s) (h : trainStage s = .next t) : StateOK t := by
  obtain ⟨k, pos, val, rfl⟩ | rfl := trainStage_next h
  · exact hs.raiseInTree k pos val
  · obtain ⟨htree, hfreq⟩ := trainedArena_ok (symbols s)
    exact hs.succeed_installTree (by simpa using htree) hfreq

theorem tdesStage_keeps_stateOK (hs : StateOK s) (h : tdesStage s = .next t) : StateOK t := by
  obtain ⟨k, pos, val, rfl⟩ | ⟨c, hc, rfl⟩ := tdesStage_next h
  · exact hs.raiseInTree k pos val
  · obtain ⟨htree, hfreq⟩ := deserialize_treeOK hc
    exact (hs.withFree s.symLen s.artLen _ s.bitLen s.arg s.input s.hostRead).succeed_installTree htree hfreq

theorem tserStage_keeps_stateOK (hs : StateOK s) (h : tserStage s = .next t) : StateOK t := by
  obtain ⟨k, pos, val, hk, rfl⟩ | ⟨bytes, hv, hcap, hbytes, rfl⟩ := tserStage_next h
  · exact hs.raise hk pos val
  · obtain ⟨bytes', hbytes', hlen⟩ := (hs.tree hv).1.treeBytes_spec
    obtain rfl := Option.some.inj (hbytes.symm.trans hbytes')
    exact ((hs.withArt (hs.art.pokeAll bytes (off := 0) (by omega))).withFree
      s.symLen _ _ 0 s.arg s.input s.hostRead).succeed

theorem encodeStage_keeps_stateOK (hs : StateOK s) (h : encodeStage s = .next t) : StateOK t := by
  obtain ⟨k, pos, val, hk, rfl⟩ | ⟨bits, hcap, rfl⟩ := encodeStage_next h
  · exact hs.raise hk pos val
  · exact ((hs.withArt (hs.art.pokeAll (pack bits) (by simpa using hcap))).withFree
      s.symLen _ s.msgOff _ s.arg s.input s.hostRead).succeed

theorem decodeStage_keeps_stateOK (hs : StateOK s) (h : decodeStage s = .next t) : StateOK t := by
  obtain ⟨k, pos, val, hk, rfl⟩ | ⟨out, hcap, rfl⟩ := decodeStage_next h
  · exact hs.raise hk pos val
  · exact ((hs.withSym (hs.sym.pokeAll out (off := 0) (by omega))).withFree
      _ s.artLen s.msgOff s.bitLen s.arg s.input s.hostRead).succeed

theorem codewordStage_keeps_stateOK (hs : StateOK s) (h : codewordStage s = .next t) : StateOK t := by
  obtain ⟨k, pos, val, hk, rfl⟩ | ⟨leaf, c, hv, hleaf, hcode, rfl⟩ := codewordStage_next h
  · exact (hs.withCodeword (c := []) (Nat.zero_le _)).raise hk pos val
  · obtain ⟨hready, -⟩ := hs.tree hv
    have hlt : leaf < s.arena.length := by
      rcases lookup_spec hready s.arg with ⟨n, hn, hlt, -⟩ | ⟨hn, -⟩ <;> rw [hleaf] at hn <;> cases hn
      exact hlt
    obtain ⟨c', hc', hlen, -⟩ := codeOf_spec hready.2.2 hlt
    obtain rfl := Option.some.inj (hcode.symm.trans hc')
    exact (hs.withCodeword hlen).succeed

theorem execClear_keeps_stateOK (hs : StateOK s) (h : execClear s = .next t) : StateOK t := by
  obtain rfl := (Host.Outcome.next.inj h).symm
  exact { stateOK_resetWith hs.params 0 0 [] with sym := hs.sym, art := hs.art, idle := hs.idle }

theorem illegalCommand_keeps_stateOK (hs : StateOK s) {c : Byte} (h : illegalCommand c s = .next t) : StateOK t := by
  obtain rfl := (Host.Outcome.next.inj h).symm
  exact hs.raise (by simp [Raisable]) 0 c

/-! ### Instructions, host actions, steps -/

/-- Between commands no word of a data stream is taken (R72, R75, R77). -/
theorem takeTreeWord_idle (hw : s.work = .idle) (b : Byte) : takeTreeWord b s ≠ .next t := fun h => by
  obtain ⟨c, hc, -⟩ := takeTreeWord_next h
  rw [hw] at hc; cases hc

theorem takeBits_idle (hw : s.work = .idle) (bits : List Bool) : takeBits bits s ≠ .next t := fun h => by
  obtain ⟨c, -, hc, -⟩ := takeBits_next h
  rw [hw] at hc; cases hc

theorem exec_keeps_stateOK (hs : StateOK s) (i : Instr) (h : exec i s = .next t) : StateOK t := by
  cases i with
  | nop => obtain rfl := Host.Outcome.next.inj h; exact hs
  | clear => exact execClear_keeps_stateOK hs h
  | train => exact trainStage_keeps_stateOK hs h
  | tser => exact tserStage_keeps_stateOK hs h
  | encode => exact encodeStage_keeps_stateOK hs h
  | compress =>
    exact andThen_keeps
      (fun _ => andThen_keeps (fun _ => trainStage_keeps_stateOK hs) fun _ _ ht => tserStage_keeps_stateOK ht)
      (fun _ _ ht => encodeStage_keeps_stateOK ht) h
  | tdes => exact tdesStage_keeps_stateOK hs h
  | decode => exact decodeStage_keeps_stateOK hs h
  | expand =>
    exact andThen_keeps (fun _ => tdesStage_keeps_stateOK hs)
      (fun u _ hu => decodeStage_keeps_stateOK
        (hu.withFree u.symLen u.artLen u.msgOff _ u.arg u.input u.hostRead)) h
  | codeword => exact codewordStage_keeps_stateOK hs h
  | reservedA => exact illegalCommand_keeps_stateOK hs h
  | reservedB => exact illegalCommand_keeps_stateOK hs h
  | reservedC => exact illegalCommand_keeps_stateOK hs h
  | reservedD => exact illegalCommand_keeps_stateOK hs h
  | reservedE => exact illegalCommand_keeps_stateOK hs h
  | reservedF => exact illegalCommand_keeps_stateOK hs h
  | treeInternal => exact absurd h (takeTreeWord_idle hs.idle _)
  | treeLeaf v => exact absurd h (takeTreeWord_idle hs.idle _)
  | codeLeft => exact absurd h (takeBits_idle hs.idle _)
  | codeRight => exact absurd h (takeBits_idle hs.idle _)
  | msgByte b => exact absurd h (takeBits_idle hs.idle _)

theorem hostAct_keeps_stateOK (hs : StateOK s) {a : HostAct} (h : hostAct a s = .next t) : StateOK t := by
  obtain ⟨v, -, h⟩ | ⟨-, rfl⟩ | ⟨b, i, v, hi, rfl⟩ | ⟨symLen, artLen, msgOff, bitLen, arg, hostRead, rfl⟩ := hostAct_next h
  · exact exec_keeps_stateOK hs _ h
  · exact stateOK_resetWith hs.params _ _ _
  · exact hs.writeByte hi v
  · exact hs.withFree symLen artLen msgOff bitLen arg s.input hostRead

/-- Settles O57: between commands a step is a host action, and each of them keeps the invariant. -/
theorem stepKeepsStateOK : Obligations.StepKeepsStateOK := by
  intro s t hs h
  obtain rfl | ⟨a, rest, -, h⟩ := step_idle_next hs.idle h
  · exact hs
  · exact hostAct_keeps_stateOK
      (hs.withFree s.symLen s.artLen s.msgOff s.bitLen s.arg rest s.hostRead) h

/-- Settles O56: the chosen capacities lie in their range. -/
theorem resetMeetsStateOK : Obligations.ResetMeetsStateOK :=
  ⟨stateOK_resetWith (by decide) 0 0 [], fun _ e h acts hp => stateOK_resetWith hp e h acts⟩

end Sys2Proof.Machine
end

section
/-! PROOF. What an instruction and a step leave alone: the two capacities (R8, R36), and the tree wherever the command
is not one that writes it (R31, R64). -/

namespace Sys2Proof.Machine

variable {s t : State}

/-! ### The capacities -/

theorem trainStage_params (h : trainStage s = .next t) : t.params = s.params := by
  obtain ⟨k, pos, val, rfl⟩ | rfl := trainStage_next h <;> rfl

theorem tserStage_params (h : tserStage s = .next t) : t.params = s.params := by
  obtain ⟨k, pos, val, -, rfl⟩ | ⟨bytes, -, -, -, rfl⟩ := tserStage_next h <;> rfl

theorem encodeStage_params (h : encodeStage s = .next t) : t.params = s.params := by
  obtain ⟨k, pos, val, -, rfl⟩ | ⟨bits, -, rfl⟩ := encodeStage_next h <;> rfl

theorem tdesStage_params (h : tdesStage s = .next t) : t.params = s.params := by
  obtain ⟨k, pos, val, rfl⟩ | ⟨c, -, rfl⟩ := tdesStage_next h <;> rfl

theorem decodeStage_params (h : decodeStage s = .next t) : t.params = s.params := by
  obtain ⟨k, pos, val, -, rfl⟩ | ⟨out, -, rfl⟩ := decodeStage_next h <;> rfl

theorem codewordStage_params (h : codewordStage s = .next t) : t.params = s.params := by
  obtain ⟨k, pos, val, -, rfl⟩ | ⟨leaf, c, -, -, -, rfl⟩ := codewordStage_next h <;> rfl

theorem takeTreeWord_params {b : Byte} (h : takeTreeWord b s = .next t) : t.params = s.params := by
  obtain ⟨c, -, ⟨c', rfl⟩ | ⟨pos, val, rfl⟩⟩ := takeTreeWord_next h <;> rfl

theorem takeBits_params {bits : List Bool} (h : takeBits bits s = .next t) : t.params = s.params := by
  obtain ⟨c, c', -, rfl⟩ := takeBits_next h; rfl

theorem illegalCommand_params {c : Byte} (h : illegalCommand c s = .next t) : t.params = s.params := by
  obtain rfl := Host.Outcome.next.inj h; rfl

theorem exec_params (i : Instr) (h : exec i s = .next t) : t.params = s.params := by
  cases i with
  | nop => obtain rfl := Host.Outcome.next.inj h; rfl
  | clear => obtain rfl := Host.Outcome.next.inj h; rfl
  | train => exact trainStage_params h
  | tser => exact tserStage_params h
  | encode => exact encodeStage_params h
  | compress =>
    exact andThen_keeps (P := fun u => u.params = s.params)
      (fun _ => andThen_keeps (fun _ => trainStage_params) fun _ _ ht hu => (tserStage_params hu).trans ht)
      (fun _ _ ht hu => (encodeStage_params hu).trans ht) h
  | tdes => exact tdesStage_params h
  | decode => exact decodeStage_params h
  | expand =>
    exact andThen_keeps (P := fun u => u.params = s.params) (fun _ => tdesStage_params)
      (fun u _ hu hnext => (decodeStage_params (s := feedAllBits u) hnext).trans hu) h
  | codeword => exact codewordStage_params h
  | reservedA => exact illegalCommand_params h
  | reservedB => exact illegalCommand_params h
  | reservedC => exact illegalCommand_params h
  | reservedD => exact illegalCommand_params h
  | reservedE => exact illegalCommand_params h
  | reservedF => exact illegalCommand_params h
  | treeInternal => exact takeTreeWord_params h
  | treeLeaf v => exact takeTreeWord_params h
  | codeLeft => exact takeBits_params h
  | codeRight => exact takeBits_params h
  | msgByte b => exact takeBits_params h

theorem hostAct_params {a : HostAct} (h : hostAct a s = .next t) : t.params = s.params := by
  obtain ⟨v, -, h⟩ | ⟨-, rfl⟩ | ⟨b, i, v, -, rfl⟩ | ⟨_, _, _, _, _, _, rfl⟩ := hostAct_next h
  · exact exec_params _ h
  · rfl
  · exact writeByte_params s b i v
  · rfl

theorem treeStreamStep_params {c : DeserCtx} (h : treeStreamStep c s = .next t) : t.params = s.params := by
  unfold treeStreamStep at h
  split at h
  · obtain rfl := Host.Outcome.next.inj h; rfl
  · split at h
    · obtain rfl := Host.Outcome.next.inj h; rfl
    · exact exec_params _ h

theorem messageStreamStep_params {c : WalkCtx} (h : messageStreamStep c s = .next t) : t.params = s.params := by
  unfold messageStreamStep finishWalk at h
  split at h
  · split at h <;> obtain rfl := Host.Outcome.next.inj h <;> rfl
  · exact exec_params _ h

/-- Settles O59: a step is a host action or one word of a stream, and neither writes the capacities. -/
theorem parametersNeverChange : Obligations.ParametersNeverChange := by
  intro s t h
  cases hw : s.work with
  | idle =>
    obtain rfl | ⟨a, rest, -, h⟩ := step_idle_next hw h
    · rfl
    · exact (hostAct_params h :)
  | deser c => simp only [step, advance, hw] at h; exact treeStreamStep_params h
  | walk c => simp only [step, advance, hw] at h; exact messageStreamStep_params h

/-! ### The tree -/

theorem SameTree.refl (s : State) : SameTree s s := ⟨rfl, rfl, rfl, rfl, rfl, rfl⟩

theorem tserStage_sameTree (h : tserStage s = .next t) : SameTree s t := by
  obtain ⟨k, pos, val, -, rfl⟩ | ⟨bytes, -, -, -, rfl⟩ := tserStage_next h <;> exact SameTree.refl s

theorem encodeStage_sameTree (h : encodeStage s = .next t) : SameTree s t := by
  obtain ⟨k, pos, val, -, rfl⟩ | ⟨bits, -, rfl⟩ := encodeStage_next h <;> exact SameTree.refl s

theorem decodeStage_sameTree (h : decodeStage s = .next t) : SameTree s t := by
  obtain ⟨k, pos, val, -, rfl⟩ | ⟨out, -, rfl⟩ := decodeStage_next h <;> exact SameTree.refl s

theorem codewordStage_sameTree (h : codewordStage s = .next t) : SameTree s t := by
  obtain ⟨k, pos, val, -, rfl⟩ | ⟨leaf, c, -, -, -, rfl⟩ := codewordStage_next h <;> exact SameTree.refl s

theorem takeBits_sameTree {bits : List Bool} (h : takeBits bits s = .next t) : SameTree s t := by
  obtain ⟨c, c', -, rfl⟩ := takeBits_next h; exact SameTree.refl s

theorem illegalCommand_sameTree {c : Byte} (h : illegalCommand c s = .next t) : SameTree s t := by
  obtain rfl := Host.Outcome.next.inj h; exact SameTree.refl s

theorem hostAct_sameTree {a : HostAct} (hreset : a ≠ .reset) (hcmd : ∀ v, a ≠ .writeReg 0 v) (h : hostAct a s = .next t) :
    SameTree s t := by
  obtain ⟨v, ha, -⟩ | ⟨ha, -⟩ | ⟨b, i, v, -, rfl⟩ | ⟨_, _, _, _, _, _, rfl⟩ := hostAct_next h
  · exact absurd ha (hcmd v)
  · exact absurd ha hreset
  · cases b <;> exact SameTree.refl s
  · exact SameTree.refl s

/-- Settles O47: each of these reads the tree at most. -/
theorem onlyTreeCommandsWriteTree : Obligations.OnlyTreeCommandsWriteTree := by
  refine ⟨fun i hi s t h => ?_, fun b s t h => takeBits_sameTree h, fun a s t => hostAct_sameTree⟩
  simp only [List.mem_cons, List.not_mem_nil, or_false] at hi
  obtain rfl | rfl | rfl | rfl | rfl | rfl | rfl | rfl | rfl | rfl | rfl | rfl | rfl := hi
  · obtain rfl := Host.Outcome.next.inj h; exact SameTree.refl s
  · exact tserStage_sameTree h
  · exact encodeStage_sameTree h
  · exact decodeStage_sameTree h
  · exact codewordStage_sameTree h
  · exact illegalCommand_sameTree h
  · exact illegalCommand_sameTree h
  · exact illegalCommand_sameTree h
  · exact illegalCommand_sameTree h
  · exact illegalCommand_sameTree h
  · exact illegalCommand_sameTree h
  · exact takeBits_sameTree h
  · exact takeBits_sameTree h

end Sys2Proof.Machine
end

section
/-! PROOF. The registers as the host sees them (R21, R23, R37, R160), their reset values (R38), and the command a host write
runs (R24, R150). -/

namespace Sys2Proof.Machine

/-! ### Reading and writing registers -/

/-- `STATUS` as a number (R23). -/
theorem statusWord_toNat (s : State) :
    (statusWord s).toNat = s.treeValid.toNat + 2 * s.faultSeen.toNat + 4 * (errField s.err).toNat := by
  unfold statusWord
  generalize errField s.err = e
  revert e
  cases s.treeValid <;> cases s.faultSeen <;> decide

/-- A narrow register keeps its value in the 254 bits a read returns. -/
theorem toNat_readValue {w : Nat} (hw : w ≤ 254) (x : BitVec w) : (x.setWidth 254).toNat = x.toNat :=
  BitVec.toNat_setWidth_of_le hw

/-- Settles O8: register by register. -/
theorem registerReads : Obligations.RegisterReads := by
  refine ⟨fun s => ⟨⟨_, rfl, ?_⟩, ?_, fun n v hv => ?_⟩, rfl, rfl, rfl, rfl, rfl, rfl, rfl, rfl⟩
  · rw [toNat_readValue (by decide), statusWord_toNat]
  · simp [registerValue, toNat_readValue, -BitVec.toNat_setWidth]
  · simp [hostAct, hostReadReg, hv]

theorem registerValue_of_absent (s : State) {n : Nat} (hn : 13 ≤ n) : registerValue s n = none := by
  obtain ⟨m, rfl⟩ := Nat.exists_eq_add_of_le' hn; rfl

theorem hostWriteReg_of_absent (s : State) (v : BitVec 254) {n : Nat} (hn : 13 ≤ n) :
    hostWriteReg n v s = .refused .noSuchRegister := by
  obtain ⟨m, rfl⟩ := Nat.exists_eq_add_of_le' hn; rfl

theorem hostWriteReg_readOnly (s : State) (v : BitVec 254) {n : Nat} (hn : n ∈ [1, 2, 8, 9, 10, 11, 12]) :
    hostWriteReg n v s = .next s := by
  simp only [List.mem_cons, List.not_mem_nil, or_false] at hn
  obtain rfl | rfl | rfl | rfl | rfl | rfl | rfl := hn <;> rfl

/-- Settles O9: the read-only, the read-write and the absent registers. -/
theorem hostRegisterAccess : Obligations.HostRegisterAccess := by
  refine fun s v => ⟨fun n hn => hostWriteReg_readOnly s v hn, rfl, rfl, rfl, rfl, rfl, rfl, fun n hn => ⟨?_, ?_⟩⟩
  · exact hostWriteReg_of_absent s v hn
  · simp [hostAct, hostReadReg, registerValue_of_absent s hn]

/-! ### Reset and CLEAR -/

theorem statusWord_resetWith (p : Params) (epoch : Nat) (hostRead : BitVec 254) (input : List HostAct) :
    statusWord (State.resetWith p epoch hostRead input) = 0 := by
  apply BitVec.eq_of_toNat_eq
  rw [statusWord_toNat]; rfl

/-- Every register reads 0 after reset (R38). -/
theorem registerValue_resetWith (p : Params) (epoch : Nat) (hostRead : BitVec 254) (input : List HostAct) {n : Nat}
    (hn : n ≤ 12) : registerValue (State.resetWith p epoch hostRead input) n = some 0 := by
  interval_cases n
  · rfl
  · simp [registerValue, statusWord_resetWith]
  all_goals rfl

/-- No byte of either buffer is written after reset (R38, R188). -/
theorem peek_resetWith (p : Params) (epoch : Nat) (hostRead : BitVec 254) (input : List HostAct) (b : Buffer) (i : Nat) :
    Memory.peek (bufferOf (State.resetWith p epoch hostRead input) b) i = none := by
  cases b <;> rfl

/-- CLEAR leaves the registers that reset leaves, and keeps the buffers (R152). -/
theorem exec_clear (s : State) : exec .clear s =
    .next { State.resetWith s.params s.epoch s.hostRead s.input with sym := s.sym, art := s.art, work := s.work } := rfl

/-- Without a tree the commands that read it raise `NoTree` (R164). -/
theorem exec_noTree {s : State} (hv : s.treeValid = false) {i : Instr} (hi : i ∈ [Instr.tser, .encode, .decode, .codeword]) :
    ∃ t, exec i s = .next t ∧ t.err = some .noTree := by
  simp only [List.mem_cons, List.not_mem_nil, or_false] at hi
  obtain rfl | rfl | rfl | rfl := hi
  · exact ⟨raise .noTree 0 0 s, by simp [exec, execTser, tserStage, hv], rfl⟩
  · exact ⟨raise .noTree 0 0 s, by simp [exec, execEncode, encodeStage, hv], rfl⟩
  · exact ⟨raise .noTree 0 0 s, by simp [exec, execDecode, decodeStage, decodeTests, hv], rfl⟩
  · exact ⟨raise .noTree 0 0 { s with cwLen := 0, cwBits := 0 }, by simp [exec, execCodeword, codewordStage, hv], rfl⟩

/-- Settles O4: the reset input, the state after reset, CLEAR, and the commands without a tree. -/
theorem resetAndClearValues : Obligations.ResetAndClearValues := by
  refine ⟨fun s => ⟨hostReset s, rfl, fun n hn => ?_, rfl, rfl, fun b i => ?_, rfl⟩, fun p e h acts => ?_,
    fun s => ⟨_, exec_clear s, fun n hn => ?_, rfl, rfl, fun b => ?_⟩, fun s hv i hi => exec_noTree hv hi⟩
  · exact registerValue_resetWith _ _ _ _ hn
  · exact peek_resetWith _ _ _ _ b i
  · exact ⟨fun n hn => registerValue_resetWith p e h acts hn, rfl, rfl, peek_resetWith p e h acts⟩
  · exact registerValue_resetWith s.params s.epoch s.hostRead s.input hn
  · cases b <;> rfl

/-! ### The command a write to `CMD` runs -/

/-- A write to `CMD` runs the command of the value's four low bits (R24, R150). -/
theorem step_of_command {s : State} (hw : s.work = .idle) {v : BitVec 254} {rest : List HostAct}
    (hi : s.input = .writeReg 0 v :: rest) :
    step s = exec (decodeCommand (BitVec.ofNat 4 v.toNat)) { s with input := rest } :=
  step_of_input hw hi

/-- The decoder's command of a byte is the one of its four low bits (R70). -/
theorem decode_command_ok {b : Byte} {rest : List Byte} {i : Instr} {rest' : List Byte}
    (h : decode .command (b :: rest) = .ok (i, rest')) : i = decodeCommand (b.setWidth 4) := by
  simp only [decode, decodeByte] at h
  by_cases hb : b.toNat < 16
  · simp only [hb, if_true] at h; cases h; rfl
  · simp only [hb, if_false] at h; cases h

/-- The four low bits of a value are those of its byte's. -/
theorem setWidth_ofNat_mod (n : Nat) : (BitVec.ofNat 8 (n % 16)).setWidth 4 = BitVec.ofNat 4 n := by
  apply BitVec.eq_of_toNat_eq
  simp only [BitVec.toNat_setWidth, BitVec.toNat_ofNat]
  omega

/-- Settles O12: the written value's command is the one the decoder reads from its low bits. -/
theorem stepRunsCommand : Obligations.StepRunsCommand := by
  intro s v rest hw hi
  refine ⟨step_of_command hw hi, fun i hdec => ?_⟩
  rw [step_of_command hw hi, decode_command_ok hdec, setWidth_ofNat_mod]

/-- The table's word of eight bits is one byte. -/
theorem tableBytes_eight (w : Nat) : tableBytes 8 w = [BitVec.ofNat 8 w] := by
  simp [tableBytes]

theorem decodeTableWord_some {w : Nat} (hw : w < 16) {i : Instr} (h : decodeTableWord 8 w = some i) :
    i = decodeCommand (BitVec.ofNat 4 w) := by
  rw [decodeTableWord, tableBytes_eight] at h
  split at h
  · next hdec =>
    cases h
    rw [decode_command_ok hdec, ← setWidth_ofNat_mod, Nat.mod_eq_of_lt hw]
  · cases h

/-- Settles O13: the placed action is the write of the word to `CMD`. -/
theorem placedWordRuns : Obligations.PlacedWordRuns := by
  intro s w i hw hdec
  have hrun := step_of_command (s := s.withFetchWord 8 w) (v := BitVec.ofNat 254 w) rfl rfl
  have hword : (BitVec.ofNat 254 w).toNat = w := by
    rw [BitVec.toNat_ofNat, Nat.mod_eq_of_lt (hw.trans (by decide))]
  rw [hrun, hword, decodeTableWord_some hw hdec]
  rfl

end Sys2Proof.Machine
end

section
/-! PROOF. Two runs of a composite side by side (R36, R142, R144): each stage ends in the same fault, or makes the same
update, in two states that agree on the stage's inputs. -/

namespace Sys2Proof.Machine

variable {s s' : State}

/-! ### The inputs as the two states hold them -/

theorem artByte_of_artifact (hlen : s.artLen = s'.artLen) (h : artifact s = artifact s') {i : Nat} (hi : i < s.artLen.toNat) :
    artByte s i = artByte s' i := by
  have hi' : i < s'.artLen.toNat := hlen ▸ hi
  have := congrArg (·[i]?) h
  simpa [artifact, hi, hi'] using this

theorem artifact_congr (hlen : s.artLen = s'.artLen) (h : ∀ i < s.artLen.toNat, artByte s i = artByte s' i) :
    artifact s = artifact s' := by
  unfold artifact
  rw [← hlen]
  exact List.map_congr_left fun i hi => h i (List.mem_range.1 hi)

theorem symbols_congr (hlen : s.symLen = s'.symLen) (h : ∀ i < s.symLen.toNat, symByte s i = symByte s' i) :
    symbols s = symbols s' := by
  unfold symbols
  rw [← hlen]
  exact List.map_congr_left fun i hi => h i (List.mem_range.1 hi)

/-- The message bits lie in the bytes of the artifact, if DECODE's range test passes (R120, R124). -/
theorem messageBits_congr (hlen : s.artLen = s'.artLen) (hoff : s.msgOff = s'.msgOff) (hbits : s.bitLen = s'.bitLen)
    (h : artifact s = artifact s') (hrange : s.bitLen.toNat ≤ 8 * (s.artLen.toNat - s.msgOff.toNat)) :
    messageBits s = messageBits s' := by
  unfold messageBits
  rw [← hbits]
  refine List.map_congr_left fun i hi => ?_
  have hi := List.mem_range.1 hi
  unfold msgBit
  rw [← hoff, artByte_of_artifact hlen h (by omega)]

theorem lookup_congr (ht : SameTree s s') (v : Byte) : lookup s v = lookup s' v := by
  obtain ⟨-, halpha, -, -, harena, haidx⟩ := ht
  simp only [lookup, halpha, harena, haidx]

theorem scanSymbols_congr (ht : SameTree s s') (i : Nat) (vs : List Byte) : scanSymbols s i vs = scanSymbols s' i vs := by
  induction vs generalizing i with
  | nil => rfl
  | cons v vs ih => simp only [scanSymbols, lookup_congr ht, ih]

theorem symbolCode_congr (ht : SameTree s s') (v : Byte) : symbolCode s v = symbolCode s' v := by
  obtain ⟨-, -, -, -, harena, -⟩ := id ht
  simp only [symbolCode, lookup_congr ht, harena]

theorem encodeBits_congr (ht : SameTree s s') (vs : List Byte) : encodeBits s vs = encodeBits s' vs := by
  induction vs with
  | nil => rfl
  | cons v vs ih => simp only [encodeBits, symbolCode_congr ht, ih]

/-! ### The stages in two states -/

/-- With a tree ENCODE finds every entry it follows (R115, R116). -/
theorem encodeStage_ne_fault (h : TreeReady s) : encodeStage s ≠ .fault .treeUnreadable := by
  have hlookup (v : Byte) : lookup s v ≠ .unreadable := by
    rcases lookup_spec h v with ⟨n, hn, -⟩ | ⟨hn, -⟩ <;> simp [hn]
  have hfound {v : Byte} (hv : ∃ n, lookup s v = .found n) : InAlphabet s.arena v := by
    obtain ⟨n, hn⟩ := hv
    rcases lookup_spec h v with ⟨m, -, hm⟩ | ⟨hno, -⟩
    · exact ⟨m, hm⟩
    · rw [hn] at hno; cases hno
  obtain ⟨hvalid, -, -⟩ := id h
  rcases scanSymbols_cases s 0 (symbols s) with ⟨hscan, hall⟩ | ⟨-, v, -, hv⟩ | ⟨j, hj, -, ⟨-, hscan⟩ | ⟨-, -, hscan⟩⟩
  · have hbits := encodeBits_of_clean h fun v hv => hfound (hall v hv).2
    simp only [encodeStage, hvalid, hscan, hbits, Bool.true_eq_false, if_false]
    split_ifs <;> simp
  · exact absurd hv (hlookup v)
  all_goals
    simp only [encodeStage, hvalid, hscan, Bool.true_eq_false, if_false]
    split_ifs <;> simp

theorem trainStage_alike (hp : s.params = s'.params) (hlen : s.symLen = s'.symLen) (hsym : symbols s = symbols s') :
    (∃ k pos val, trainStage s = .next (raiseInTree k pos val s) ∧ trainStage s' = .next (raiseInTree k pos val s')) ∨
    ∃ nodes ix r, TreeOK nodes ix r ix.length ∧ trainStage s = .next (succeed (installTree nodes ix r s)) ∧
      trainStage s' = .next (succeed (installTree nodes ix r s')) := by
  unfold trainStage
  rw [← hp, ← hlen, ← hsym]
  by_cases hcap : s.params.symCap < s.symLen.toNat
  · exact .inl ⟨_, _, _, if_pos hcap, if_pos hcap⟩
  · rw [if_neg hcap, if_neg hcap]
    cases (symbols s).findIdx? (· == marker) with
    | some i => exact .inl ⟨_, _, _, rfl, rfl⟩
    | none => exact .inr ⟨_, _, _, by simpa using (trainedArena_ok (symbols s)).1, rfl, rfl⟩

theorem tserStage_alike (h : TreeReady s) (ht : SameTree s s') (hp : s.params = s'.params) :
    (∃ k pos val, tserStage s = .next (raise k pos val s) ∧ tserStage s' = .next (raise k pos val s')) ∨
    ∃ bytes, bytes.length = s.nodeCnt.toNat ∧ tserStage s = .next (succeed (storeTree bytes s)) ∧
      tserStage s' = .next (succeed (storeTree bytes s')) := by
  obtain ⟨hvalid, -, hcnt, hroot, harena, -⟩ := ht
  obtain ⟨bytes, hbytes, hlen⟩ := h.treeBytes_spec
  have hbytes' : treeBytes s' = some bytes := by rw [← hbytes]; simp only [treeBytes, hroot, harena]
  unfold tserStage
  rw [← hp, ← hvalid, ← hcnt, h.1, hbytes, hbytes']
  by_cases hcap : s.params.artCap < s.nodeCnt.toNat
  · exact .inl ⟨.capacityExceeded, 0, 0, by simp [hcap], by simp [hcap]⟩
  · exact .inr ⟨bytes, hlen, by simp [hcap], by simp [hcap]⟩

theorem encodeStage_alike (h : TreeReady s) (ht : SameTree s s') (hp : s.params = s'.params) (hlen : s.symLen = s'.symLen)
    (hoff : s.msgOff = s'.msgOff) (hsym : symbols s = symbols s') :
    (∃ k pos val, encodeStage s = .next (raise k pos val s) ∧ encodeStage s' = .next (raise k pos val s')) ∨
    ∃ bits, encodeStage s = .next (succeed (storeMessage bits s)) ∧
      encodeStage s' = .next (succeed (storeMessage bits s')) := by
  have hvalid : s'.treeValid = true := ht.1.symm.trans h.1
  have hscan : scanSymbols s' 0 (symbols s') = scanSymbols s 0 (symbols s) := by rw [← hsym, scanSymbols_congr ht]
  have hcode : encodeBits s' (symbols s') = encodeBits s (symbols s) := by rw [← hsym, encodeBits_congr ht]
  rcases encodeStage_cases s with ⟨hv, -⟩ | ⟨-, hrange, e⟩ |
    ⟨-, h1, h2, ⟨k, i, v, hbad, e⟩ | e | ⟨hclean, bits, hbits, ⟨hcap, e⟩ | ⟨hcap, e⟩⟩⟩
  · rw [h.1] at hv; cases hv
  · refine .inl ⟨_, _, _, e, ?_⟩
    simp [encodeStage, hvalid, ← hp, ← hlen, ← hoff, hrange]
  · refine .inl ⟨_, _, _, e, ?_⟩
    simp [encodeStage, hvalid, ← hp, ← hlen, ← hoff, h1.not_gt, h2.not_gt, hscan, hbad]
  · exact absurd e (encodeStage_ne_fault h)
  · refine .inl ⟨_, _, _, e, ?_⟩
    simp [encodeStage, hvalid, ← hp, ← hlen, ← hoff, h1.not_gt, h2.not_gt, hscan, hclean, hcode, hbits, hcap]
  · refine .inr ⟨bits, e, ?_⟩
    simp [encodeStage, hvalid, ← hp, ← hlen, ← hoff, h1.not_gt, h2.not_gt, hscan, hclean, hcode, hbits, hcap.not_gt]

theorem tdesTests_congr (hp : s.params = s'.params) (hlen : s.artLen = s'.artLen) (h : artifact s = artifact s') :
    tdesTests s = tdesTests s' := by
  unfold tdesTests
  rw [← hp, ← hlen]
  by_cases h0 : s.artLen = 0
  · simp [h0]
  · have hpos : 0 < s.artLen.toNat := Nat.pos_of_ne_zero fun hz => h0 (BitVec.eq_of_toNat_eq (by simpa using hz))
    rw [artByte_of_artifact hlen h hpos]

theorem tdesStage_alike (hp : s.params = s'.params) (hlen : s.artLen = s'.artLen) (hart : artifact s = artifact s') :
    (∃ k pos val, tdesStage s = .next (raiseInTree k pos val s) ∧ tdesStage s' = .next (raiseInTree k pos val s')) ∨
    ∃ c, TreeOK c.nodes (leafIndex c.nodes) 0 (leafIndex c.nodes).length ∧ tdesStage s = .next (finishTree c s) ∧
      tdesStage s' = .next (finishTree c s') := by
  unfold tdesStage
  rw [← tdesTests_congr hp hlen hart, ← hlen, ← hart]
  cases tdesTests s with
  | some e => exact .inl ⟨_, _, _, rfl, rfl⟩
  | none =>
    cases hd : deserialize s.artLen.toNat ((artifact s).drop 1) deserStart with
    | error e => exact .inl ⟨_, _, _, rfl, rfl⟩
    | ok c => exact .inr ⟨c, (deserialize_treeOK hd).1, rfl, rfl⟩

theorem decodeTests_congr (hv : s.treeValid = s'.treeValid) (hp : s.params = s'.params) (hlen : s.artLen = s'.artLen)
    (hoff : s.msgOff = s'.msgOff) (hbits : s.bitLen = s'.bitLen) : decodeTests s = decodeTests s' := by
  simp only [decodeTests, hv, hp, hlen, hoff, hbits]

theorem decodeStage_alike (h : TreeReady s) (ht : SameTree s s') (hp : s.params = s'.params) (hlen : s.artLen = s'.artLen)
    (hoff : s.msgOff = s'.msgOff) (hbits : s.bitLen = s'.bitLen) (hart : artifact s = artifact s') :
    (∃ k pos val, decodeStage s = .next (raise k pos val s) ∧ decodeStage s' = .next (raise k pos val s')) ∨
    ∃ out : List Byte,
      decodeStage s = .next (succeed { s with sym := Memory.pokeAll s.sym 0 out, symLen := BitVec.ofNat 32 out.length }) ∧
      decodeStage s' =
        .next (succeed { s' with sym := Memory.pokeAll s'.sym 0 out, symLen := BitVec.ofNat 32 out.length }) := by
  obtain ⟨hv, -, -, hroot, harena, -⟩ := ht
  have htests := decodeTests_congr hv hp hlen hoff hbits
  rcases decodeTests_cases s with ⟨hno, -⟩ | ⟨-, -, hfault⟩ | ⟨-, -, -, hrange, hpass⟩
  · rw [h.1] at hno; cases hno
  · exact .inl ⟨.badRange, 0, 0, by simp only [decodeStage, hfault], by simp only [decodeStage, ← htests, hfault]⟩
  · have hroot_internal : kindAt s.arena (walkStart s).cur = some .internal := h.2.2.rootInternal
    obtain ⟨c, hwalk, -⟩ := walkBits_total h.2.2 (messageBits s) (walkStart s) hroot_internal
    have hwalk' : walkBits s'.arena s'.root.toNat (walkStart s') (messageBits s') = some c := by
      rw [← hwalk, ← messageBits_congr hlen hoff hbits hart hrange, walkStart, walkStart, hroot, harena]
    simp only [decodeStage, ← htests, hpass, hwalk, hwalk', finishWalk, ← hp]
    by_cases hcap : s.params.symCap < c.out.length
    · exact .inl ⟨_, _, _, if_pos hcap, if_pos hcap⟩
    · exact .inr ⟨c.out, if_neg hcap, if_neg hcap⟩

/-! ### The composites -/

/-- A composite ends at a stage that faults (R140). -/
theorem andThen_of_fault {r : Result} {t : State} {f : State → Result} (hr : r = .next t) (h : t.err ≠ none) :
    andThen r f = .next t := by
  rw [hr]; exact if_neg h

/-- After a stage without fault a composite is its next stage (R140). -/
theorem andThen_of_ok {r : Result} {t : State} {f : State → Result} (hr : r = .next t) (h : t.err = none) :
    andThen r f = f t := by
  rw [hr]; exact if_pos h

/-- The artifact that TSER and ENCODE write one after the other leaves no byte of the old `ART` in it (R78). -/
theorem artifact_written (bytes : List Byte) (bits : List Bool) (hcnt : s.nodeCnt = s'.nodeCnt)
    (hlen : bytes.length = s.nodeCnt.toNat) :
    artifact (storeMessage bits (storeTree bytes s)) = artifact (storeMessage bits (storeTree bytes s')) := by
  have hoff : (BitVec.ofNat 32 s.nodeCnt.toNat).toNat = bytes.length := by
    rw [BitVec.toNat_ofNat, hlen]; have := s.nodeCnt.isLt; omega
  have hend : (storeMessage bits (storeTree bytes s)).artLen = (storeMessage bits (storeTree bytes s')).artLen := by
    simp only [storeMessage_artLen, storeTree_msgOff, hcnt]
  refine artifact_congr hend fun i hi => ?_
  have hi : i < bytes.length + (pack bits).length := by
    simp only [storeMessage_artLen, storeTree_msgOff, hoff, BitVec.toNat_ofNat, pack_length] at hi ⊢
    exact hi.trans_le (Nat.mod_le _ _)
  rw [artByte_pokeAll (storeTree bytes s) (storeMessage bits (storeTree bytes s)) (pack bits) _ rfl rfl,
    artByte_pokeAll (storeTree bytes s') (storeMessage bits (storeTree bytes s')) (pack bits) _ rfl rfl]
  simp only [storeTree_msgOff, ← hcnt, hoff]
  by_cases hmsg : bytes.length ≤ i
  · simp only [hmsg, hi, and_self, dite_true]
  · rw [artByte_pokeAll s (storeTree bytes s) bytes 0 rfl rfl, artByte_pokeAll s' (storeTree bytes s') bytes 0 rfl rfl]
    simp [hmsg, Nat.lt_of_not_le hmsg]

/-- The symbols that DECODE writes leave no byte of the old `SYM` in them (R124). -/
theorem symbols_written {t t' : State} (out : List Byte) (hlen : t.symLen = BitVec.ofNat 32 out.length)
    (hlen' : t'.symLen = BitVec.ofNat 32 out.length) (hsym : t.sym = Memory.pokeAll s.sym 0 out)
    (hsym' : t'.sym = Memory.pokeAll s'.sym 0 out) (he : t.epoch = s.epoch) (he' : t'.epoch = s'.epoch) :
    symbols t = symbols t' := by
  refine symbols_congr (hlen.trans hlen'.symm) fun i hi => ?_
  have hi : i < out.length := by
    rw [hlen, BitVec.toNat_ofNat] at hi
    exact hi.trans_le (Nat.mod_le _ _)
  rw [symByte_pokeAll s t out 0 hsym he, symByte_pokeAll s' t' out 0 hsym' he']
  simp [hi]

/-- COMPRESS in two states of the same capacities with the same symbols (R36, R142). -/
theorem compress_alike (hp : s.params = s'.params) (hlen : s.symLen = s'.symLen) (hsym : symbols s = symbols s') :
    ∃ t t', exec .compress s = .next t ∧ exec .compress s' = .next t' ∧ SameTree t t' ∧ t.err = t'.err ∧
      t.errInfo = t'.errInfo ∧
      (t.err = none → artifact t = artifact t' ∧ t.artLen = t'.artLen ∧ t.msgOff = t'.msgOff ∧ t.bitLen = t'.bitLen) := by
  simp only [exec, execCompress]
  obtain ⟨k, pos, val, e, e'⟩ | ⟨nodes, ix, r, htree, e, e'⟩ := trainStage_alike hp hlen hsym
  · exact ⟨_, _, andThen_of_fault (andThen_of_fault e (by simp)) (by simp),
      andThen_of_fault (andThen_of_fault e' (by simp)) (by simp), SameTree.refl _, rfl, rfl, fun he => nomatch he⟩
  rw [andThen_of_ok e rfl, andThen_of_ok e' rfl]
  have hready : TreeReady (succeed (installTree nodes ix r s)) := treeReady_installTree htree s
  obtain ⟨k, pos, val, e, e'⟩ | ⟨bytes, hbytes, e, e'⟩ :=
    tserStage_alike (s' := succeed (installTree nodes ix r s')) hready (SameTree.refl _) hp
  · exact ⟨_, _, andThen_of_fault e (by simp), andThen_of_fault e' (by simp), SameTree.refl _, rfl, rfl,
      fun he => nomatch he⟩
  rw [andThen_of_ok e rfl, andThen_of_ok e' rfl]
  obtain ⟨k, pos, val, e, e'⟩ | ⟨bits, e, e'⟩ :=
    encodeStage_alike (s := succeed (storeTree bytes (succeed (installTree nodes ix r s))))
      (s' := succeed (storeTree bytes (succeed (installTree nodes ix r s')))) hready (SameTree.refl _) hp hlen rfl hsym
  · exact ⟨_, _, e, e', SameTree.refl _, rfl, rfl, fun he => nomatch he⟩
  · exact ⟨_, _, e, e', SameTree.refl _, rfl, rfl, fun _ => ⟨artifact_written bytes bits rfl hbytes, rfl, rfl, rfl⟩⟩

/-- EXPAND in two states of the same capacities with the same artifact (R36, R144). -/
theorem expand_alike (hp : s.params = s'.params) (hlen : s.artLen = s'.artLen) (hart : artifact s = artifact s') :
    ∃ t t', exec .expand s = .next t ∧ exec .expand s' = .next t' ∧ SameTree t t' ∧ t.err = t'.err ∧
      t.errInfo = t'.errInfo ∧
      (t.err = none → symbols t = symbols t' ∧ t.symLen = t'.symLen ∧ t.msgOff = t'.msgOff ∧ t.bitLen = t'.bitLen) := by
  simp only [exec, execExpand]
  obtain ⟨k, pos, val, e, e'⟩ | ⟨c, htree, e, e'⟩ := tdesStage_alike hp hlen hart
  · exact ⟨_, _, andThen_of_fault e (by simp), andThen_of_fault e' (by simp), SameTree.refl _, rfl, rfl,
      fun he => nomatch he⟩
  rw [andThen_of_ok e rfl, andThen_of_ok e' rfl]
  have hready : TreeReady (feedAllBits (finishTree c s)) := treeReady_installTree htree s
  have hfed : (feedAllBits (finishTree c s)).bitLen = (feedAllBits (finishTree c s')).bitLen := by
    simp only [feedAllBits_bitLen, finishTree_artLen, finishTree_msgOff, hlen]
  obtain ⟨k, pos, val, e, e'⟩ | ⟨out, e, e'⟩ :=
    decodeStage_alike (s' := feedAllBits (finishTree c s')) hready (SameTree.refl _) hp hlen rfl hfed hart
  · exact ⟨_, _, e, e', SameTree.refl _, rfl, rfl, fun he => nomatch he⟩
  · exact ⟨_, _, e, e', SameTree.refl _, rfl, rfl, fun _ => ⟨symbols_written out rfl rfl rfl rfl rfl rfl, rfl, rfl, hfed⟩⟩

/-- Settles O44: both composites, stage by stage in the two states. -/
theorem compositesIgnoreOldState : Obligations.CompositesIgnoreOldState :=
  ⟨fun _ _ => compress_alike, fun _ _ => expand_alike⟩

end Sys2Proof.Machine
end

section
/-! PROOF. The memory as the host and the decoder see it: single bytes of the buffers (R50, R52, R56), the host's place
between commands (R61), and the place of a message bit in `ART` (R54, R120). -/

namespace Sys2Proof.Machine

/-! ### One byte of a buffer -/

/-- A host read returns the byte, widened, and changes nothing else (R52). -/
theorem hostReadByte_of_lt {s : State} {b : Buffer} {i : Nat} (hi : i < capacityOf s.params b) :
    hostReadByte b i s = .next { s with hostRead := BitVec.ofNat 254 (readByte s b i).toNat } := by
  rw [hostReadByte, if_pos hi, BitVec.ofNat_toNat]

theorem hostReadByte_of_le {s : State} {b : Buffer} {i : Nat} (hi : capacityOf s.params b ≤ i) :
    hostReadByte b i s = .refused .indexBeyondCapacity :=
  if_neg hi.not_gt

theorem hostWriteByte_of_lt {s : State} {b : Buffer} {i : Nat} (hi : i < capacityOf s.params b) (v : Byte) :
    hostWriteByte b i v s = .next (writeByte s b i v) :=
  if_pos hi

theorem hostWriteByte_of_le {s : State} {b : Buffer} {i : Nat} (hi : capacityOf s.params b ≤ i) (v : Byte) :
    hostWriteByte b i v s = .refused .indexBeyondCapacity :=
  if_neg hi.not_gt

/-- A buffer write changes the two buffers at most. -/
theorem writeByte_frame (s : State) (b : Buffer) (i : Nat) (v : Byte) :
    writeByte s b i v = { s with sym := (writeByte s b i v).sym, art := (writeByte s b i v).art } := by
  cases b <;> rfl

/-- Settles O10: below the capacity the byte is written or read, at and beyond it the access is refused. -/
theorem bufferAccess : Obligations.BufferAccess := by
  refine fun s b i v => ⟨fun hi => ⟨writeByte s b i v, ?_, ?_, ?_⟩, fun hi => ?_, fun hi => ⟨?_, ?_⟩⟩
  · exact hostWriteByte_of_lt hi v
  · exact fun c j => readByte_writeByte s b c i j v
  · exact writeByte_frame s b i v
  · exact hostReadByte_of_lt hi
  · exact hostWriteByte_of_le hi v
  · exact hostReadByte_of_le hi

/-! ### Between commands -/

/-- Settles O11: without an action the engine waits, otherwise the first action is taken. -/
theorem stepTakesHostAction : Obligations.StepTakesHostAction :=
  fun _ hw => ⟨step_of_no_input hw, fun _ _ => step_of_input hw⟩

/-! ### The message bits -/

/-- Bit `i` of a byte sequence as arithmetic on its byte (R54). -/
theorem bitOf_toNat (x : Byte) (i : Nat) : (bitOf x i).toNat = x.toNat / 2 ^ (i % 8) % 2 := by
  rw [bitOf, BitVec.getLsbD, Nat.toNat_testBit]

/-- The byte of a bit below `n` is one of the `ceil8 n` bytes that hold `n` bits (R9). -/
theorem div_eight_lt_ceil8 {i n : Nat} (hi : i < n) : i / 8 < ceil8 n := by
  unfold ceil8; omega

/-- Unpacking the bytes `byteAt 0`, `byteAt 1`, ... that hold `n` bits gives the bits one by one (R77). -/
theorem unpack_map_range (byteAt : Nat → Byte) (n : Nat) :
    unpack ((List.range (ceil8 n)).map byteAt) n = (List.range n).map fun i => bitOf (byteAt (i / 8)) i := by
  refine List.map_congr_left fun i hi => ?_
  have hbyte : i / 8 < ceil8 n := div_eight_lt_ceil8 (List.mem_range.1 hi)
  simp [List.getD, hbyte]

/-- Settles O30: one bit of its byte, and all bits as the bytes unpacked. -/
theorem messageBitPlace : Obligations.MessageBitPlace :=
  ⟨fun _ i => bitOf_toNat _ i, fun s => (unpack_map_range (fun j => artByte s (s.msgOff.toNat + j)) s.bitLen.toNat).symm⟩

end Sys2Proof.Machine
end

section
/-! PROOF. The decoder and the encoder of the four spaces (R70, R72, R75, R77, R80): each inverts the other, and a decoded
word of a data stream needs its stream (log entry 4). -/

namespace Sys2Proof.Machine

/-! ### Words of one byte -/

/-- Settles O1: each word is decoded by computation. -/
theorem tableWordsDecode : Obligations.TableWordsDecode := by
  unfold Obligations.TableWordsDecode
  and_intros <;> rfl

theorem decodeTreeByte_of_ne {b : Byte} (hb : b ≠ marker) : decodeTreeByte b = .treeLeaf b := if_neg hb

/-- The byte of a well-formed instruction is decoded to it in the instruction's own space. -/
theorem decodeByte_encodeByte {i : Instr} (hi : i.wellFormed = true) : decodeByte (spaceOf i) (encodeByte i) = .ok i := by
  cases i
  case treeLeaf v =>
    have hv : v ≠ marker := by simpa [Instr.wellFormed] using hi
    simp [spaceOf, encodeByte, decodeByte, decodeTreeByte_of_ne hv]
  all_goals rfl

/-- Of the bytes of a space the decoder reads the first one only. -/
theorem decode_cons_of_ok {sp : Space} {b : Byte} {i : Instr} (h : decodeByte sp b = .ok i) (rest : List Byte) :
    decode sp (b :: rest) = .ok (i, rest) := by
  simp [decode, h]

/-- Settles O2: the encoding is one byte, and the decoder reads that byte alone. -/
theorem decodeOfEncode : Obligations.DecodeOfEncode :=
  fun _ rest hi => decode_cons_of_ok (decodeByte_encodeByte hi) rest

/-! ### What the decoder reads and what it refuses -/

/-- A command code decodes to the command that has it (R70, R80). -/
theorem decodeCommand_spec (c : BitVec 4) : spaceOf (decodeCommand c) = .command ∧
    (decodeCommand c).wellFormed = true ∧ encodeByte (decodeCommand c) = c.setWidth 8 := by
  revert c; decide

/-- A tree byte decodes to the node that has it (R72). -/
theorem decodeTreeByte_spec (b : Byte) : spaceOf (decodeTreeByte b) = .treeByte ∧
    (decodeTreeByte b).wellFormed = true ∧ encodeByte (decodeTreeByte b) = b := by
  by_cases hb : b = marker
  · subst hb; decide
  · rw [decodeTreeByte_of_ne hb]
    exact ⟨rfl, by simpa [Instr.wellFormed] using hb, rfl⟩

/-- A byte below 16 is its four low bits, widened again. -/
theorem setWidth_setWidth_of_lt {b : Byte} (hb : b.toNat < 16) : (b.setWidth 4).setWidth 8 = b := by
  bv_omega

/-- A byte that is a word of a space fits the space's bits, and is the byte of the well-formed instruction it stands for
there. -/
theorem decodeByte_ok {sp : Space} {b : Byte} {i : Instr} (h : decodeByte sp b = .ok i) :
    spaceOf i = sp ∧ i.wellFormed = true ∧ encodeByte i = b ∧ b.toNat < 2 ^ wordBits sp := by
  cases sp with
  | command =>
    simp only [decodeByte] at h
    split at h
    · next hb =>
      cases h
      obtain ⟨hsp, hwf, henc⟩ := decodeCommand_spec (b.setWidth 4)
      exact ⟨hsp, hwf, henc.trans (setWidth_setWidth_of_lt hb), hb⟩
    · cases h
  | treeByte =>
    cases h
    obtain ⟨hsp, hwf, henc⟩ := decodeTreeByte_spec b
    exact ⟨hsp, hwf, henc, b.isLt⟩
  | codeBit =>
    simp only [decodeByte] at h
    split at h
    · next hb => cases h; subst hb; decide
    · split at h
      · next hb => cases h; subst hb; decide
      · cases h
  | message => cases h; exact ⟨rfl, rfl, rfl, b.isLt⟩

/-- A byte is no word of a space when a command word is wider than four bits, or a codeword bit above 1 (R70, R75). -/
theorem decodeByte_error {sp : Space} {b : Byte} {e : DecodeError} (h : decodeByte sp b = .error e) :
    (e = .wideCommand ∧ sp = .command ∧ 16 ≤ b.toNat) ∨ (e = .notABit ∧ sp = .codeBit ∧ 2 ≤ b.toNat) := by
  cases sp with
  | command =>
    simp only [decodeByte] at h
    split at h
    · cases h
    · next hb => cases h; exact .inl ⟨rfl, rfl, not_lt.1 hb⟩
  | treeByte => cases h
  | codeBit =>
    simp only [decodeByte] at h
    split at h
    · cases h
    · next h0 =>
      split at h
      · cases h
      · next h1 => cases h; exact .inr ⟨rfl, rfl, by bv_omega⟩
  | message => cases h

/-- Settles O3: no bytes are no word, and of some bytes the first decides. -/
theorem encodeOfDecode : Obligations.EncodeOfDecode := by
  intro sp bytes
  cases bytes with
  | nil => exact ⟨fun _ _ h => (by cases h), fun _ h => .inl ⟨by cases h; rfl, rfl⟩⟩
  | cons b bytes =>
    cases hb : decodeByte sp b with
    | ok i =>
      rw [decode_cons_of_ok hb]
      refine ⟨fun j rest h => ?_, fun _ h => (by cases h)⟩
      cases h
      obtain ⟨hsp, hwf, henc, hfit⟩ := decodeByte_ok hb
      exact ⟨hsp, hwf, by simp [encode, henc], henc ▸ hfit⟩
    | error e =>
      have hdec : decode sp (b :: bytes) = .error e := by simp [decode, hb]
      rw [hdec]
      refine ⟨fun _ _ h => (by cases h), fun e' h => ?_⟩
      cases h
      rcases decodeByte_error hb with ⟨he, hsp, hle⟩ | ⟨he, hsp, hle⟩
      · exact .inr (.inl ⟨he, hsp, b, bytes, rfl, hle⟩)
      · exact .inr (.inr ⟨he, hsp, b, bytes, rfl, hle⟩)

/-! ### The data words outside their stream -/

/-- Between commands no message bit is taken (log entry 4). -/
theorem takeBits_of_idle {s : State} (hw : s.work = .idle) (bits : List Bool) :
    takeBits bits s = .refused .noOpenStream := by
  rcases takeBits_cases bits s with ⟨c, c', hc, -⟩ | ⟨c, hc, -⟩ | h
  · rw [hw] at hc; cases hc
  · rw [hw] at hc; cases hc
  · exact h

/-- Between commands no tree byte is taken (log entry 4). -/
theorem takeTreeWord_of_idle {s : State} (hw : s.work = .idle) (b : Byte) :
    takeTreeWord b s = .refused .noOpenStream := by
  rcases takeTreeWord_cases b s with ⟨c, c', hc, -⟩ | ⟨c, pos, val, hc, -⟩ | h
  · rw [hw] at hc; cases hc
  · rw [hw] at hc; cases hc
  · exact h

/-- Settles O53: tree bytes, codeword bits and message bytes, each by its stream. -/
theorem dataWordsNeedTheirStream : Obligations.DataWordsNeedTheirStream := by
  intro s hw i hi
  cases i
  case treeInternal => exact takeTreeWord_of_idle hw marker
  case treeLeaf v => exact takeTreeWord_of_idle hw v
  case codeLeft => exact takeBits_of_idle hw [false]
  case codeRight => exact takeBits_of_idle hw [true]
  case msgByte b => exact takeBits_of_idle hw _
  all_goals exact absurd rfl hi

end Sys2Proof.Machine
end

section
/-! PROOF. The packed message (R54, R77): the bytes as sums of their bits' weights, and the inverse laws of packing and
unpacking. -/

namespace Sys2Proof.Machine

/-- A number's low bits, each with its weight, add up to its remainder. -/
theorem sum_bitWeights (x n : Nat) :
    ((List.range n).map fun b => if x.testBit b then 2 ^ b else 0).sum = x % 2 ^ n := by
  induction n with
  | zero => simp [Nat.mod_one]
  | succ n ih =>
    rw [List.range_succ, List.map_append, List.sum_append, ih, Nat.mod_pow_succ, List.map_singleton,
      List.sum_singleton, Nat.testBit_eq_decide_div_mod_eq]
    rcases Nat.mod_two_eq_zero_or_one (x / 2 ^ n) with hbit | hbit <;> simp [hbit]

/-- Byte `j` of the packed message is one of its bytes (R77). -/
theorem pack_getD {bits : List Bool} {j : Nat} (hj : j < ceil8 bits.length) : (pack bits).getD j 0 = packByte bits j := by
  simp [pack, List.getD, hj]

/-- A packed byte is the sum of its bits' weights (R77). -/
theorem packByte_toNat (bits : List Bool) (j : Nat) : (packByte bits j).toNat =
    ((List.range 8).map fun b => if bits.getD (8 * j + b) false then 2 ^ b else 0).sum := by
  have hsum := sum_bitWeights (packByte bits j).toNat 8
  rw [Nat.mod_eq_of_lt (packByte bits j).isLt] at hsum
  rw [← hsum]
  refine congrArg List.sum (List.map_congr_left fun b hb => ?_)
  rw [← packByte_bit bits j b (List.mem_range.1 hb), BitVec.getLsbD]

/-- Bit `i` of the packed message's bytes is bit `i` of the sequence, and 0 past the end (R77). -/
theorem bitOf_pack (bits : List Bool) (i : Nat) : bitOf ((pack bits).getD (i / 8) 0) i = bits.getD i false := by
  by_cases hi : i / 8 < ceil8 bits.length
  · rw [pack_getD hi, bitOf, packByte_bit bits _ _ (Nat.mod_lt i (by decide)), Nat.div_add_mod]
  · have hlen : bits.length ≤ i := by
      by_contra hlt
      exact hi (div_eight_lt_ceil8 (not_le.1 hlt))
    rw [List.getD_eq_default _ _ (by simpa using hi), List.getD_eq_default _ _ hlen]
    simp [bitOf]

/-- Unpacking more bits than were packed gives the sequence with zeros after it (R77). -/
theorem unpack_pack {bits : List Bool} {n : Nat} (hn : bits.length ≤ n) :
    unpack (pack bits) n = bits ++ List.replicate (n - bits.length) false := by
  refine List.ext_getElem (by simp; omega) fun i hi _ => ?_
  have hbit : (unpack (pack bits) n)[i] = bits.getD i false := by simpa [unpack] using bitOf_pack bits i
  rw [hbit, List.getElem_append]
  split
  · next hlt => exact List.getD_eq_getElem _ _ hlt
  · next hge => rw [List.getElem_replicate]; exact List.getD_eq_default _ _ (not_lt.1 hge)

/-- Bit `i` of a byte sequence as arithmetic on its byte (R54). -/
theorem bitOf_eq_decide (x : Byte) (i : Nat) : bitOf x i = decide (x.toNat / 2 ^ (i % 8) % 2 = 1) := by
  rw [bitOf, BitVec.getLsbD, Nat.testBit_eq_decide_div_mod_eq]

/-- Settles O29: the bytes of `Pack`, the bits of `Unpack`, and the inverse laws. -/
theorem packUnpack : Obligations.PackUnpack := by
  refine ⟨fun bits => ⟨pack_length bits, fun j hj => ?_, ?_, ?_⟩, fun bytes n i _ hi => ?_, rfl, by decide⟩
  · rw [pack_getD hj, packByte_toNat]
  · rw [unpack_pack le_rfl]; simp
  · rw [unpack_pack (by omega)]
    congr 2; omega
  · simp [unpack, hi, bitOf_eq_decide]

end Sys2Proof.Machine
end

section
/-! PROOF. The script line LD (R82, R83): its byte writes one a step, and the write of the length register after them. -/

namespace Sys2Proof.Machine

/-- The state after bytes are written into a buffer at rising indices from `off` on (R52). -/
def storeBytes (b : Buffer) (off : Nat) (bytes : List Byte) (s : State) : State :=
  match b with
  | .sym => { s with sym := Memory.pokeAll s.sym off bytes }
  | .art => { s with art := Memory.pokeAll s.art off bytes }

theorem storeBytes_nil (b : Buffer) (off : Nat) (s : State) : storeBytes b off [] s = s := by
  cases b <;> rfl

theorem storeBytes_cons (b : Buffer) (off : Nat) (v : Byte) (vs : List Byte) (s : State) :
    storeBytes b off (v :: vs) s = storeBytes b (off + 1) vs (writeByte s b off v) := by
  cases b <;> rfl

@[simp] theorem storeBytes_work (b : Buffer) (off : Nat) (bytes : List Byte) (s : State) :
    (storeBytes b off bytes s).work = s.work := by
  cases b <;> rfl

@[simp] theorem storeBytes_input (b : Buffer) (off : Nat) (bytes : List Byte) (s : State) :
    (storeBytes b off bytes s).input = s.input := by
  cases b <;> rfl

/-- The bytes from index 0 on are the ones written, and every other byte of either buffer is as before (R52). -/
theorem readByte_storeBytes (s : State) (b c : Buffer) (bytes : List Byte) (j : Nat) :
    readByte (storeBytes b 0 bytes s) c j = if c = b then bytes.getD j (readByte s b j) else readByte s c j := by
  have hpeek (m : Memory) (d : Byte) : (Memory.peek (Memory.pokeAll m 0 bytes) j).getD d =
      bytes.getD j ((Memory.peek m j).getD d) := by
    rw [Memory.peek_pokeAll, List.getD_eq_getElem?_getD]
    by_cases hj : j < bytes.length
    · simp [hj]
    · simp [hj]
  cases b <;> cases c <;> simp [readByte, storeBytes, bufferOf, hpeek]

/-- A run goes on from the next state of its first step. -/
theorem run_succ_of_step {M : Host.Core} {s t : M.State} (h : M.step s = .next t) (k : Nat) :
    M.run (k + 1) s = M.run k t := by
  simp [Host.Core.run, h]

/-- A byte write of the script within the capacity (R56, R82). -/
theorem step_of_writeByte {s : State} (hw : s.work = .idle) {b : Buffer} {i : Nat} {v : Byte} {rest : List HostAct}
    (hi : s.input = .writeByte b i v :: rest) (hcap : i < capacityOf s.params b) :
    step s = .next (writeByte { s with input := rest } b i v) :=
  (step_of_input hw hi).trans (hostWriteByte_of_lt (s := { s with input := rest }) hcap v)

/-- Byte writes of the script within the capacity, one a step (R56, R82). -/
theorem run_writeBytesFrom (b : Buffer) (bytes : List Byte) (rest : List HostAct) (k : Nat) {s : State} {off : Nat}
    (hw : s.work = .idle) (hcap : off + bytes.length ≤ capacityOf s.params b)
    (hi : s.input = writeBytesFrom b off bytes ++ rest) :
    Host.Core.run core (bytes.length + k) s = Host.Core.run core k (storeBytes b off bytes { s with input := rest }) := by
  induction bytes generalizing s off with
  | nil =>
    have hrest : s.input = rest := hi
    rw [storeBytes_nil, ← hrest, List.length_nil, Nat.zero_add]
  | cons v vs ih =>
    rw [List.length_cons] at hcap
    have hstep := step_of_writeByte hw hi (by omega)
    rw [List.length_cons, Nat.add_right_comm]
    refine (run_succ_of_step (M := core) hstep _).trans ((ih (off := off + 1) ?_ ?_ ?_).trans ?_)
    · rw [writeByte_work]; exact hw
    · rw [writeByte_params, Nat.add_right_comm]; exact hcap
    · rw [writeByte_input]; rfl
    · cases b <;> rfl

/-- A buffer's length register set to a number (R21). -/
def setLength (b : Buffer) (n : Nat) (s : State) : State :=
  match b with
  | .sym => { s with symLen := BitVec.ofNat 32 n }
  | .art => { s with artLen := BitVec.ofNat 32 n }

/-- The script's write of a length register: the number is truncated to the register's 32 bits (R37, R82). -/
theorem step_of_writeLength {s : State} (hw : s.work = .idle) {b : Buffer} {n : Nat} {rest : List HostAct}
    (hi : s.input = .writeReg (lengthRegister b) (BitVec.ofNat 254 n) :: rest) :
    step s = .next (setLength b n { s with input := rest }) := by
  have htrunc : (BitVec.ofNat 254 n).setWidth 32 = BitVec.ofNat 32 n := BitVec.setWidth_ofNat_of_le (by decide) n
  rw [step_of_input hw hi]
  cases b <;> simp [hostAct, lengthRegister, hostWriteReg, setLength, htrunc]

/-- A capacity fits the 32 bits of a length register (R8). -/
theorem capacityOf_lt {p : Params} (hp : p.ok = true) (b : Buffer) : capacityOf p b < 2 ^ 32 := by
  simp only [Params.ok, decide_eq_true_eq] at hp
  cases b <;> simp only [capacityOf] <;> omega

/-- The run of `LD` from a state between commands (R83). -/
theorem run_loadBuffer {s : State} {b : Buffer} {bytes : List Byte} {rest : List HostAct} (hw : s.work = .idle)
    (hcap : bytes.length ≤ capacityOf s.params b) (hi : s.input = loadBuffer b bytes ++ rest) :
    Host.Core.run core (bytes.length + 1) s =
      .next (setLength b bytes.length (storeBytes b 0 bytes { s with input := rest })) := by
  rw [loadBuffer, List.append_assoc] at hi
  have hlast := step_of_writeLength (rest := rest) (b := b) (n := bytes.length)
    (s := storeBytes b 0 bytes { s with input := .writeReg (lengthRegister b) (BitVec.ofNat 254 bytes.length) :: rest })
    (by simpa using hw) (by simp)
  refine (run_writeBytesFrom b bytes _ 1 hw (by omega) hi).trans ((run_succ_of_step (M := core) hlast 0).trans ?_)
  cases b <;> rfl

/-- Settles O60: the byte writes, then the write of their count. -/
theorem loadBufferScript : Obligations.LoadBufferScript := by
  intro s b bytes rest hw hok hcap hi
  have hlen : (BitVec.ofNat 32 bytes.length).toNat = bytes.length := by
    rw [BitVec.toNat_ofNat, Nat.mod_eq_of_lt (hcap.trans_lt (capacityOf_lt hok b))]
  refine ⟨_, run_loadBuffer hw hcap hi, fun c j => ?_, ?_, ?_⟩
  · rw [← readByte_storeBytes]
    cases b <;> cases c <;> rfl
  · cases b <;> exact ⟨hlen, rfl⟩
  · cases b <;> rfl

end Sys2Proof.Machine
end

section
/-! PROOF. TRAIN as a command (R91, R103, R104): its two faults in their order, and the tree state it leaves without one. -/

namespace Sys2Proof.Machine

variable {s t : State}

/-! ### The outcomes of TRAIN -/

/-- The state TRAIN leaves without fault (R103). -/
def trained (s : State) : State :=
  succeed (installTree (trainedArena (symbols s)) (List.range (trainedAlphabet (symbols s)).length)
    ((trainedArena (symbols s)).length - 1) s)

theorem exec_train (s : State) : exec .train s = trainStage s := rfl

theorem exec_train_of_overlong (h : s.params.symCap < s.symLen.toNat) :
    exec .train s = .next (raiseInTree .badRange 0 0 s) := by
  rw [exec_train]
  rcases trainStage_cases s with ⟨-, e⟩ | ⟨hle, -⟩ | ⟨hle, -⟩
  · exact e
  all_goals omega

theorem exec_train_of_firstMarker (h : s.symLen.toNat ≤ s.params.symCap) {i : Nat} (hi : i < s.symLen.toNat)
    (hm : symByte s i = marker) (hfirst : ∀ j < i, symByte s j ≠ marker) :
    exec .train s = .next (raiseInTree .ambiguousAlphabet i 0 s) := by
  rw [exec_train]
  rcases trainStage_cases s with ⟨hlt, -⟩ | ⟨-, k, -, hk, hbefore, e⟩ | ⟨-, hno, -⟩
  · omega
  · obtain rfl : k = i := Nat.le_antisymm (Nat.not_lt.1 fun hlt => hbefore i hlt hm)
      (Nat.not_lt.1 fun hlt => hfirst k hlt hk)
    exact e
  · exact absurd hm (hno i hi)

theorem exec_train_of_clean (h : s.symLen.toNat ≤ s.params.symCap) (hno : ∀ i < s.symLen.toNat, symByte s i ≠ marker) :
    exec .train s = .next (trained s) := by
  rw [exec_train]
  rcases trainStage_cases s with ⟨hlt, -⟩ | ⟨-, i, hi, hm, -⟩ | ⟨-, -, e⟩
  · omega
  · exact absurd hm (hno i hi)
  · exact e

/-- TRAIN without fault: the sequence fits its buffer and holds no marker, and the trained state is left (R103). -/
theorem train_ok (h : exec .train s = .next t) (he : t.err = none) :
    t = trained s ∧ s.symLen.toNat ≤ s.params.symCap ∧ marker ∉ symbols s := by
  rcases trainStage_cases s with ⟨-, e⟩ | ⟨-, i, -, -, -, e⟩ | ⟨hle, hno, e⟩ <;> obtain rfl := next_unique h e
  · simp at he
  · simp at he
  · exact ⟨rfl, hle, by simpa [symbols] using hno⟩

/-- Settles O20: the range test comes first, then the first marker decides. -/
theorem trainFaults : Obligations.TrainFaults := by
  intro s
  refine ⟨fun hlong => ?_, fun i hi hle hm hfirst => ?_⟩
  · rw [exec_train_of_overlong hlong, raiseInTree_eq_faultedInTree _ _ _ _ (by omega)]
  · rw [exec_train_of_firstMarker hle hi hm hfirst,
      raiseInTree_eq_faultedInTree _ _ _ _ (hi.trans s.symLen.isLt)]

/-! ### The tree registers after TRAIN (R29) -/

/-- TRAIN leaves a tree (R104). -/
theorem treeReady_trained (s : State) : TreeReady (trained s) :=
  treeReady_installTree (by simpa using (trainedArena_ok (symbols s)).1) s

@[simp] theorem trained_arena (s : State) : (trained s).arena = trainedArena (symbols s) := rfl

@[simp] theorem trained_aidx (s : State) :
    (trained s).aidx = List.range (trainedAlphabet (symbols s)).length := rfl

@[simp] theorem trained_alphaSize (s : State) :
    (trained s).alphaSize.toNat = (trainedAlphabet (symbols s)).length := by
  obtain ⟨-, -, htree⟩ := treeReady_trained s
  simpa using htree.indexSize.symm

@[simp] theorem trained_nodeCnt (s : State) : (trained s).nodeCnt.toNat = (trainedArena (symbols s)).length := by
  obtain ⟨-, hcnt, -⟩ := treeReady_trained s
  exact hcnt

/-- The root is the node made last (R99). -/
@[simp] theorem trained_root (s : State) : (trained s).root.toNat = (trainedArena (symbols s)).length - 1 := by
  obtain ⟨htree, -⟩ := trainedArena_ok (symbols s)
  have hcnt := htree.nodeCount
  have hhigh := htree.alphaHigh
  change (BitVec.ofNat 9 ((trainedArena (symbols s)).length - 1)).toNat = _
  rw [BitVec.toNat_ofNat]
  omega

/-- A well-formed tree has one internal node less than leaves (R104). -/
theorem TreeOK.internalCount {nodes : List Node} {aidx : List Nat} {root k : Nat} (h : TreeOK nodes aidx root k) :
    ((List.range nodes.length).filter fun n => kindAt nodes n = some .internal).length = k - 1 := by
  have hnot : ((List.range nodes.length).filter fun n => !decide (kindAt nodes n = some .leaf)) =
      (List.range nodes.length).filter fun n => kindAt nodes n = some .internal :=
    List.filter_congr fun n hn => by
      rcases kindAt_cases n (List.mem_range.1 hn) with hk | hk <;> simp [hk]
  have hsplit := List.length_eq_length_filter_add (l := List.range nodes.length)
    fun n => decide (kindAt nodes n = some .leaf)
  have hleaves := h.leaves
  have hcnt := h.nodeCount
  rw [leafCount] at hleaves
  rw [hnot, hleaves, List.length_range] at hsplit
  omega

/-- Settles O15: the forest's last tree is well formed, and TRAIN writes nothing beside it. -/
theorem trainBuildsTree : Obligations.TrainBuildsTree := by
  intro s hle hno
  have hready := treeReady_trained s
  obtain ⟨-, -, htree⟩ := id hready
  refine ⟨trained s, exec_train_of_clean hle hno, hready, (trainedArena_ok (symbols s)).2, ?_, htree.internalCount, rfl⟩
  rw [trained_root, ← trained_arena, htree.nodeCount]
  omega

end Sys2Proof.Machine
end

section
/-! PROOF. The leaves of a trained tree (R90, R93, R94, R102): the trained alphabet in ascending order with its counts, and
the fillers of an input with fewer than two values. -/

namespace Sys2Proof.Machine

variable {syms a b : List Byte}

/-! ### The filler rule (R93) -/

/-- An alphabet is known by its members. -/
theorem AlphabetOK.ext (ha : AlphabetOK a) (hb : AlphabetOK b) (h : ∀ v, v ∈ a ↔ v ∈ b) : a = b :=
  ((List.perm_ext_iff_of_nodup ha.nodup hb.nodup).2 h).eq_of_pairwise
    (fun _ _ _ _ hlt hgt => absurd (BitVec.lt_trans hlt hgt) (by simp)) ha.sorted hb.sorted

/-- One turn of the filler rule adds the smallest absent value `f`. -/
theorem addFiller_eq (ha : AlphabetOK a) (hb : AlphabetOK b) (hlen : a.length < 2) {f : Byte} (hf : f ≠ marker)
    (hfa : f ∉ a) (hleast : ∀ u, u ≠ marker → u < f → u ∈ a) (hmem : ∀ v, v ∈ b ↔ v = f ∨ v ∈ a) : addFiller a = b := by
  rcases addFiller_cases ha with ⟨hge, -⟩ | ⟨-, g, hg, hga, hgleast, hok, -, hgmem⟩
  · omega
  · obtain rfl : g = f := BitVec.le_antisymm (BitVec.not_lt.1 fun hlt => hfa (hgleast f hf hlt))
      (BitVec.not_lt.1 fun hlt => hga (hleast g hg hlt))
    exact hok.ext hb fun v => by rw [hgmem, hmem]

theorem addFiller_of_two_le (h : 2 ≤ a.length) : addFiller a = a := if_neg (Nat.not_lt.2 h)

theorem alphabetOK_pair {u v : Byte} (hu : u ≠ marker) (huv : u < v) : AlphabetOK [u, v] where
  sorted := by simpa using huv
  legal := by
    have hv : v ≠ marker := by rintro rfl; exact absurd huv BitVec.not_lt_zero
    simp [hu, hv]

theorem alphabetOK_singleton {v : Byte} (hv : v ≠ marker) : AlphabetOK [v] where
  sorted := List.pairwise_singleton _ _
  legal := by simpa using hv

/-- No value but the marker lies below 1, and below 2 lies 1 alone (R6). -/
theorem not_lt_one {u : Byte} (hu : u ≠ marker) : ¬ u < 1 := by
  simp only [marker] at hu; bv_omega

theorem eq_one_of_lt_two {u : Byte} (hu : u ≠ marker) (h : u < 2) : u = 1 := by
  simp only [marker] at hu; bv_omega

theorem addFiller_nil : addFiller [] = [1] :=
  addFiller_eq ⟨.nil, by simp⟩ (alphabetOK_singleton (by decide)) (by simp) (f := 1) (by decide) (by simp)
    (fun _ hu hlt => absurd hlt (not_lt_one hu)) (by simp)

theorem addFiller_one : addFiller [1] = [1, 2] :=
  addFiller_eq (alphabetOK_singleton (by decide)) (alphabetOK_pair (by decide) (by decide)) (by simp) (f := 2) (by decide)
    (by decide) (fun _ hu hlt => by simpa using eq_one_of_lt_two hu hlt) (by simp [or_comm])

theorem addFiller_singleton {v : Byte} (hv : v ≠ marker) (hone : v ≠ 1) : addFiller [v] = [1, v] :=
  have hgt : 1 < v := by simp only [marker] at hv; bv_omega
  addFiller_eq (alphabetOK_singleton hv) (alphabetOK_pair (by decide) hgt) (by simp) (f := 1) (by decide)
    (by simpa using hone.symm) (fun _ hu hlt => absurd hlt (not_lt_one hu)) (by simp)

/-! ### The table of R93 -/

theorem trainedAlphabet_nil : trainedAlphabet [] = [1, 2] := by
  have hnone : occurring [] = [] := List.eq_nil_iff_forall_not_mem.2 fun v => by simp [mem_occurring]
  rw [trainedAlphabet, hnone, addFiller_nil, addFiller_one]

/-- One distinct value: it alone occurs. -/
theorem occurring_of_single {v : Byte} (hv : v ≠ marker) (hne : syms ≠ []) (h : ∀ u ∈ syms, u = v) :
    occurring syms = [v] := by
  obtain ⟨x, hx⟩ := List.exists_mem_of_ne_nil _ hne
  have hmem : v ∈ syms := h x hx ▸ hx
  refine (occurring_ok syms).ext (alphabetOK_singleton hv) fun u => ?_
  rw [mem_occurring, List.mem_singleton]
  exact ⟨fun hu => h u hu.2, by rintro rfl; exact ⟨hv, hmem⟩⟩

theorem trainedAlphabet_of_ones (hne : syms ≠ []) (h : ∀ u ∈ syms, u = 1) : trainedAlphabet syms = [1, 2] := by
  rw [trainedAlphabet, occurring_of_single (by decide) hne h, addFiller_one, addFiller_of_two_le (by simp)]

theorem trainedAlphabet_of_single {v : Byte} (hv : v ≠ marker) (hone : v ≠ 1) (hne : syms ≠ []) (h : ∀ u ∈ syms, u = v) :
    trainedAlphabet syms = [1, v] := by
  rw [trainedAlphabet, occurring_of_single hv hne h, addFiller_singleton hv hone, addFiller_of_two_le (by simp)]

/-- Two distinct values: nothing is filled in. -/
theorem trainedAlphabet_of_two (hno : marker ∉ syms) {u v : Byte} (hu : u ∈ syms) (hv : v ∈ syms) (huv : u ≠ v) :
    trainedAlphabet syms = occurring syms := by
  have hocc {x : Byte} (hx : x ∈ syms) : x ∈ occurring syms :=
    (mem_occurring syms x).2 ⟨fun hm => hno (hm ▸ hx), hx⟩
  have hsub : [u, v] ⊆ occurring syms := by simpa using ⟨hocc hu, hocc hv⟩
  obtain ⟨-, -, -, -, hkeep⟩ := trainedAlphabet_spec syms
  exact hkeep (List.subperm_of_subset (by simpa using huv) hsub).length_le

/-! ### The leaves in the arena (R94) -/

theorem trainedArena_leaf (syms : List Byte) {j : Nat} (hj : j < (trainedAlphabet syms).length) :
    ∃ nd, (trainedArena syms)[j]? = some nd ∧ nd.kind = .leaf ∧ nd.value = (trainedAlphabet syms)[j] ∧
      nd.freq = histogram syms nd.value := by
  obtain ⟨t, hforest, hnodes, -⟩ := trainedArena_forest syms
  rw [← hnodes]
  obtain ⟨hkind, hvalue, hfreq, -⟩ := hforest.leaf j hj
  obtain ⟨nd, hnd, hk⟩ := kindAt_some hkind
  have hval : nd.value = (trainedAlphabet syms)[j] := by simpa [valueAt, hnd] using hvalue
  exact ⟨nd, hnd, hk, hval, by rw [hval]; simpa [freqAt, hnd] using hfreq⟩

theorem trainedArena_leafValues (syms : List Byte) :
    ((trainedArena syms).take (trainedAlphabet syms).length).map (·.value) = trainedAlphabet syms := by
  refine List.ext_getElem? fun j => ?_
  by_cases hj : j < (trainedAlphabet syms).length
  · obtain ⟨nd, hnd, -, hval, -⟩ := trainedArena_leaf syms hj
    simp [List.getElem?_take_of_lt hj, hnd, hval, List.getElem?_eq_getElem hj]
  · simp [hj]

theorem trainedArena_leafCounts {nd : Node}
    (h : nd ∈ (trainedArena syms).take (trainedAlphabet syms).length) :
    nd.kind = .leaf ∧ nd.value ∈ trainedAlphabet syms ∧ nd.freq = histogram syms nd.value := by
  obtain ⟨j, hj, hnd⟩ := List.mem_take_iff_getElem.1 h
  obtain ⟨hj, hlen⟩ := Nat.lt_min.1 hj
  obtain ⟨nd', hnd', hk, hval, hfreq⟩ := trainedArena_leaf syms hj
  rw [List.getElem?_eq_getElem hlen, hnd] at hnd'
  obtain rfl := Option.some.inj hnd'
  exact ⟨hk, hval ▸ List.getElem_mem hj, hfreq⟩

/-- Settles O16: the first nodes are the trained alphabet with its counts, and R93's table says what it is. -/
theorem trainedLeaves : Obligations.TrainedLeaves := by
  intro s t h he
  obtain ⟨rfl, -, hno⟩ := train_ok h he
  obtain ⟨hok, -, -, hall, -⟩ := trainedAlphabet_spec (symbols s)
  have hlegal {v : Byte} (hv : v ∈ symbols s) : v ≠ marker := fun hm => hno (hm ▸ hv)
  simp only [trained_arena, trained_aidx, trained_alphaSize, trainedArena_leafValues]
  refine ⟨hok.sorted, fun nd hnd => ?_, fun v hv => hall v hv (hlegal hv), ?_, ?_, trainedAlphabet_of_ones, ?_, trivial⟩
  · obtain ⟨hk, hmem, hfreq⟩ := trainedArena_leafCounts hnd
    exact ⟨hk, hok.legal _ hmem, hfreq⟩
  · rintro ⟨u, hu, v, hv, huv⟩ w hw
    rw [trainedAlphabet_of_two hno hu hv huv, mem_occurring] at hw
    exact hw.2
  · intro hnil
    rw [hnil, trainedAlphabet_nil]
  · intro v hone hne hv
    obtain ⟨x, hx⟩ := List.exists_mem_of_ne_nil _ hne
    exact trainedAlphabet_of_single (hv x hx ▸ hlegal hx) hone hne hv

end Sys2Proof.Machine
end

section
/-! PROOF. The merges of TRAIN (R92, R95 to R100): their order, their dependence on the histogram alone, and the bound of the
frequencies they sum up. -/

namespace Sys2Proof.Machine

variable {syms syms' a : List Byte}

/-! ### The order of the merges -/

/-- Settles O17: the forest keeps for each internal node that its children had the least keys when it was made. -/
theorem trainMergeOrder : Obligations.TrainMergeOrder := by
  intro s t h he n hlow hhigh
  obtain ⟨rfl, -⟩ := train_ok h he
  rw [trained_alphaSize] at hlow
  rw [trained_nodeCnt] at hhigh
  obtain ⟨u, hforest, hnodes, -⟩ := trainedArena_forest (symbols s)
  rw [trained_arena, ← hnodes]
  rw [← hnodes] at hhigh
  obtain ⟨-, -, l, r, hl, hr, hln, hrn, -, -, -, hsum, hkey, hleast⟩ := hforest.internal n hlow hhigh
  refine ⟨l, r, hl, hr, hforest.live_of_child hhigh hln (.inl hl), hforest.live_of_child hhigh hrn (.inr hr),
    (keyLess_iff _ _ _).1 hkey, hsum, fun m ⟨hmn, hlive⟩ hml hmr => (keyLess_iff _ _ _).1 (hleast m hmn hml hmr hlive)⟩

/-! ### The histogram decides (R100) -/

theorem leaves_perm (h : syms.Perm syms') : leaves syms = leaves syms' := by
  obtain ⟨ha, hh⟩ := trainedAlphabet_perm h
  simp only [leaves, ha, hh]

theorem trainedArena_perm (h : syms.Perm syms') : trainedArena syms = trainedArena syms' := by
  simp only [trainedArena, initialBuilder, leaves_perm h]

/-- Settles O18: the alphabet, its leaves and so all merges are those of the histogram. -/
theorem trainByHistogram : Obligations.TrainByHistogram := by
  intro s s' t t' hperm h h' he he'
  obtain ⟨rfl, -⟩ := train_ok h he
  obtain ⟨rfl, -⟩ := train_ok h' he'
  obtain ⟨halpha, -⟩ := trainedAlphabet_perm hperm
  have harena := trainedArena_perm hperm
  simp [SameTree, trained, halpha, harena]

/-! ### Sums over a sequence and over its alphabet -/

/-- A sum over a sequence is the sum over its values, each counted as often as it occurs. -/
theorem sum_map_eq_sum_count (hnd : a.Nodup) (hsub : ∀ v ∈ syms, v ∈ a) (f : Byte → Nat) :
    (syms.map f).sum = (a.map fun v => syms.count v * f v).sum := by
  rw [Finset.sum_list_map_count, ← List.sum_toFinset _ hnd]
  refine Finset.sum_subset (fun v hv => by simpa using hsub v (by simpa using hv)) fun v _ hv => ?_
  rw [List.count_eq_zero_of_not_mem (by simpa using hv), zero_smul]

theorem sum_count_eq_length (hnd : a.Nodup) (hsub : ∀ v ∈ syms, v ∈ a) :
    (a.map syms.count).sum = syms.length := by
  simpa using (sum_map_eq_sum_count hnd hsub fun _ => 1).symm

/-! ### The frequencies (R92) -/

/-- A child for a bit is the left or the right child (R75). -/
theorem childOf_cases {nodes : List Node} {n c : Nat} {bit : Bool} (h : childOf nodes n bit = some c) :
    leftAt nodes n = some c ∨ rightAt nodes n = some c := by
  cases bit
  · exact .inl h
  · exact .inr h

/-- With summed frequencies no node has a greater frequency than a node above it. -/
theorem TreeOK.freqAt_le_ancestor {nodes : List Node} {aidx : List Nat} {root k : Nat} (h : TreeOK nodes aidx root k)
    (hsum : FreqOK nodes) {d n m : Nat} (ha : ancestor nodes d n = some m) : freqAt nodes n ≤ freqAt nodes m := by
  induction d generalizing n with
  | zero =>
    obtain rfl : n = m := by simpa [ancestor] using ha
    exact le_rfl
  | succ d ih =>
    cases hp : parentAt nodes n with
    | none => simp [ancestor, hp] at ha
    | some p =>
      rw [ancestor_succ hp] at ha
      obtain ⟨hk, hpl, hchild⟩ := h.bitOf hp
      obtain ⟨l, r, hll, hrl, hl, hr, -⟩ := h.childrenOf hk
      have hfreq := hsum p hpl l hll r hrl hl hr
      have hup := ih ha
      rcases childOf_cases hchild with hc | hc
      · obtain rfl := Option.some.inj (hl.symm.trans hc)
        omega
      · obtain rfl := Option.some.inj (hr.symm.trans hc)
        omega

/-- The root's frequency is the length of the input. -/
theorem freqAt_trainedRoot (hno : marker ∉ syms) :
    freqAt (trainedArena syms) ((trainedArena syms).length - 1) = syms.length := by
  obtain ⟨t, hforest, hnodes, hlive, -⟩ := trainedArena_forest syms
  obtain ⟨hok, -, -, hall, -⟩ := trainedAlphabet_spec syms
  have htotal := hforest.total
  rw [hlive, hnodes, List.map_singleton, List.sum_singleton] at htotal
  rw [htotal]
  exact sum_count_eq_length hok.nodup fun v hv => hall v hv fun hm => hno (hm ▸ hv)

/-- Settles O19: every node is below the root, whose frequency is the sum of all counts. -/
theorem trainFrequencies : Obligations.TrainFrequencies := by
  intro s t hp h he
  obtain ⟨rfl, hle, hno⟩ := train_ok h he
  obtain ⟨htree, hsum⟩ := trainedArena_ok (symbols s)
  have hroot := freqAt_trainedRoot hno
  rw [symbols_length] at hroot
  have hcap : s.params.symCap ≤ 2 ^ 32 - 1 := by
    simp only [Params.ok, decide_eq_true_eq] at hp
    omega
  refine ⟨fun v => ?_, ?_, fun n hn => ?_, ?_, hle, hcap⟩
  · simpa using List.count_le_length (a := v) (l := symbols s)
  · have hvalues := sum_count_eq_length (syms := symbols s) (a := symbolValues)
      (symbolValues_sorted.imp fun hlt => BitVec.ne_of_lt hlt)
      fun v hv => (mem_symbolValues v).2 fun hm => hno (hm ▸ hv)
    simpa [symbolValues, List.map_map, Function.comp_def] using hvalues
  · obtain ⟨d, -, hd⟩ := htree.reach n hn
    exact (htree.freqAt_le_ancestor hsum hd).trans hroot.le
  · rw [trained_arena, trained_root, hroot]

end Sys2Proof.Machine
end

section
/-! PROOF. The code of a trained tree (R105): the number of bits ENCODE makes with it, and that no code in which no codeword
begins another makes fewer. -/

namespace Sys2Proof.Machine

variable {s t : State}

/-! ### What ENCODE makes -/

/-- A validation pass without a finding has found every symbol's leaf (R115). -/
theorem inAlphabet_of_clean (hready : TreeReady s) (h : scanSymbols s 0 (symbols s) = .clean) :
    ∀ v ∈ symbols s, InAlphabet s.arena v := by
  rcases scanSymbols_cases s 0 (symbols s) with ⟨-, hall⟩ | ⟨e, -⟩ | ⟨j, hj, -, ⟨-, e⟩ | ⟨-, -, e⟩⟩
  · intro v hv
    obtain ⟨-, n, hfound⟩ := hall v hv
    rcases lookup_spec hready v with ⟨m, -, hm, hk, hval⟩ | ⟨hnot, -⟩
    · exact ⟨m, hm, hk, hval⟩
    · exact nomatch hfound.symm.trans hnot
  all_goals exact nomatch h.symm.trans e

/-- ENCODE without fault, with a tree in place: every symbol has a codeword, and the codewords' bits fit behind `MSG_OFF`
(R114, R115). -/
theorem encode_ok (hready : TreeReady s) (h : exec .encode s = .next t) (he : t.err = none) :
    ∃ bits, bits = (symbols s).flatMap (codeword s) ∧ s.msgOff.toNat + ceil8 bits.length ≤ s.params.artCap ∧
      t = succeed (storeMessage bits s) := by
  have hraise {k : ErrKind} {pos : Nat} {val : Byte} (e : encodeStage s = .next (raise k pos val s)) : False := by
    obtain rfl := next_unique h e
    simp at he
  rcases encodeStage_cases s with ⟨-, e⟩ | ⟨-, -, e⟩ | ⟨-, -, -, ⟨_, _, _, -, e⟩ | e | ⟨hclean, bits, hbits, hend⟩⟩
  · exact (hraise e).elim
  · exact (hraise e).elim
  · exact (hraise e).elim
  · exact nomatch h.symm.trans e
  · rcases hend with ⟨-, e⟩ | ⟨hcap, e⟩
    · exact (hraise e).elim
    · rw [encodeBits_of_clean hready (inAlphabet_of_clean hready hclean), Option.some.injEq] at hbits
      exact ⟨bits, hbits.symm, hcap, next_unique h e⟩

/-- `BIT_LEN` after an ENCODE without fault is the number of bits of the codewords (R115). -/
theorem encode_bitLen (hp : s.params.ok = true) (hready : TreeReady s) (h : exec .encode s = .next t) (he : t.err = none) :
    t.bitLen.toNat = ((symbols s).map fun v => (codeword s v).length).sum := by
  obtain ⟨bits, hbits, hcap, rfl⟩ := encode_ok hready h he
  have hfits : (succeed (storeMessage bits s)).bitLen.toNat = bits.length := by
    simp only [Params.ok, decide_eq_true_eq] at hp
    simp only [succeed_bitLen, storeMessage_bitLen, BitVec.toNat_ofNat]
    unfold ceil8 at hcap
    omega
  rw [hfits, hbits, List.length_flatMap]

/-- The bits of the training sequence are the weighted length of the code (R105). -/
theorem sum_codeword_lengths {syms : List Byte} (hno : marker ∉ syms) (code : Byte → List Bool) :
    (syms.map fun v => (code v).length).sum = weightedLength syms (trainedAlphabet syms) code := by
  obtain ⟨hok, -, -, hall, -⟩ := trainedAlphabet_spec syms
  exact sum_map_eq_sum_count hok.nodup (fun v hv => hall v hv fun hm => hno (hm ▸ hv)) _

/-! ### The code is minimal -/

theorem PrefixFree.pairwise {a : List Byte} {code : Byte → List Bool} (h : PrefixFree a code) (hnd : a.Nodup) :
    (a.map code).Pairwise fun u v => ¬ u <+: v ∧ ¬ v <+: u := by
  rw [List.pairwise_map]
  exact hnd.imp_of_mem fun hu hv huv => ⟨h _ hu _ hv huv, h _ hv _ hu huv.symm⟩

theorem PrefixFree.kraftSum_le {a : List Byte} {code : Byte → List Bool} (h : PrefixFree a code) (hnd : a.Nodup) :
    kraftSum (a.map fun v => (code v).length) ≤ 1 := by
  have hkraft := kraft_prefixFree (((a.map code).map List.length).sum) (a.map code)
    (fun w hw => List.le_sum_of_mem (List.mem_map_of_mem hw)) (h.pairwise hnd)
  rwa [List.map_map] at hkraft

/-- Greedy merging of the counts costs no more than any code in which no codeword begins another. -/
theorem Greedy.le_weightedLength {syms a : List Byte} {c : Nat} (h : Greedy (a.map (histogram syms)) c) (hnd : a.Nodup)
    {code : Byte → List Bool} (hcode : PrefixFree a code) : c ≤ weightedLength syms a code := by
  have hle := h.le (a.map fun v => (histogram syms v, (code v).length)) (by rw [List.map_map]; rfl)
    (by rw [List.map_map]; exact hcode.kraftSum_le hnd)
  rwa [wordCost, List.map_map] at hle

/-- The weighted length of the trained code is what greedy merging of the counts costs. -/
theorem trained_weightedLength (s : State) :
    Greedy ((trainedAlphabet (symbols s)).map (histogram (symbols s)))
      (weightedLength (symbols s) (trainedAlphabet (symbols s)) (codeword (trained s))) := by
  obtain ⟨c, tree, hgreedy, hshape, hvalues, rfl⟩ := trainedArena_greedy (symbols s)
  have hcost := cost_eq_weightedLength (treeReady_trained s) (by simpa using hshape) (histogram (symbols s))
  rw [(hvalues.map _).sum_eq] at hcost
  rwa [weightedLength, ← hcost]

/-- Settles O21: the code's weighted length is the bit count, and the cost of greedy merging. -/
theorem trainIsOptimal : Obligations.TrainIsOptimal := by
  intro s t h he
  obtain ⟨rfl, -, hno⟩ := train_ok h he
  obtain ⟨hok, -⟩ := trainedAlphabet_spec (symbols s)
  refine ⟨fun w hp hw hwe => ?_, fun other hother => (trained_weightedLength s).le_weightedLength hok.nodup hother⟩
  calc w.bitLen.toNat
      = ((symbols s).map fun v => (codeword (trained s) v).length).sum :=
        encode_bitLen (s := trained s) hp (treeReady_trained s) hw hwe
    _ = weightedLength (symbols s) (trainedAlphabet (symbols s)) (codeword (trained s)) := sum_codeword_lengths hno _

end Sys2Proof.Machine
end

section
/-! PROOF. The lookup and the codewords of a well-formed tree (R110, R111, R112). -/

namespace Sys2Proof.Machine

variable {nodes : List Node} {aidx : List Nat} {root k : Nat} {s : State}

/-! ### The lookup (R110) -/

theorem lookup_eq_found_iff (h : TreeReady s) (v : Byte) (n : Nat) : lookup s v = .found n ↔
    n < s.arena.length ∧ kindAt s.arena n = some .leaf ∧ valueAt s.arena n = some v := by
  obtain ⟨-, -, htree⟩ := id h
  rcases lookup_spec h v with ⟨m, hm, hlt, hk, hv⟩ | ⟨hm, hno⟩
  · rw [hm, Lookup.found.injEq]
    constructor
    · rintro rfl
      exact ⟨hlt, hk, hv⟩
    · rintro ⟨-, hkn, hvn⟩
      exact htree.leaf_unique hk hkn hv hvn
  · rw [hm]
    exact iff_of_false (by simp) fun hn => hno ⟨n, hn⟩

theorem lookup_eq_notFound_iff (h : TreeReady s) (v : Byte) : lookup s v = .notFound ↔ ¬ InAlphabet s.arena v := by
  rcases lookup_spec h v with ⟨m, hm, hleaf⟩ | ⟨hm, hno⟩
  · rw [hm]
    exact iff_of_false (by simp) (not_not_intro ⟨m, hleaf⟩)
  · exact iff_of_true hm hno

/-- No leaf has the reserved value (R6, R40). -/
theorem TreeOK.marker_not_inAlphabet (h : TreeOK nodes aidx root k) : ¬ InAlphabet nodes marker :=
  fun ⟨n, hn, hk, hv⟩ => h.leafValue n hn hk hv

/-- Settles O22: the search finds the one index entry of the value, and no leaf has the reserved value. -/
theorem lookupFindsLeaf : Obligations.LookupFindsLeaf := by
  intro s h
  obtain ⟨-, -, htree⟩ := id h
  exact ⟨lookup_eq_found_iff h, lookup_eq_notFound_iff h, (lookup_eq_notFound_iff h 0).2 htree.marker_not_inAlphabet⟩

/-! ### The codewords (R111, R112) -/

/-- A path from the root to a leaf has at least one bit, because the root is no leaf (R40). -/
theorem TreeOK.follow_leaf_pos (h : TreeOK nodes aidx root k) {n : Nat} {c : List Bool} (hk : kindAt nodes n = some .leaf)
    (hf : follow nodes root c = some n) : 1 ≤ c.length := by
  refine List.length_pos_iff.2 ?_
  rintro rfl
  obtain rfl : root = n := by simpa [follow] using hf
  exact nomatch h.rootInternal.symm.trans hk

/-- Settles O23: the climb from the leaf collects the bits of the path to it. -/
theorem codeLeadsToLeaf : Obligations.CodeLeadsToLeaf := by
  rintro s ⟨-, -, htree⟩ n hn hk
  obtain ⟨c, hc, hle, hdepth, hf⟩ := codeOf_spec htree hn
  exact ⟨c, hc, htree.follow_leaf_pos hk hf, hle, hdepth, hf⟩

/-- From a leaf no path goes on, so that two leaves' paths from the root do not begin one another (R112). -/
theorem TreeOK.leaf_eq_of_prefix (h : TreeOK nodes aidx root k) {m n : Nat} {c d : List Bool}
    (hk : kindAt nodes m = some .leaf) (hc : follow nodes root c = some m) (hd : follow nodes root d = some n)
    (hpre : c <+: d) : n = m := by
  obtain ⟨rest, rfl⟩ := hpre
  rw [follow_append, hc] at hd
  exact (h.follow_leaf hk hd).2

/-- Settles O24: a codeword that begins another leads to the same leaf. -/
theorem codesPrefixFree : Obligations.CodesPrefixFree := by
  intro s h u v hu hv huv hpre
  obtain ⟨-, -, htree⟩ := id h
  obtain ⟨m, hm, hmu, -, -, -, hfu, -⟩ := codeword_spec h hu
  obtain ⟨n, -, hnv, -, -, -, hfv, -⟩ := codeword_spec h hv
  obtain rfl := htree.leaf_eq_of_prefix hm hfu hfv hpre
  exact huv (Option.some.inj (hmu.symm.trans hnv))

end Sys2Proof.Machine
end

section
/-! PROOF. CODEWORD as a command (R113): its two faults, and the codeword it puts in `CW_LEN` and `CW_BITS` (R34). -/

namespace Sys2Proof.Machine

variable {s : State}

/-- `CW_LEN` and `CW_BITS` hold a codeword (R34); the empty one clears them. -/
def storeCodeword (c : List Bool) (s : State) : State :=
  { s with cwLen := BitVec.ofNat 8 c.length, cwBits := BitVec.ofNat 254 (bitsValue c) }

theorem storeCodeword_cwLen {c : List Bool} (hc : c.length ≤ maxCw) (s : State) :
    (storeCodeword c s).cwLen.toNat = c.length := by
  simp only [maxCw] at hc
  simp only [storeCodeword, BitVec.toNat_ofNat]
  omega

theorem storeCodeword_cwBits (c : List Bool) (s : State) {i : Nat} (hi : i < 254) :
    (storeCodeword c s).cwBits.getLsbD i = c.getD i false := by
  simp only [storeCodeword, BitVec.getLsbD_ofNat, testBit_bitsValue, hi, decide_true, Bool.true_and]

theorem exec_codeword (s : State) : exec .codeword s = codewordStage s := rfl

theorem exec_codeword_of_noTree (h : s.treeValid = false) :
    exec .codeword s = .next (raise .noTree 0 0 (storeCodeword [] s)) :=
  if_pos h

theorem exec_codeword_of_notFound (h : s.treeValid = true) (hl : lookup s s.arg = .notFound) :
    exec .codeword s = .next (raise .symbolNotFound 0 s.arg (storeCodeword [] s)) := by
  simp [exec_codeword, codewordStage, storeCodeword, bitsValue, h, hl]

theorem exec_codeword_of_found (h : s.treeValid = true) {n : Nat} (hl : lookup s s.arg = .found n) {c : List Bool}
    (hc : codeOf s.arena n = some c) : exec .codeword s = .next (succeed (storeCodeword c s)) := by
  simp [exec_codeword, codewordStage, storeCodeword, h, hl, hc]

/-- Settles O25: by what the lookup of `ARG` finds. -/
theorem codewordCommand : Obligations.CodewordCommand := by
  intro s
  refine ⟨fun hno => ?_, fun h harg => ?_, fun h harg => ?_⟩
  · rw [exec_codeword_of_noTree hno, raise_eq_faulted _ _ _ _ (by decide)]
    rfl
  · obtain ⟨hvalid, -⟩ := id h
    rw [exec_codeword_of_notFound hvalid ((lookup_eq_notFound_iff h _).2 harg), raise_eq_faulted _ _ _ _ (by decide)]
    rfl
  · obtain ⟨hvalid, -⟩ := id h
    obtain ⟨n, hk, hv, hl, hc, -, -, -, hle⟩ := codeword_spec h harg
    exact ⟨n, succeed (storeCodeword (codeword s s.arg) s), kindAt_lt hk, hk, hv, hc, exec_codeword_of_found hvalid hl hc,
      storeCodeword_cwLen hle s, fun i hi => storeCodeword_cwBits _ s hi, rfl⟩

end Sys2Proof.Machine
end

section
/-! PROOF. ENCODE as a command (R114 to R117): its faults in their order, the message it writes, the faults it cannot raise
after TRAIN, and the number of its bits. -/

namespace Sys2Proof.Machine

variable {s t : State}

/-! ### The validation pass -/

/-- The pass goes over symbols that have a leaf (R115). -/
theorem scanSymbols_append (h : TreeReady s) {vs : List Byte} (hvs : ∀ v ∈ vs, InAlphabet s.arena v) (i : Nat)
    (rest : List Byte) : scanSymbols s i (vs ++ rest) = scanSymbols s (i + vs.length) rest := by
  induction vs generalizing i with
  | nil => rfl
  | cons v vs ih =>
    obtain ⟨-, -, htree⟩ := id h
    obtain ⟨hv, hvs⟩ := List.forall_mem_cons.1 hvs
    have hmarker : v ≠ marker := fun e => htree.marker_not_inAlphabet (e ▸ hv)
    obtain ⟨n, -, -, hl, -⟩ := codeword_spec h hv
    simp only [List.cons_append, scanSymbols, hmarker, hl, if_false, ih hvs, List.length_cons]
    congr 1; omega

theorem scanSymbols_of_inAlphabet (h : TreeReady s) {vs : List Byte} (hvs : ∀ v ∈ vs, InAlphabet s.arena v) (i : Nat) :
    scanSymbols s i vs = .clean := by
  simpa [scanSymbols] using scanSymbols_append h hvs i []

/-- The sequence around one of its symbols. -/
theorem symbols_split {i : Nat} (hi : i < s.symLen.toNat) :
    symbols s = (List.range i).map (symByte s) ++ symByte s i :: (symbols s).drop (i + 1) := by
  have hlen : i < (symbols s).length := by simpa using hi
  have hget : (symbols s)[i] = symByte s i := by simp [symbols]
  have htake : (symbols s).take i = (List.range i).map (symByte s) := by
    rw [symbols, ← List.map_take, List.take_range, Nat.min_eq_left hi.le]
  rw [← hget, ← htake, ← List.drop_eq_getElem_cons hlen, List.take_append_drop]

/-- The pass reaches symbol `i` when every symbol before it has a leaf (R115). -/
theorem scanSymbols_at (h : TreeReady s) {i : Nat} (hi : i < s.symLen.toNat)
    (hbefore : ∀ j < i, InAlphabet s.arena (symByte s j)) :
    scanSymbols s 0 (symbols s) = scanSymbols s i (symByte s i :: (symbols s).drop (i + 1)) := by
  have hprefix : ∀ v ∈ (List.range i).map (symByte s), InAlphabet s.arena v := by simpa using hbefore
  conv_lhs => rw [symbols_split hi, scanSymbols_append h hprefix]
  simp

/-! ### The outcomes of ENCODE -/

theorem exec_encode (s : State) : exec .encode s = encodeStage s := rfl

theorem exec_encode_of_noTree (h : s.treeValid = false) : exec .encode s = .next (raise .noTree 0 0 s) :=
  if_pos h

theorem exec_encode_of_badRange (h : s.treeValid = true)
    (hrange : s.params.symCap < s.symLen.toNat ∨ s.params.artCap < s.msgOff.toNat) :
    exec .encode s = .next (raise .badRange 0 0 s) := by
  simp only [exec_encode, encodeStage, h, hrange, Bool.true_eq_false, if_false, if_true]

section

variable (h : TreeReady s) (hsym : s.symLen.toNat ≤ s.params.symCap) (hoff : s.msgOff.toNat ≤ s.params.artCap)
include h hsym hoff

/-- The first offending byte decides (R115, R169). -/
theorem exec_encode_of_bad {k : ErrKind} {i : Nat} {v : Byte} (hscan : scanSymbols s 0 (symbols s) = .bad k i v) :
    exec .encode s = .next (raise k i v s) := by
  obtain ⟨hvalid, -⟩ := h
  simp only [exec_encode, encodeStage, hvalid, hsym.not_gt, hoff.not_gt, hscan, or_self, Bool.true_eq_false, if_false]

/-- With a leaf for every symbol only the message's length decides (R115). -/
theorem exec_encode_of_inAlphabet (hall : ∀ i < s.symLen.toNat, InAlphabet s.arena (symByte s i)) :
    exec .encode s = if s.params.artCap < s.msgOff.toNat + ceil8 ((symbols s).flatMap (codeword s)).length
      then .next (raise .capacityExceeded 0 0 s)
      else .next (succeed (storeMessage ((symbols s).flatMap (codeword s)) s)) := by
  have hleaf : ∀ v ∈ symbols s, InAlphabet s.arena v := by simpa [symbols] using hall
  obtain ⟨hvalid, -⟩ := id h
  simp only [exec_encode, encodeStage, hvalid, hsym.not_gt, hoff.not_gt, scanSymbols_of_inAlphabet h hleaf,
    encodeBits_of_clean h hleaf, or_self, Bool.true_eq_false, if_false]

theorem exec_encode_of_marker {i : Nat} (hi : i < s.symLen.toNat)
    (hbefore : ∀ j < i, InAlphabet s.arena (symByte s j)) (hm : symByte s i = marker) :
    exec .encode s = .next (raise .ambiguousAlphabet i 0 s) :=
  exec_encode_of_bad h hsym hoff (by rw [scanSymbols_at h hi hbefore, scanSymbols, if_pos hm])

theorem exec_encode_of_absent {i : Nat} (hi : i < s.symLen.toNat)
    (hbefore : ∀ j < i, InAlphabet s.arena (symByte s j)) (hm : symByte s i ≠ marker)
    (habsent : ¬ InAlphabet s.arena (symByte s i)) :
    exec .encode s = .next (raise .symbolNotFound i (symByte s i) s) :=
  exec_encode_of_bad h hsym hoff (by
    rw [scanSymbols_at h hi hbefore, scanSymbols, if_neg hm, (lookup_eq_notFound_iff h _).2 habsent])

end

/-! ### The message in `ART` -/

section

variable {bits : List Bool} (hp : s.params.ok = true) (hcap : s.msgOff.toNat + ceil8 bits.length ≤ s.params.artCap)
include hp hcap

/-- A message that fits has fewer bits than `BIT_LEN` can count (R33, R117). -/
theorem storeMessage_bitLen_toNat : (storeMessage bits s).bitLen.toNat = bits.length := by
  simp only [Params.ok, decide_eq_true_eq] at hp
  simp only [storeMessage_bitLen, BitVec.toNat_ofNat]
  unfold ceil8 at hcap
  omega

theorem storeMessage_artLen_toNat : (storeMessage bits s).artLen.toNat = s.msgOff.toNat + ceil8 bits.length := by
  simp only [Params.ok, decide_eq_true_eq] at hp
  simp only [storeMessage_artLen, BitVec.toNat_ofNat]
  omega

end

/-- Every bit of the bytes ENCODE writes (R77, R115). -/
theorem storeMessage_bit (bits : List Bool) (s : State) {j b : Nat} (hj : j < ceil8 bits.length) (hb : b < 8) :
    (artByte (storeMessage bits s) (s.msgOff.toNat + j)).getLsbD b = bits.getD (8 * j + b) false := by
  have hbyte : artByte (storeMessage bits s) (s.msgOff.toNat + j) = packByte bits j := by
    rw [artByte_pokeAll s (storeMessage bits s) (pack bits) s.msgOff.toNat rfl rfl, dif_pos (by simpa using hj)]
    simp [pack]
  rw [hbyte, packByte_bit bits j b hb]

/-- The other bytes keep their values (R115). -/
theorem storeMessage_other (bits : List Bool) (s : State) {i : Nat}
    (hi : i < s.msgOff.toNat ∨ s.msgOff.toNat + ceil8 bits.length ≤ i) :
    artByte (storeMessage bits s) i = artByte s i := by
  rw [artByte_pokeAll s (storeMessage bits s) (pack bits) s.msgOff.toNat rfl rfl, dif_neg (by rw [pack_length]; omega)]

/-- Settles O26: test by test in their order, then the message where it fits. -/
theorem encodeCommand : Obligations.EncodeCommand := by
  intro s
  refine ⟨fun hno => ?_, fun hvalid hrange => ?_, fun h hsym hoff => ⟨fun i hi hbefore => ⟨fun hm => ?_, fun hm hno => ?_⟩,
    fun hall => ⟨fun hlong => ?_, fun hfits hp => ?_⟩⟩⟩
  · rw [exec_encode_of_noTree hno, raise_eq_faulted _ _ _ _ (by decide)]
  · rw [exec_encode_of_badRange hvalid hrange, raise_eq_faulted _ _ _ _ (by decide)]
  · rw [exec_encode_of_marker h hsym hoff hi hbefore hm, raise_eq_faulted _ _ _ _ (hi.trans s.symLen.isLt)]
  · rw [exec_encode_of_absent h hsym hoff hi hbefore hm hno, raise_eq_faulted _ _ _ _ (hi.trans s.symLen.isLt)]
  · rw [exec_encode_of_inAlphabet h hsym hoff hall, ceil8, if_pos hlong, raise_eq_faulted _ _ _ _ (by decide)]
  · have hart := storeMessage_artLen_toNat hp hfits
    refine ⟨succeed (storeMessage ((symbols s).flatMap (codeword s)) s), ?_, storeMessage_bitLen_toNat hp hfits, hart,
      fun j hj b hb => storeMessage_bit _ s hj hb, fun i hi => storeMessage_other _ s ?_, rfl⟩
    · rw [exec_encode_of_inAlphabet h hsym hoff hall, ceil8, if_neg hfits.not_gt]
    · rwa [← hart]

/-! ### ENCODE after TRAIN (R116) -/

theorem SameTree.treeReady (ht : SameTree s t) (h : TreeReady s) : TreeReady t := by
  obtain ⟨hvalid, halpha, hcnt, hroot, harena, haidx⟩ := ht
  simpa only [TreeReady, hvalid, halpha, hcnt, hroot, harena, haidx] using h

theorem SameTree.codeword_eq (ht : SameTree s t) : codeword s = codeword t :=
  funext fun v => by rw [codeword, codeword, symbolCode_congr ht]

/-- Every byte of the training sequence has a leaf (R93, R94). -/
theorem trained_inAlphabet (hno : marker ∉ symbols s) {v : Byte} (hv : v ∈ symbols s) :
    InAlphabet (trained s).arena v := by
  obtain ⟨-, -, -, hall, -⟩ := trainedAlphabet_spec (symbols s)
  obtain ⟨j, hj, hval⟩ := List.mem_iff_getElem.1 (hall v hv fun hm => hno (hm ▸ hv))
  obtain ⟨nd, hnd, hk, hvalue, -⟩ := trainedArena_leaf (symbols s) hj
  have hleaf : kindAt (trained s).arena j = some .leaf := by simp [kindAt, hnd, hk]
  exact ⟨j, kindAt_lt hleaf, hleaf, by simp [valueAt, hnd, hvalue, hval]⟩

/-- Settles O27: every symbol has its leaf, so that only the range and the message's length can still be at fault. -/
theorem encodeAfterTrain : Obligations.EncodeAfterTrain := by
  intro s t u h he htree hsyms hlen hparams
  obtain ⟨rfl, hle, hno⟩ := train_ok h he
  have hready : TreeReady u := htree.treeReady (treeReady_trained s)
  obtain ⟨hvalid, -⟩ := id hready
  have hsym : u.symLen.toNat ≤ u.params.symCap := by rwa [hlen, hparams]
  obtain hfar | hoff := lt_or_ge u.params.artCap u.msgOff.toNat
  · exact ⟨_, exec_encode_of_badRange hvalid (.inr hfar), by simp, by simp⟩
  · have hall : ∀ i < u.symLen.toNat, InAlphabet u.arena (symByte u i) := by
      obtain ⟨-, -, -, -, harena, -⟩ := htree
      have hleaf : ∀ v ∈ symbols u, InAlphabet u.arena v := fun v hv =>
        harena ▸ trained_inAlphabet hno (hsyms ▸ hv)
      simpa [symbols] using hleaf
    have hrun := exec_encode_of_inAlphabet hready hsym hoff hall
    split_ifs at hrun <;> exact ⟨_, hrun, by simp, by simp⟩

/-! ### The number of bits (R117) -/

/-- Settles O28: the message fits behind `MSG_OFF`, and over the training sequence each length counts as often as its
symbol occurs. -/
theorem encodeBitCount : Obligations.EncodeBitCount := by
  refine ⟨fun s t hp h hrun he => ⟨encode_bitLen hp h hrun he, ?_⟩, fun s t u w hp h he htree hparams hsyms hrun hwe => ?_⟩
  · obtain ⟨bits, -, hcap, rfl⟩ := encode_ok h hrun he
    rw [succeed_bitLen, storeMessage_bitLen_toNat hp hcap]
    simp only [Params.ok, decide_eq_true_eq] at hp
    unfold ceil8 at hcap
    omega
  · obtain ⟨rfl, -, hno⟩ := train_ok h he
    calc w.bitLen.toNat
        = ((symbols u).map fun v => (codeword u v).length).sum :=
          encode_bitLen (hparams ▸ hp) (htree.treeReady (treeReady_trained s)) hrun hwe
      _ = ((symbols s).map fun v => (codeword (trained s) v).length).sum := by rw [hsyms, htree.codeword_eq]
      _ = weightedLength (symbols s) (trainedAlphabet (symbols s)) (codeword (trained s)) := sum_codeword_lengths hno _

end Sys2Proof.Machine
end

section
/-! PROOF. The decoder's walk over whole bit sequences (R122, R123, R126), and the codeword bits and message bytes that carry
it on (R77, R120, R121). -/

namespace Sys2Proof.Machine

variable {s : State}

/-! ### The walk from the root (R126) -/

/-- The decoder begins at an internal node (R121). -/
theorem TreeReady.walkStart_internal (h : TreeReady s) : kindAt s.arena (walkStart s).cur = some .internal := by
  obtain ⟨-, -, htree⟩ := h
  exact htree.rootInternal

/-- Settles O31: the walk goes from the root, an internal node, to an internal node. -/
theorem decoderTotal : Obligations.DecoderTotal := by
  intro s h bits
  obtain ⟨-, -, htree⟩ := id h
  obtain ⟨c, hwalk, hcur, hbi, out, hout, hlen, hleaf⟩ := walkBits_total htree bits (walkStart s) h.walkStart_internal
  obtain rfl : c.out = out := hout
  exact ⟨c, hwalk, hbi.trans (Nat.zero_add _), hcur, hleaf, hlen⟩

/-! ### The codewords of a sequence (R122, R123) -/

/-- From the root the codewords of a sequence emit it, and the walk is back at the root (R122). -/
theorem walkBits_codewords (h : TreeReady s) {vs : List Byte} (hvs : ∀ v ∈ vs, InAlphabet s.arena v) {c : WalkCtx}
    (hc : c.cur = s.root.toNat) :
    walkBits s.arena s.root.toNat c (vs.flatMap (codeword s)) =
      some { cur := s.root.toNat, out := c.out ++ vs, bi := c.bi + (vs.flatMap (codeword s)).length } := by
  induction vs generalizing c with
  | nil => simp [walkBits, ← hc]
  | cons v vs ih =>
    obtain ⟨hv, hvs⟩ := List.forall_mem_cons.1 hvs
    rw [List.flatMap_cons, walkBits_append, walkBits_codeword h hv hc, Option.bind_some, ih hvs rfl]
    simp [Nat.add_assoc]

/-- A node that some bit leads on from is an internal one (R40). -/
theorem TreeOK.internal_of_childOf {nodes : List Node} {aidx : List Nat} {root k : Nat} (h : TreeOK nodes aidx root k)
    {n m : Nat} {bit : Bool} (hm : Machine.childOf nodes n bit = some m) : kindAt nodes n = some .internal := by
  have hn : n < nodes.length := by
    by_contra hge
    cases bit <;> simp [Machine.childOf, leftAt, rightAt, List.getElem?_eq_none (not_lt.1 hge)] at hm
  refine (kindAt_cases n hn).resolve_left fun hleaf => ?_
  rw [h.leaf_childOf hleaf] at hm
  cases hm

/-- A path that goes on passes through an internal node (R75). -/
theorem TreeOK.internal_of_follow_append {nodes : List Node} {aidx : List Nat} {root k : Nat} (h : TreeOK nodes aidx root k)
    {n m : Nat} {p q : List Bool} (hf : follow nodes n (p ++ q) = some m) (hq : q ≠ []) :
    ∃ i, follow nodes n p = some i ∧ kindAt nodes i = some .internal := by
  rw [follow_append, Option.bind_eq_some_iff] at hf
  obtain ⟨i, hp, hrest⟩ := hf
  obtain ⟨bit, q, rfl⟩ := List.exists_cons_of_ne_nil hq
  refine ⟨i, hp, ?_⟩
  cases hchild : Machine.childOf nodes i bit with
  | none => simp [follow, hchild] at hrest
  | some c => exact h.internal_of_childOf hchild

/-- A proper beginning of a codeword emits nothing (R123). -/
theorem walkBits_codeword_prefix (h : TreeReady s) {v : Byte} (hv : InAlphabet s.arena v) {p : List Bool}
    (hp : p <+: codeword s v) (hne : p ≠ codeword s v) {c : WalkCtx} (hc : c.cur = s.root.toNat) :
    ∃ c', walkBits s.arena s.root.toNat c p = some c' ∧ c'.out = c.out := by
  obtain ⟨-, -, htree⟩ := id h
  obtain ⟨n, -, -, -, -, -, hfollow, -⟩ := codeword_spec h hv
  obtain ⟨q, hpq⟩ := hp
  have hq : q ≠ [] := by rintro rfl; exact hne (by simpa using hpq)
  obtain ⟨i, hi, hint⟩ := htree.internal_of_follow_append (hpq ▸ hfollow) hq
  exact ⟨_, walkBits_to_internal htree (hc ▸ hi) hint, rfl⟩

/-- Settles O32: codeword by codeword, and the beginning of one more ends at an internal node. -/
theorem decoderEmitsSymbols : Obligations.DecoderEmitsSymbols := by
  intro s h vs hvs
  have hwalk : walkBits s.arena s.root.toNat (walkStart s) (vs.flatMap (codeword s)) =
      some { cur := s.root.toNat, out := vs, bi := (vs.flatMap (codeword s)).length } := by
    simpa [walkStart] using walkBits_codewords h hvs (c := walkStart s) rfl
  refine ⟨hwalk, fun v hv p hp hne => ?_⟩
  rw [walkBits_append, hwalk, Option.bind_some]
  exact walkBits_codeword_prefix h hv hp hne rfl

/-! ### The words of the message stream -/

/-- Where the walk goes over the bits, so does the word that brings them. -/
theorem takeBits_of_walk {c c' : WalkCtx} {bits : List Bool} (hw : s.work = .walk c) (hbi : c.bi < s.bitLen.toNat)
    (hwalk : walkBits s.arena s.root.toNat c bits = some c') : takeBits bits s = .next { s with work := .walk c' } := by
  simp only [takeBits, hw, hbi.not_ge, hwalk, if_false]

/-- Where the walk meets a child that does not exist, the word stops (log entry 11). -/
theorem takeBits_of_no_walk {c : WalkCtx} {bits : List Bool} (hw : s.work = .walk c) (hbi : c.bi < s.bitLen.toNat)
    (hwalk : walkBits s.arena s.root.toNat c bits = none) : takeBits bits s = .fault .treeUnreadable := by
  simp only [takeBits, hw, hbi.not_ge, hwalk, if_false]

/-- A codeword bit is taken as that bit (R75). -/
theorem exec_codeBit (bit : Bool) (s : State) : exec (if bit then .codeRight else .codeLeft) s = takeBits [bit] s := by
  cases bit <;> rfl

/-- Settles O51: the child for the bit exists, and its kind decides between the emit and the step. -/
theorem codeBitStep : Obligations.CodeBitStep := by
  intro s c h hw hbi hcur
  obtain ⟨-, -, htree⟩ := h
  refine ⟨rfl, fun bit => ?_⟩
  obtain ⟨n, nd, hchild, hnd, -, hcase⟩ := walkBit_cases htree c hcur bit
  refine ⟨n, nd, hchild, hnd, fun hk => ?_, fun hk => ?_⟩
  · obtain ⟨-, hv, hwalk⟩ | ⟨hk', -⟩ := hcase
    · exact ⟨hv, (exec_codeBit bit s).trans (takeBits_of_walk hw hbi (by simp [walkBits, hwalk]))⟩
    · exact nomatch hk.symm.trans hk'
  · obtain ⟨hk', -⟩ | ⟨-, hwalk⟩ := hcase
    · exact nomatch hk.symm.trans hk'
    · exact (exec_codeBit bit s).trans (takeBits_of_walk hw hbi (by simp [walkBits, hwalk]))

theorem bitsOfByte_length (b : Byte) (bi n : Nat) : (bitsOfByte b bi n).length = min (8 - bi % 8) (n - bi) := by
  simp [bitsOfByte]

/-- The bits of a message byte, counted from the cursor's place in the byte (R77). -/
theorem bitsOfByte_eq (b : Byte) (bi n : Nat) :
    bitsOfByte b bi n = (List.range (bitsOfByte b bi n).length).map fun i => b.getLsbD (bi % 8 + i) := by
  rw [bitsOfByte_length, bitsOfByte, List.range'_eq_map_range, List.map_map]
  refine List.map_congr_left fun i hi => ?_
  have hplace : (bi + i) % 8 = bi % 8 + i := by have := List.mem_range.1 hi; omega
  simp only [Function.comp_apply, bitOf, hplace]

/-- A message byte is taken as its bits from the cursor on (R77, R120). -/
theorem exec_msgByte {c : WalkCtx} (hw : s.work = .walk c) (b : Byte) :
    exec (.msgByte b) s = takeBits (bitsOfByte b c.bi s.bitLen.toNat) s := by
  simp only [exec, execMsgByte, walkCursor, hw]

/-- Settles O52: the walk over the byte's bits is defined, and there are as many as lie below the byte's end and
`BIT_LEN`. -/
theorem messageByteStep : Obligations.MessageByteStep := by
  intro s c b h hw hbi hcur
  obtain ⟨-, -, htree⟩ := h
  obtain ⟨c', hwalk, hcur', hbi', -⟩ := walkBits_total htree (bitsOfByte b c.bi s.bitLen.toNat) c hcur
  refine ⟨c', (exec_msgByte hw b).trans (takeBits_of_walk hw hbi hwalk), ?_, hcur', ?_⟩
  · rw [hbi', bitsOfByte_length]; omega
  · rw [hbi', Nat.add_sub_cancel_left, ← bitsOfByte_eq]; exact hwalk

end Sys2Proof.Machine
end

section
/-! PROOF. DECODE as a command (R124): its faults in their order and what it writes, that it gives back what ENCODE took
(R125), and its message taken one word a step. -/

namespace Sys2Proof.Machine

variable {s : State}

/-! ### The outcomes of DECODE -/

/-- The state DECODE leaves without fault when it emits `out` (R124). -/
def decoded (out : List Byte) (s : State) : State :=
  succeed (setLength .sym out.length (storeBytes .sym 0 out s))

theorem finishWalk_of_fits {out : List Byte} (h : out.length ≤ s.params.symCap) :
    finishWalk out s = .next (decoded out s) :=
  if_neg h.not_gt

theorem finishWalk_of_overlong {out : List Byte} (h : s.params.symCap < out.length) :
    finishWalk out s = .next (raise .capacityExceeded 0 0 s) :=
  if_pos h

theorem exec_decode (s : State) : exec .decode s = decodeStage s := rfl

theorem exec_decode_of_noTree (h : s.treeValid = false) : exec .decode s = .next (raise .noTree 0 0 s) := by
  simp [exec_decode, decodeStage, decodeTests, h]

theorem exec_decode_of_badRange (h : s.treeValid = true) (hrange : s.params.artCap < s.artLen.toNat ∨
    s.artLen.toNat < s.msgOff.toNat ∨ 8 * (s.artLen.toNat - s.msgOff.toNat) < s.bitLen.toNat) :
    exec .decode s = .next (raise .badRange 0 0 s) := by
  simp only [exec_decode, decodeStage, decodeTests, h, hrange, Bool.true_eq_false, if_false, if_true]

/-- How DECODE ends for a walk of its message: at its last bit, or where a child does not exist (R124, log entry 11). -/
def endOfWalk (s : State) : Option WalkCtx → Result
  | none => .fault .treeUnreadable
  | some c => finishWalk c.out s

/-- Past its tests DECODE is the walk of its message (R124). -/
theorem exec_decode_of_tests (h : s.treeValid = true) (hart : s.artLen.toNat ≤ s.params.artCap)
    (hoff : s.msgOff.toNat ≤ s.artLen.toNat) (hbits : s.bitLen.toNat ≤ 8 * (s.artLen.toNat - s.msgOff.toNat)) :
    exec .decode s = endOfWalk s (walkBits s.arena s.root.toNat (walkStart s) (messageBits s)) := by
  have htests : decodeTests s = none := by
    simp only [decodeTests, h, hart.not_gt, hoff.not_gt, hbits.not_gt, or_self, Bool.true_eq_false, if_false]
  rw [exec_decode, decodeStage, htests]
  cases walkBits s.arena s.root.toNat (walkStart s) (messageBits s) <;> rfl

/-! ### The symbols in `SYM` -/

/-- `SYM` after DECODE: the emitted symbols, and the old bytes after them (R124). -/
theorem symByte_decoded (out : List Byte) (s : State) (i : Nat) : symByte (decoded out s) i = out.getD i (symByte s i) := by
  have hread := readByte_storeBytes s .sym .sym out i
  rwa [if_pos rfl] at hread

theorem decoded_symLen {out : List Byte} (hlen : out.length < 2 ^ 32) (s : State) :
    (decoded out s).symLen.toNat = out.length := by
  change (BitVec.ofNat 32 out.length).toNat = out.length
  rw [BitVec.toNat_ofNat, Nat.mod_eq_of_lt hlen]

theorem symbols_decoded {out : List Byte} (hlen : out.length < 2 ^ 32) (s : State) : symbols (decoded out s) = out := by
  refine List.ext_getElem (by rw [symbols_length, decoded_symLen hlen]) fun i _ hi => ?_
  simp [symbols, symByte_decoded, hi]

/-- Settles O33: test by test in their order, then the symbols where they fit. -/
theorem decodeCommand : Obligations.DecodeCommand := by
  intro s
  refine ⟨fun hno => ?_, fun hvalid hrange => ?_, fun h hart hoff hbits => ?_⟩
  · rw [exec_decode_of_noTree hno, raise_eq_faulted _ _ _ _ (by decide)]
  · rw [exec_decode_of_badRange hvalid hrange, raise_eq_faulted _ _ _ _ (by decide)]
  · obtain ⟨hvalid, -, htree⟩ := id h
    obtain ⟨c, hwalk, -⟩ := walkBits_total htree (messageBits s) (walkStart s) h.walkStart_internal
    have hrun : exec .decode s = finishWalk c.out s := by rw [exec_decode_of_tests hvalid hart hoff hbits, hwalk]; rfl
    refine ⟨c, hwalk, fun hlong => ?_, fun hfits hp => ?_⟩
    · rw [hrun, finishWalk_of_overlong hlong, raise_eq_faulted _ _ _ _ (by decide)]
    · have hlen : c.out.length < 2 ^ 32 := hfits.trans_lt (capacityOf_lt hp .sym)
      refine ⟨decoded c.out s, hrun.trans (finishWalk_of_fits hfits), decoded_symLen hlen s, symbols_decoded hlen s,
        fun i hi => ?_, rfl⟩
      rw [symByte_decoded, List.getD_eq_default _ _ hi]

/-! ### DECODE after ENCODE (R125) -/

/-- The message bits that ENCODE writes are the ones DECODE reads (R77, R115, R120). -/
theorem messageBits_storeMessage {bits : List Bool} (hp : s.params.ok = true)
    (hcap : s.msgOff.toNat + ceil8 bits.length ≤ s.params.artCap) : messageBits (storeMessage bits s) = bits := by
  refine List.ext_getElem (by rw [messageBits_length, storeMessage_bitLen_toNat hp hcap]) fun i _ hi => ?_
  have hbit := storeMessage_bit bits s (div_eight_lt_ceil8 hi) (Nat.mod_lt i (by decide : 8 > 0))
  rw [Nat.div_add_mod, List.getD_eq_getElem _ _ hi] at hbit
  simpa [messageBits, msgBit, bitOf] using hbit

/-- DECODE of what ENCODE has written gives the sequence back (R125). -/
theorem exec_decode_storeMessage (h : TreeReady s) (hp : s.params.ok = true) {vs : List Byte}
    (hvs : ∀ v ∈ vs, InAlphabet s.arena v) (hsym : vs.length ≤ s.params.symCap)
    (hcap : s.msgOff.toNat + ceil8 (vs.flatMap (codeword s)).length ≤ s.params.artCap) :
    exec .decode (succeed (storeMessage (vs.flatMap (codeword s)) s)) =
      .next (decoded vs (succeed (storeMessage (vs.flatMap (codeword s)) s))) := by
  have hart := storeMessage_artLen_toNat hp hcap
  have hbits := storeMessage_bitLen_toNat hp hcap
  have hmsg : messageBits (succeed (storeMessage (vs.flatMap (codeword s)) s)) = vs.flatMap (codeword s) :=
    messageBits_storeMessage hp hcap
  obtain ⟨hvalid, -⟩ := id h
  rw [exec_decode_of_tests, hmsg]
  · have hwalk := walkBits_codewords h hvs (c := walkStart s) rfl
    exact (congrArg (endOfWalk _) hwalk).trans (finishWalk_of_fits hsym)
  · exact hvalid
  · exact hart.trans_le hcap
  · exact (Nat.le_add_right _ _).trans_eq hart.symm
  · rw [succeed_bitLen, hbits, succeed_artLen, hart, succeed_msgOff, storeMessage_msgOff, ceil8]
    omega

/-- Settles O34: TRAIN gives every symbol its leaf, so that ENCODE can lack room only, and DECODE walks its codewords. -/
theorem decodeInvertsEncode : Obligations.DecodeInvertsEncode := by
  intro s hp hsym hoff hno
  have hready := treeReady_trained s
  have hmarker : marker ∉ symbols s := by simpa [symbols, marker] using hno
  have hleaf : ∀ v ∈ symbols s, InAlphabet (trained s).arena v := fun v hv => trained_inAlphabet hmarker hv
  have hencode := exec_encode_of_inAlphabet hready hsym hoff fun i hi =>
    hleaf _ (List.mem_map.2 ⟨i, List.mem_range.2 hi, rfl⟩)
  split_ifs at hencode with hlong
  · exact ⟨_, _, exec_train_of_clean hsym hno, rfl, hencode, .inl rfl⟩
  · have hfits : (symbols s).length ≤ s.params.symCap := by rwa [symbols_length]
    refine ⟨_, _, exec_train_of_clean hsym hno, rfl, hencode, .inr ⟨rfl, _,
      exec_decode_storeMessage hready hp hleaf hfits (not_lt.1 hlong), rfl, ?_, ?_⟩⟩
    · change BitVec.ofNat 32 (symbols s).length = s.symLen
      rw [symbols_length, BitVec.ofNat_toNat, BitVec.setWidth_eq]
    · exact symbols_decoded (hfits.trans_lt (capacityOf_lt hp .sym)) _

/-! ### DECODE word by word -/

/-- One bit moves the cursor by one (R120). -/
theorem walkBit_bi {nodes : List Node} {root : Nat} {c c' : WalkCtx} {bit : Bool}
    (h : walkBit nodes root c bit = some c') : c'.bi = c.bi + 1 := by
  unfold walkBit at h
  split at h
  · cases h
  · split at h
    · cases h
    · split at h <;> cases h <;> rfl

/-- The walk's cursor counts the bits (R120). -/
theorem walkBits_bi {nodes : List Node} {root : Nat} {c c' : WalkCtx} {bits : List Bool}
    (h : walkBits nodes root c bits = some c') : c'.bi = c.bi + bits.length := by
  induction bits generalizing c with
  | nil => cases h; rfl
  | cons bit bits ih =>
    cases hw : walkBit nodes root c bit with
    | none => simp [walkBits, hw] at h
    | some d =>
      simp only [walkBits, hw] at h
      rw [ih h, walkBit_bi hw, List.length_cons, Nat.add_assoc, Nat.add_comm 1]

/-- The message bits from the cursor on. -/
def bitsFrom (s : State) (bi : Nat) : List Bool := (List.range' bi (s.bitLen.toNat - bi)).map (msgBit s)

theorem bitsFrom_zero (s : State) : bitsFrom s 0 = messageBits s := by
  rw [bitsFrom, messageBits, List.range_eq_range', Nat.sub_zero]

theorem bitsFrom_end {bi : Nat} (h : s.bitLen.toNat ≤ bi) : bitsFrom s bi = [] := by
  rw [bitsFrom, Nat.sub_eq_zero_of_le h]; rfl

/-- The first `m` of the bits from the cursor on, and the bits after them. -/
theorem bitsFrom_split {bi m : Nat} (hm : bi + m ≤ s.bitLen.toNat) :
    bitsFrom s bi = (List.range' bi m).map (msgBit s) ++ bitsFrom s (bi + m) := by
  rw [bitsFrom, bitsFrom, ← List.map_append, List.range'_append_1]
  congr 2; omega

/-- The next word of the message brings at least one of the bits from the cursor on, in their order (R77, R120). -/
theorem exec_messageWord {c : WalkCtx} (hw : s.work = .walk c) (hbi : c.bi < s.bitLen.toNat) :
    ∃ m, 1 ≤ m ∧ c.bi + m ≤ s.bitLen.toNat ∧
      exec (messageWord s c.bi) s = takeBits ((List.range' c.bi m).map (msgBit s)) s := by
  by_cases h8 : c.bi % 8 = 0
  · refine ⟨min 8 (s.bitLen.toNat - c.bi), by omega, by omega, ?_⟩
    rw [messageWord, if_pos h8, exec_msgByte hw, bitsOfByte, h8]
    congr 1
    refine List.map_congr_left fun i hi => ?_
    have hbyte : i / 8 = c.bi / 8 := by have := List.mem_range'_1.1 hi; omega
    rw [msgBit, hbyte]
  · refine ⟨1, le_rfl, hbi, ?_⟩
    rw [messageWord, if_neg h8]
    exact exec_codeBit (msgBit s c.bi) s

/-- Inside the message a step takes its next word (R120, R124). -/
theorem step_of_bits_left {c : WalkCtx} (hw : s.work = .walk c) (hbi : c.bi < s.bitLen.toNat) :
    step s = exec (messageWord s c.bi) s := by
  simp only [step, advance, hw, messageStreamStep, hbi.not_ge, if_false]

/-- After the last bit a step ends DECODE (R123, R124). -/
theorem step_of_no_bits {c : WalkCtx} (hw : s.work = .walk c) (hbi : s.bitLen.toNat ≤ c.bi) :
    step s = finishWalk c.out { s with work := .idle } := by
  simp only [step, advance, hw, messageStreamStep, hbi, if_true]

theorem run_one (M : Host.Core) (s : M.State) : M.run 1 s = M.step s := by
  simp only [Host.Core.run]
  cases M.step s <;> rfl

/-- From any place in the message the machine runs to the end of the walk (R120 to R124): each word shortens what is left,
and the walk goes over its bits. -/
theorem run_message {c : WalkCtx} (hw : s.work = .walk c) : ∃ n, Host.Core.run core n s =
    endOfWalk { s with work := .idle } (walkBits s.arena s.root.toNat c (bitsFrom s c.bi)) := by
  induction hleft : s.bitLen.toNat - c.bi using Nat.strong_induction_on generalizing s c with
  | _ left ih =>
    obtain hend | hbi := le_or_gt s.bitLen.toNat c.bi
    · refine ⟨1, (run_one core s).trans ((step_of_no_bits hw hend).trans ?_)⟩
      rw [bitsFrom_end hend]; rfl
    · obtain ⟨m, hpos, hle, hword⟩ := exec_messageWord hw hbi
      have hstep := (step_of_bits_left hw hbi).trans hword
      rw [bitsFrom_split hle, walkBits_append]
      cases hwalk : walkBits s.arena s.root.toNat c ((List.range' c.bi m).map (msgBit s)) with
      | none => exact ⟨1, (run_one core s).trans (hstep.trans (takeBits_of_no_walk hw hbi hwalk))⟩
      | some d =>
        have hd : d.bi = c.bi + m := by simpa using walkBits_bi hwalk
        obtain ⟨n, hrun⟩ := ih (s.bitLen.toNat - d.bi) (by omega) (s := { s with work := .walk d }) rfl rfl
        refine ⟨n + 1, (run_succ_of_step (hstep.trans (takeBits_of_walk hw hbi hwalk)) n).trans (hrun.trans ?_)⟩
        rw [hd]; rfl

/-- Settles O55: the run from the start of the message is the walk of the whole message. -/
theorem decodeFromMessageWords : Obligations.DecodeFromMessageWords := by
  intro s hw hvalid hart hoff hbits
  obtain ⟨n, hrun⟩ := run_message (openMessage_work s)
  have hidle : { openMessage s with work := .idle } = s := by rw [← hw]; rfl
  refine ⟨n, hrun.trans ?_⟩
  rw [exec_decode_of_tests hvalid hart hoff hbits, ← bitsFrom_zero, hidle]
  rfl

end Sys2Proof.Machine
end

section
/-! PROOF. The words of the data streams inside a command: which word a step takes (R120, R136), what a tree byte does
to the deserializer (R134, R137), and TDES as its tree bytes taken one a step. -/

namespace Sys2Proof.Machine

variable {s : State} {c : DeserCtx} {b : Byte}

/-! ### The word a step takes -/

/-- Bytes that begin with a word of a space decode to the word of their first byte. -/
theorem decodeByte_of_decode {sp : Space} {rest : List Byte} {i : Instr} {rest' : List Byte}
    (h : decode sp (b :: rest) = .ok (i, rest')) : decodeByte sp b = .ok i := by
  cases hb : decodeByte sp b with
  | error e => simp [decode, hb] at h
  | ok j =>
    rw [decode_cons_of_ok hb] at h
    cases h; rfl

/-- A codeword bit as a byte is a word of its space (R75). -/
theorem decodeByte_codeBit (bit : Bool) : decodeByte .codeBit (BitVec.ofNat 8 bit.toNat) = .ok (decodeCodeBit bit) := by
  cases bit <;> rfl

/-- While the tree is incomplete a step takes the tree byte at the cursor (R136). -/
theorem step_of_tree_byte (hw : s.work = .deser c) (hs : c.stk ≠ []) (hap : c.ap < s.artLen.toNat) :
    step s = exec (decodeTreeByte (artByte s c.ap)) s := by
  simp only [step, advance, hw, treeStreamStep, hs, hap.not_ge, if_false]

/-- A complete tree ends TDES (R135). -/
theorem step_of_complete_tree (hw : s.work = .deser c) (hs : c.stk = []) :
    step s = .next (finishTree c { s with work := .idle }) := by
  simp only [step, advance, hw, treeStreamStep, hs, if_true]

/-- At the end of the bytes an incomplete tree is the defect M3 (R137). -/
theorem step_of_no_tree_byte (hw : s.work = .deser c) (hs : c.stk ≠ []) (hap : s.artLen.toNat ≤ c.ap) :
    step s = .next (raiseInTree .malformedArtifact s.artLen.toNat 0 { s with work := .idle }) := by
  simp only [step, advance, hw, treeStreamStep, hs, hap, if_false, if_true]

/-- Settles O14: the tree byte at the cursor; the message byte or the bit at it. -/
theorem stepRunsStreamWord : Obligations.StepRunsStreamWord := by
  refine ⟨fun s c hw hs hap i hdec => ?_, fun s c hw hbi => ⟨fun h8 i hdec => ?_, fun h8 i hdec => ?_⟩⟩
  · obtain rfl : decodeTreeByte (artByte s c.ap) = i := Except.ok.inj (decodeByte_of_decode hdec)
    exact step_of_tree_byte hw hs hap
  · obtain rfl : Instr.msgByte _ = i := Except.ok.inj (decodeByte_of_decode hdec)
    rw [step_of_bits_left hw hbi, messageWord, if_pos h8]
  · obtain rfl : decodeCodeBit (msgBit s c.bi) = i :=
      Except.ok.inj ((decodeByte_codeBit _).symm.trans (decodeByte_of_decode hdec))
    rw [step_of_bits_left hw hbi, messageWord, if_neg h8]

/-! ### One tree byte -/

/-- A byte that passes M4 and M5 is one deserializer step (R134). -/
theorem takeTreeByte_of_legal (hmarker : b = marker → c.nint ≠ maxInt) (hleaf : b ≠ marker → b ∉ c.seen) :
    takeTreeByte c b = .ok (deserStep c b) := by
  rcases takeTreeByte_cases c b with ⟨hb, hn, -⟩ | ⟨hb, hseen, -⟩ | ⟨-, -, e⟩
  · exact absurd hn (hmarker hb)
  · exact absurd hseen (hleaf hb)
  · exact e

/-- The defect M4 (R137). -/
theorem takeTreeByte_of_excess (hn : c.nint = maxInt) : takeTreeByte c marker = .error (c.ap, 0) := by
  simp [takeTreeByte, hn]

/-- The defect M5 (R137). -/
theorem takeTreeByte_of_seen (hb : b ≠ marker) (hseen : b ∈ c.seen) : takeTreeByte c b = .error (c.ap, b) := by
  simp [takeTreeByte, hb, hseen]

theorem takeTreeWord_of_ok (hw : s.work = .deser c) (hs : c.stk ≠ []) {c' : DeserCtx} (h : takeTreeByte c b = .ok c') :
    takeTreeWord b s = .next { s with work := .deser c' } := by
  simp only [takeTreeWord, hw, hs, h, if_false]

theorem takeTreeWord_of_error (hw : s.work = .deser c) (hs : c.stk ≠ []) {pos : Nat} {val : Byte}
    (h : takeTreeByte c b = .error (pos, val)) :
    takeTreeWord b s = .next (raiseInTree .malformedArtifact pos val { s with work := .idle }) := by
  simp only [takeTreeWord, hw, hs, h, if_false]

/-- The decoded tree byte does what the byte does (R72). -/
theorem exec_decodeTreeByte (b : Byte) (s : State) : exec (decodeTreeByte b) s = takeTreeWord b s := by
  by_cases hb : b = marker
  · subst hb; rfl
  · rw [decodeTreeByte_of_ne hb]; rfl

/-- The fault record holds the position in 32 bits (R170). -/
theorem raiseInTree_eq_faultedInTree_mod (k : ErrKind) (pos : Nat) (val : Byte) (s : State) :
    raiseInTree k pos val s = faultedInTree k (pos % 2 ^ 32) val s := by
  have hinfo : errInfoOf pos val = errInfoOf (pos % 2 ^ 32) val :=
    congrArg (val ++ ·) (BitVec.eq_of_toNat_eq (by simp))
  rw [← raiseInTree_eq_faultedInTree _ _ _ _ (Nat.mod_lt pos (by decide)), raiseInTree, raise, hinfo]
  rfl

/-- Settles O50: M4 and M5 at the cursor. -/
theorem treeWordFaults : Obligations.TreeWordFaults := by
  refine fun s c hw hs => ⟨fun hn => ?_, fun v hv hseen => ?_⟩
  · rw [← raiseInTree_eq_faultedInTree_mod]
    exact takeTreeWord_of_error hw hs (takeTreeByte_of_excess hn)
  · rw [← raiseInTree_eq_faultedInTree_mod]
    exact takeTreeWord_of_error hw hs (takeTreeByte_of_seen hv hseen)

/-- The nodes after one step: a new one, linked to the parent on top, and every other node as before (R134). -/
theorem linkChild_append_spec {nodes : List Node} {top : StackEntry} (hpar : top.par < nodes.length) (x : Node) :
    (linkChild nodes top ++ [x]).length = nodes.length + 1 ∧
    (linkChild nodes top ++ [x])[nodes.length]? = some x ∧
    (top.rem = 2 → (linkChild nodes top ++ [x])[top.par]? =
      nodes[top.par]?.map fun nd => { nd with left := some nodes.length }) ∧
    (top.rem = 1 → (linkChild nodes top ++ [x])[top.par]? =
      nodes[top.par]?.map fun nd => { nd with right := some nodes.length }) ∧
    ∀ n < nodes.length, n ≠ top.par → (linkChild nodes top ++ [x])[n]? = nodes[n]? := by
  have hold {n : Nat} (hn : n < nodes.length) : (linkChild nodes top ++ [x])[n]? = (linkChild nodes top)[n]? := by
    rw [getElem?_append_one, linkChild_length, if_neg hn.ne]
  refine ⟨by simp, by simp, fun hrem => ?_, fun hrem => ?_, fun n hn hne => ?_⟩
  · rw [hold hpar]; simp [linkChild, hrem, setLeft]
  · rw [hold hpar]; simp [linkChild, hrem, setRight]
  · rw [hold hn, linkChild_other _ _ hne]

/-- Settles O49: both kinds of byte append and link a node; only the marker's is pushed. -/
theorem deserializerStep : Obligations.DeserializerStep := by
  intro s c top rest hw hstk hrem hpar
  have hs : c.stk ≠ [] := by simp [hstk]
  refine ⟨fun hn => ?_, fun v hv hseen => ?_⟩
  · obtain ⟨hlen, hnew, hleft, hright, hother⟩ :=
      linkChild_append_spec hpar (newInternal none none 0 (some top.par))
    have htake := takeTreeByte_of_legal (c := c) (b := marker) (fun _ => hn.ne) (absurd rfl)
    rw [deserStep_marker hstk] at htake
    exact ⟨_, takeTreeWord_of_ok hw hs htake, hlen, hnew, hleft, hright, hother, fun h2 => by simp [h2],
      fun h1 => by simp [h1], rfl, rfl, rfl⟩
  · obtain ⟨hlen, hnew, hleft, hright, hother⟩ := linkChild_append_spec hpar (newLeaf v 0 (some top.par))
    have htake := takeTreeByte_of_legal (c := c) (b := v) (fun hm => absurd hm hv) (fun _ => hseen)
    rw [deserStep_leaf hstk hv] at htake
    exact ⟨_, takeTreeWord_of_ok hw hs htake, hlen, hnew, hleft, hright, hother, fun h2 => by simp [h2],
      fun h1 => by simp [h1], fun u => List.mem_cons, rfl, rfl⟩

/-! ### TDES byte by byte -/

/-- How TDES ends for what its loop finds (R135, R137). -/
def endOfTree (s : State) : Except (Nat × Byte) DeserCtx → Result
  | .error (pos, val) => .next (raiseInTree .malformedArtifact pos val s)
  | .ok c => .next (finishTree c s)

theorem exec_tdes (s : State) : exec .tdes s = tdesStage s := rfl

/-- Past its tests TDES is its loop over the bytes after the root's (R136). -/
theorem exec_tdes_of_tests (hcap : s.artLen.toNat ≤ s.params.artCap) (hne : s.artLen ≠ 0) (h0 : artByte s 0 = marker) :
    exec .tdes s = endOfTree s (deserialize s.artLen.toNat ((artifact s).drop 1) deserStart) := by
  have htests : tdesTests s = none := by
    simp only [tdesTests, hcap.not_gt, hne, h0, ne_eq, not_true_eq_false, if_false]
  rw [exec_tdes, tdesStage, htests]
  rcases deserialize s.artLen.toNat ((artifact s).drop 1) deserStart with ⟨pos, val⟩ | c <;> rfl

/-- A byte taken while the tree is incomplete moves the cursor by one (R136). -/
theorem takeTreeByte_ap {c' : DeserCtx} (hs : c.stk ≠ []) (h : takeTreeByte c b = .ok c') : c'.ap = c.ap + 1 := by
  obtain ⟨top, rest, hstk⟩ := List.exists_cons_of_ne_nil hs
  rcases takeTreeByte_cases c b with ⟨-, -, e⟩ | ⟨-, -, e⟩ | ⟨-, -, e⟩ <;> rw [e] at h <;> cases h
  simp [deserStep, hstk]

/-- The artifact from one of its bytes on. -/
theorem artifact_drop_of_lt {ap : Nat} (hap : ap < s.artLen.toNat) :
    (artifact s).drop ap = artByte s ap :: (artifact s).drop (ap + 1) := by
  rw [List.drop_eq_getElem_cons (by simpa using hap)]
  simp [artifact]

/-- Of the bytes from the cursor on, the first is the one at the cursor. -/
theorem artifact_drop_cons {ap : Nat} {bs : List Byte} (h : (artifact s).drop ap = b :: bs) :
    ap < s.artLen.toNat ∧ artByte s ap = b ∧ (artifact s).drop (ap + 1) = bs := by
  have hap : ap < s.artLen.toNat := by
    by_contra hge
    rw [List.drop_eq_nil_of_le (by simpa using hge)] at h
    cases h
  rw [artifact_drop_of_lt hap, List.cons.injEq] at h
  exact ⟨hap, h⟩

/-- The loop stops at a complete tree (R136). -/
theorem deserialize_of_complete (hs : c.stk = []) (artLen : Nat) (bs : List Byte) :
    deserialize artLen bs c = .ok c := by
  cases bs <;> simp only [deserialize, hs, if_true]

theorem deserialize_nil_of_open (hs : c.stk ≠ []) (artLen : Nat) : deserialize artLen [] c = .error (artLen, 0) :=
  if_neg hs

theorem deserialize_cons_of_error (hs : c.stk ≠ []) {e : Nat × Byte} (h : takeTreeByte c b = .error e) (artLen : Nat)
    (bs : List Byte) : deserialize artLen (b :: bs) c = .error e := by
  simp only [deserialize, hs, h, if_false]

theorem deserialize_cons_of_ok (hs : c.stk ≠ []) {c' : DeserCtx} (h : takeTreeByte c b = .ok c') (artLen : Nat)
    (bs : List Byte) : deserialize artLen (b :: bs) c = deserialize artLen bs c' := by
  simp only [deserialize, hs, h, if_false]

/-- With the tree complete the machine ends as the loop does (R135). -/
theorem run_complete_tree (hw : s.work = .deser c) (hs : c.stk = []) (bs : List Byte) : Host.Core.run core 1 s =
    endOfTree { s with work := .idle } (deserialize s.artLen.toNat bs c) := by
  rw [deserialize_of_complete hs]
  exact (run_one core s).trans (step_of_complete_tree hw hs)

/-- From any byte of the tree the machine runs to the end of the loop (R136): a step ends TDES or takes the next
byte. -/
theorem run_tree (hw : s.work = .deser c) : ∃ n, Host.Core.run core n s =
    endOfTree { s with work := .idle } (deserialize s.artLen.toNat ((artifact s).drop c.ap) c) := by
  induction hbytes : (artifact s).drop c.ap generalizing s c with
  | nil =>
    by_cases hs : c.stk = []
    · exact ⟨1, run_complete_tree hw hs _⟩
    have hap : s.artLen.toNat ≤ c.ap := by simpa using hbytes
    refine ⟨1, (run_one core s).trans ((step_of_no_tree_byte hw hs hap).trans ?_)⟩
    rw [deserialize_nil_of_open hs]; rfl
  | cons b bs ih =>
    by_cases hs : c.stk = []
    · exact ⟨1, run_complete_tree hw hs _⟩
    obtain ⟨hap, hb, hrest⟩ := artifact_drop_cons hbytes
    have hstep := step_of_tree_byte hw hs hap
    rw [hb, exec_decodeTreeByte] at hstep
    cases htake : takeTreeByte c b with
    | error e =>
      refine ⟨1, (run_one core s).trans (hstep.trans ((takeTreeWord_of_error hw hs htake).trans ?_))⟩
      rw [deserialize_cons_of_error hs htake]; rfl
    | ok c' =>
      obtain ⟨n, hrun⟩ := ih (s := { s with work := .deser c' }) (c := c') rfl
        (by rw [takeTreeByte_ap hs htake]; exact hrest)
      refine ⟨n + 1, (run_succ_of_step (hstep.trans (takeTreeWord_of_ok hw hs htake)) n).trans (hrun.trans ?_)⟩
      rw [deserialize_cons_of_ok hs htake]

/-- Settles O54: the run from the byte after the root's is the loop over all bytes after it. -/
theorem tdesFromTreeWords : Obligations.TdesFromTreeWords := by
  intro s hw hcap hne h0
  obtain ⟨n, hrun⟩ := run_tree (openTree_work s)
  have hidle : { openTree s with work := .idle } = s := by rw [← hw]; rfl
  refine ⟨n, hrun.trans ?_⟩
  rw [exec_tdes_of_tests hcap hne h0, hidle]
  rfl

end Sys2Proof.Machine
end

section
/-! PROOF. TSER as a command (R130, R132): its two faults in their order, and the preorder bytes it writes at the head
of `ART`. -/

namespace Sys2Proof.Machine

variable {s : State} {p : ParseTree}

/-! ### The derivation of the held tree -/

/-- The node below which a derivation lies is internal when the derivation begins with the marker (R72). -/
theorem Shaped.node_of_internal {nodes : List Node} {n : Nat} (hs : Shaped nodes p n)
    (hk : kindAt nodes n = some .internal) : ∃ l r, p = .node l r := by
  cases p with
  | leaf v => exact nomatch hs.1.symm.trans hk
  | node l r => exact ⟨l, r, rfl⟩

/-- The derivation of the held tree is one that TDES accepts (R40, R138). -/
theorem TreeReady.accepted (h : TreeReady s) (hs : Shaped s.arena p s.root.toNat) : p.accepted := by
  obtain ⟨-, -, htree⟩ := id h
  refine ⟨?_, fun hm => htree.marker_not_inAlphabet ((inAlphabet_iff h hs _).2 hm),
    Shaped.values_nodup htree (path := []) rfl hs⟩
  obtain ⟨l, r, rfl⟩ := hs.node_of_internal htree.rootInternal
  rfl

/-- It has one byte for each node (R130). -/
theorem TreeReady.bytes_length (h : TreeReady s) (hs : Shaped s.arena p s.root.toNat) :
    p.bytes.length = s.nodeCnt.toNat ∧ s.nodeCnt.toNat = 2 * s.alphaSize.toNat - 1 := by
  obtain ⟨-, hcnt, htree⟩ := id h
  have hsize := p.bytes_length
  have hvalues := h.values_length hs
  have hnodes := htree.nodeCount
  omega

/-- The bytes TSER writes are those of the tree's derivation (R130). -/
theorem TreeReady.treeBytes_eq (h : TreeReady s) (hs : Shaped s.arena p s.root.toNat) : treeBytes s = some p.bytes := by
  obtain ⟨-, -, htree⟩ := h
  obtain ⟨q, hq, hbytes⟩ := shaped_root htree
  rw [shaped_unique hs hq]
  exact hbytes

/-! ### The outcomes of TSER -/

theorem exec_tser (s : State) : exec .tser s = tserStage s := rfl

theorem exec_tser_of_noTree (h : s.treeValid = false) : exec .tser s = .next (raise .noTree 0 0 s) :=
  if_pos h

theorem exec_tser_of_overlong (h : s.treeValid = true) (hcap : s.params.artCap < s.nodeCnt.toNat) :
    exec .tser s = .next (raise .capacityExceeded 0 0 s) := by
  simp only [exec_tser, tserStage, h, hcap, Bool.true_eq_false, if_false, if_true]

theorem exec_tser_of_fits (h : TreeReady s) (hs : Shaped s.arena p s.root.toNat)
    (hcap : s.nodeCnt.toNat ≤ s.params.artCap) : exec .tser s = .next (succeed (storeTree p.bytes s)) := by
  obtain ⟨hvalid, -⟩ := id h
  simp only [exec_tser, tserStage, hvalid, hcap.not_gt, h.treeBytes_eq hs, Bool.true_eq_false, if_false]

/-! ### The tree bytes in `ART` -/

theorem storeTree_artLen_toNat (bytes : List Byte) (s : State) :
    (storeTree bytes s).artLen.toNat = s.nodeCnt.toNat := by
  have hlt := s.nodeCnt.isLt
  rw [storeTree_artLen, BitVec.toNat_ofNat]
  omega

/-- `ART` after TSER: the tree bytes, and the old bytes after them (R132). -/
theorem artByte_storeTree (bytes : List Byte) (s : State) (i : Nat) :
    artByte (storeTree bytes s) i = bytes.getD i (artByte s i) :=
  readByte_storeBytes s .art .art bytes i

/-- The artifact TSER leaves is the tree bytes alone (R132). -/
theorem artifact_storeTree {bytes : List Byte} (hlen : bytes.length = s.nodeCnt.toNat) :
    artifact (storeTree bytes s) = bytes := by
  refine List.ext_getElem (by rw [artifact_length, storeTree_artLen_toNat, hlen]) fun i _ hi => ?_
  simp [artifact, artByte_storeTree, hi]

/-- Settles O35: test by test in their order, then the bytes of the tree's derivation. -/
theorem tserCommand : Obligations.TserCommand := by
  intro s
  refine ⟨fun hno => ?_, fun hvalid hlong => ?_, fun h hcap => ?_⟩
  · rw [exec_tser_of_noTree hno, raise_eq_faulted _ _ _ _ (by decide)]
  · rw [exec_tser_of_overlong hvalid hlong, raise_eq_faulted _ _ _ _ (by decide)]
  · obtain ⟨-, -, htree⟩ := id h
    obtain ⟨p, hs, -⟩ := shaped_root htree
    obtain ⟨hlen, hsize⟩ := h.bytes_length hs
    obtain ⟨hhead, -⟩ := h.accepted hs
    refine ⟨succeed (storeTree p.bytes s), p, exec_tser_of_fits h hs hcap, hs, hlen, hsize, hhead,
      artifact_storeTree hlen, fun i hi => ?_, storeTree_artLen_toNat p.bytes s, storeTree_artLen_toNat p.bytes s, rfl⟩
    exact (artByte_storeTree p.bytes s i).trans (List.getD_eq_default _ _ (hlen ▸ hi))

end Sys2Proof.Machine
end

section
/-! PROOF. TDES as a command (R135 to R138): the tree it builds, the artifacts it accepts, and the defects of the
others. -/

namespace Sys2Proof.Machine

variable {s : State} {p : ParseTree}

/-! ### The artifact's bytes -/

/-- A beginning of the artifact, byte by byte. -/
theorem artifact_take {n : Nat} (hn : n ≤ s.artLen.toNat) : (artifact s).take n = (List.range n).map (artByte s) := by
  rw [artifact, ← List.map_take, List.take_range, Nat.min_eq_left hn]

/-- An artifact has as many bytes as its parts. -/
theorem artLen_of_append {bytes rest : List Byte} (h : artifact s = bytes ++ rest) :
    s.artLen.toNat = bytes.length + rest.length := by
  rw [← artifact_length, h, List.length_append]

theorem artByte_of_append {bytes rest : List Byte} (h : artifact s = bytes ++ rest) {i : Nat} (hi : i < bytes.length) :
    artByte s i = bytes[i] := by
  have hget : (artifact s)[i]? = some bytes[i] := by rw [h, List.getElem?_append_left hi, List.getElem?_eq_getElem hi]
  have hlt : i < s.artLen.toNat := by rw [artLen_of_append h]; omega
  simpa [artifact, hlt] using hget

/-- The artifact of a nonempty length is its first byte and the bytes after it. -/
theorem artifact_eq_cons (hne : s.artLen ≠ 0) : artifact s = artByte s 0 :: (artifact s).drop 1 := by
  have hpos : 0 < s.artLen.toNat := Nat.pos_of_ne_zero fun hz => hne (BitVec.eq_of_toNat_eq (by simpa using hz))
  simpa using artifact_drop_of_lt hpos

/-! ### What the loop accepts -/

/-- A derivation that TDES accepts begins with an internal node (R138). -/
theorem ParseTree.accepted.node (h : p.accepted) : ∃ l r, p = .node l r := by
  obtain ⟨hhead, hm, -⟩ := h
  cases p with
  | leaf v =>
    rw [ParseTree.bytes, List.head?_cons, Option.some.injEq] at hhead
    exact absurd (by simp [ParseTree.values, hhead]) hm
  | node l r => exact ⟨l, r, rfl⟩

/-- What the loop ends with for an accepted derivation: the tree, numbered in preorder from node 0 on, and the cursor
after its last byte (R134, R138). -/
theorem deserialize_of_accepted (hp : p.accepted) (artLen : Nat) (rest : List Byte) :
    ∃ c, deserialize artLen ((p.bytes ++ rest).drop 1) deserStart = .ok c ∧ c.ap = p.bytes.length ∧
      c.nodes.length = p.bytes.length ∧ Placed c.nodes none p 0 := by
  obtain ⟨l, r, rfl⟩ := hp.node
  obtain ⟨-, hm, hnd⟩ := hp
  obtain ⟨c, hc, -, hspec⟩ := deserialize_tree hm hnd artLen rest
  exact ⟨c, by simpa [ParseTree.bytes] using hc, hspec⟩

/-- Where the loop meets no defect, the bytes begin with an accepted derivation (R138). -/
theorem accepted_of_deserialize {artLen : Nat} {bs : List Byte} {c : DeserCtx}
    (h : deserialize artLen bs deserStart = .ok c) :
    ∃ (p : ParseTree) (rest : List Byte), marker :: bs = p.bytes ++ rest ∧ p.accepted := by
  obtain ⟨read, more, rfl, hok, hstk, -⟩ := deserialize_ok artLen bs deserOK_start h
  have hclosed := hok.stk_eq_nil.1 hstk
  rcases parse_cases ([marker] ++ read) with ⟨p, rest, hp, hm⟩ | hopen
  · refine ⟨p, rest ++ more, by rw [← List.append_assoc, ← hp]; rfl, ?_, hm, ?_⟩
    · have hhead := congrArg List.head? hp
      rw [List.head?_append_of_ne_nil _ (List.length_pos_iff.1 p.bytes_length_pos)] at hhead
      exact hhead.symm
    · have hdistinct := hok.distinct
      rw [hp, List.filter_append, p.values_eq hm] at hdistinct
      exact (List.nodup_append'.1 hdistinct).1
  · have := hopen _ le_rfl
    rw [List.take_length] at this
    omega

/-! ### The tree TDES builds -/

/-- The bytes of an accepted derivation are at most 509 (R7). -/
theorem ParseTree.accepted.length_le (h : p.accepted) : p.bytes.length ≤ 509 := by
  obtain ⟨-, hm, hnd⟩ := h
  have hvalues := length_le_of_nodup_legal hnd hm
  have hsize := p.bytes_length
  omega

/-- The first byte of an accepted derivation is the marker (R138). -/
theorem ParseTree.accepted.artByte_zero (h : p.accepted) {rest : List Byte} (hart : artifact s = p.bytes ++ rest) :
    artByte s 0 = marker := by
  obtain ⟨l, r, rfl⟩ := h.node
  exact artByte_of_append hart (ParseTree.bytes_length_pos _)

/-- On an artifact that begins with an accepted derivation TDES ends without fault, with the derivation's tree in place
(R135, R136). -/
theorem exec_tdes_of_accepted (hcap : s.artLen.toNat ≤ s.params.artCap) (hp : p.accepted) {rest : List Byte}
    (hart : artifact s = p.bytes ++ rest) :
    ∃ c, exec .tdes s = .next (finishTree c s) ∧ TreeReady (finishTree c s) ∧ Placed c.nodes none p 0 ∧
      c.nodes.length = p.bytes.length ∧ (finishTree c s).msgOff.toNat = p.bytes.length := by
  obtain ⟨c, hc, hap, hlen, hplaced⟩ := deserialize_of_accepted hp s.artLen.toNat rest
  obtain ⟨htree, -⟩ := deserialize_treeOK hc
  have hpos := p.bytes_length_pos
  have hsmall := hp.length_le
  have hne : s.artLen ≠ 0 := by
    intro hz
    have hsum := artLen_of_append hart
    rw [hz] at hsum
    exact absurd hsum (by simp only [BitVec.ofNat_eq_ofNat, BitVec.toNat_ofNat]; omega)
  refine ⟨c, ?_, treeReady_installTree htree { s with msgOff := BitVec.ofNat 32 c.ap }, hplaced, hlen, ?_⟩
  · rw [exec_tdes_of_tests hcap hne (hp.artByte_zero hart), hart, hc]
    rfl
  · rw [finishTree_msgOff, BitVec.toNat_ofNat, hap]
    omega

/-- Settles O36: the nodes are the derivation's, numbered in preorder. -/
theorem tdesBuildsTree : Obligations.TdesBuildsTree := by
  intro s p rest hcap hp hart
  obtain ⟨c, hrun, hready, hplaced, hlen, hoff⟩ := exec_tdes_of_accepted hcap hp hart
  have hsize := hready.values_length hplaced.shaped
  have hentry {n : Nat} (hn : n < c.nodes.length) : EntryOK c.nodes p 0 n :=
    hplaced.entry (Nat.zero_le n) (by omega)
  refine ⟨finishTree c s, hrun, hready, hplaced.shaped, rfl, hsize.symm, fun n hn => (hentry hn).freq,
    fun n hn => (hentry hn).byte, fun n hn hk => hplaced.left (Nat.zero_le n) ?_ hk, hoff, rfl⟩
  rw [finishTree_arena] at hn
  omega

/-! ### The artifacts TDES accepts -/

/-- TDES without fault: the artifact fits its buffer and begins with an accepted derivation (R138). -/
theorem tdes_ok {t : State} (h : exec .tdes s = .next t) (he : t.err = none) :
    s.artLen.toNat ≤ s.params.artCap ∧
      ∃ (p : ParseTree) (rest : List Byte), artifact s = p.bytes ++ rest ∧ p.accepted := by
  rcases tdesStage_cases s with ⟨k, val, -, e⟩ | ⟨htests, ⟨pos, val, -, e⟩ | ⟨c, hc, -⟩⟩
  · obtain rfl := next_unique h e
    simp at he
  · obtain rfl := next_unique h e
    simp at he
  · rcases tdesTests_cases s with ⟨-, e⟩ | ⟨-, -, e⟩ | ⟨-, -, -, e⟩ | ⟨hcap, hne, h0, -⟩
    iterate 3 exact nomatch htests.symm.trans e
    refine ⟨hcap, ?_⟩
    rw [artifact_eq_cons hne, h0]
    exact accepted_of_deserialize hc

/-- Settles O37: where the loop meets no defect it has read an accepted derivation, and an accepted derivation is read
without one. -/
theorem tdesAccepts : Obligations.TdesAccepts := by
  refine fun s hcap => ⟨⟨fun ⟨t, h, he⟩ => (tdes_ok h he).2, fun ⟨p, rest, hart, hp⟩ => ?_⟩, fun t h he => ?_⟩
  · obtain ⟨c, hrun, -⟩ := exec_tdes_of_accepted hcap hp hart
    exact ⟨_, hrun, rfl⟩
  · obtain ⟨-, p, rest, hart, hp⟩ := tdes_ok h he
    obtain ⟨c, hrun, hready, hplaced, -, hoff⟩ := exec_tdes_of_accepted hcap hp hart
    obtain rfl := next_unique h hrun
    exact ⟨hready, p, rest, hart, hp, hplaced.shaped, hoff⟩

/-! ### The defects -/

/-- A test before the loop ends TDES (R136, R137). -/
theorem exec_tdes_of_failed_test {k : ErrKind} {val : Byte} (h : tdesTests s = some (k, val)) :
    exec .tdes s = .next (faultedInTree k 0 val s) := by
  rw [exec_tdes, tdesStage, h, ← raiseInTree_eq_faultedInTree _ _ _ _ (by decide)]

/-- The loop goes over bytes that leave the tree incomplete (R136). -/
theorem deserialize_of_incomplete {n : Nat} (hn : n ≤ s.artLen.toNat) (h : IncompleteTree s n) :
    ∃ c, deserialize s.artLen.toNat ((artifact s).drop 1) deserStart =
        deserialize s.artLen.toNat ((artifact s).drop n) c ∧
      DeserOK c ((List.range n).map (artByte s)) ∧ c.stk ≠ [] := by
  obtain ⟨hpos, h0, hopen, hfew, hnd⟩ := h
  obtain ⟨bs, hbs⟩ : ∃ bs, (List.range n).map (artByte s) = [marker] ++ bs := by
    obtain ⟨m, rfl⟩ := Nat.exists_eq_add_of_le' hpos
    exact ⟨_, by rw [List.range_succ_eq_map, List.map_cons, h0]; rfl⟩
  have hlen : bs.length + 1 = n := by simpa using (congrArg List.length hbs).symm
  have hsplit : (artifact s).drop 1 = bs ++ (artifact s).drop n := by
    conv_lhs => rw [← List.take_append_drop n (artifact s), artifact_take hn, hbs]
    simp
  have htake {m : Nat} (hm : m + 1 ≤ n) : [marker] ++ bs.take m = (List.range (m + 1)).map (artByte s) := by
    have := congrArg (List.take (m + 1)) hbs
    rw [← List.map_take, List.take_range, Nat.min_eq_left hm] at this
    simpa using this.symm
  obtain ⟨c, hc, hok⟩ := deserialize_run s.artLen.toNat ((artifact s).drop n) bs deserOK_start
    (fun m hm => by rw [htake (by omega)]; exact hopen (m + 1) (by omega) (by omega))
    (by rwa [← hbs]) (by rwa [← hbs])
  rw [← hbs] at hok
  exact ⟨c, by rw [hsplit, hc], hok, mt hok.stk_eq_nil.1 (hopen n hpos le_rfl).not_gt⟩

/-- An incomplete tree passes the tests before the loop (R136). -/
theorem exec_tdes_of_incomplete (hcap : s.artLen.toNat ≤ s.params.artCap) {n : Nat} (hn : n ≤ s.artLen.toNat)
    (h : IncompleteTree s n) : exec .tdes s =
      endOfTree s (deserialize s.artLen.toNat ((artifact s).drop 1) deserStart) := by
  obtain ⟨hpos, h0, -⟩ := h
  exact exec_tdes_of_tests hcap (by intro hz; rw [hz] at hn; simp at hn; omega) h0

/-- A byte that fails M4 or M5 after an incomplete tree ends TDES at its place (R137). -/
theorem exec_tdes_of_bad_byte (hcap : s.artLen.toNat ≤ s.params.artCap) {ap : Nat} (hap : ap < s.artLen.toNat)
    (h : IncompleteTree s ap) {val : Byte}
    (hbad : ∀ c, DeserOK c ((List.range ap).map (artByte s)) → takeTreeByte c (artByte s ap) = .error (c.ap, val)) :
    exec .tdes s = .next (faultedInTree .malformedArtifact ap val s) := by
  obtain ⟨c, hc, hok, hs⟩ := deserialize_of_incomplete hap.le h
  have hpos : c.ap = ap := by simpa using hok.ap
  rw [exec_tdes_of_incomplete hcap hap.le h, hc, artifact_drop_of_lt hap,
    deserialize_cons_of_error hs (hbad c hok), hpos, ← raiseInTree_eq_faultedInTree _ _ _ _ (hap.trans s.artLen.isLt)]
  rfl

/-- Settles O38: the tests before the loop, then M3, M4 and M5 after the bytes the loop goes over. -/
theorem tdesFaults : Obligations.TdesFaults := by
  refine fun s => ⟨fun hlong => ?_, fun hcap => ⟨fun hz => ?_, fun hne h0 => ?_, fun h => ?_,
    fun ap hap h => ⟨fun hn hm => ?_, fun hm hseen => ?_⟩⟩⟩
  · exact exec_tdes_of_failed_test (if_pos hlong)
  · exact exec_tdes_of_failed_test (by simp [tdesTests, hz])
  · exact exec_tdes_of_failed_test ((if_neg hcap.not_gt).trans ((if_neg hne).trans (if_pos h0)))
  · obtain ⟨c, hc, -, hs⟩ := deserialize_of_incomplete le_rfl h
    rw [exec_tdes_of_incomplete hcap le_rfl h, hc, List.drop_eq_nil_of_le (by simp), deserialize_nil_of_open hs,
      ← raiseInTree_eq_faultedInTree _ _ _ _ s.artLen.isLt]
    rfl
  · refine exec_tdes_of_bad_byte hcap hap h fun c hok => ?_
    rw [show artByte s ap = marker from hm]
    exact takeTreeByte_of_excess (hok.nint.trans hn)
  · exact exec_tdes_of_bad_byte hcap hap h fun c hok => takeTreeByte_of_seen hm ((hok.seen _).2 ⟨hm, hseen⟩)

end Sys2Proof.Machine
end

section
/-! PROOF. TSER and TDES one after the other (R139): each reads the bytes the other writes. -/

namespace Sys2Proof.Machine

variable {s t : State} {p : ParseTree}

/-- TSER without fault: the tree bytes fit, and are the bytes of the tree's derivation (R132). -/
theorem tser_ok (h : TreeReady s) (hs : Shaped s.arena p s.root.toNat) (hrun : exec .tser s = .next t)
    (he : t.err = none) :
    s.nodeCnt.toNat ≤ s.params.artCap ∧ t = succeed (storeTree p.bytes s) := by
  obtain ⟨hvalid, -⟩ := id h
  obtain hcap | hlong := le_or_gt s.nodeCnt.toNat s.params.artCap
  · exact ⟨hcap, next_unique hrun (exec_tser_of_fits h hs hcap)⟩
  · obtain rfl := next_unique hrun (exec_tser_of_overlong hvalid hlong)
    simp at he

/-- An artifact that holds some bytes at its head begins with them. -/
theorem artifact_eq_append {bytes : List Byte} (hlen : bytes.length ≤ s.artLen.toNat)
    (h : ∀ i, (hi : i < bytes.length) → artByte s i = bytes[i]) : ∃ rest, artifact s = bytes ++ rest := by
  have hhead : (artifact s).take bytes.length = bytes := by
    rw [artifact_take hlen]
    exact List.ext_getElem (by simp) fun i _ hi => by simpa using h i hi
  exact ⟨_, (hhead ▸ List.take_append_drop bytes.length (artifact s)).symm⟩

/-- After TDES `NODE_CNT` is the number of nodes it has built (R29). -/
theorem finishTree_nodeCnt_toNat {c : DeserCtx} (h : TreeReady (finishTree c s)) :
    (finishTree c s).nodeCnt.toNat = c.nodes.length := by
  obtain ⟨-, hcnt, -⟩ := h
  exact hcnt

/-- Settles O39: the held tree's derivation is accepted, and a derivation's bytes are those of the tree it builds. -/
theorem tserTdesInverse : Obligations.TserTdesInverse := by
  refine ⟨fun s t u h hrun he _ hcap hlen hbytes => ?_, fun s t hrun he => ?_⟩
  · obtain ⟨-, -, htree⟩ := id h
    obtain ⟨p, hs, -⟩ := shaped_root htree
    obtain ⟨hsize, hnodes⟩ := h.bytes_length hs
    obtain ⟨-, rfl⟩ := tser_ok h hs hrun he
    rw [succeed_artLen, storeTree_artLen_toNat, ← hsize] at hlen hbytes
    obtain ⟨rest, hart⟩ := artifact_eq_append hlen fun i hi => by
      refine (hbytes i hi).trans ((artByte_storeTree p.bytes s i).trans ?_)
      exact List.getD_eq_getElem _ _ hi
    obtain ⟨c, hrun', hready, hplaced, -, hoff⟩ := exec_tdes_of_accepted hcap (h.accepted hs) hart
    refine ⟨_, hrun', rfl, hoff.trans (hsize.trans hnodes), BitVec.eq_of_toNat_eq ?_,
      symbolCode_of_shape hready h hplaced.shaped hs⟩
    exact (hready.values_length hplaced.shaped).symm.trans (h.values_length hs)
  · obtain ⟨hcap, p, rest, hart, hp⟩ := tdes_ok hrun he
    obtain ⟨c, hrun', hready, hplaced, hlen, hoff⟩ := exec_tdes_of_accepted hcap hp hart
    obtain rfl := next_unique hrun hrun'
    have hcnt := (finishTree_nodeCnt_toNat hready).trans hlen
    have hsum := artLen_of_append hart
    have hfits : (finishTree c s).nodeCnt.toNat ≤ (finishTree c s).params.artCap := by
      rw [hcnt, finishTree_params]; omega
    refine ⟨_, exec_tser_of_fits hready hplaced.shaped hfits, rfl, BitVec.eq_of_toNat_eq ?_, fun i => ?_⟩
    · rw [succeed_artLen, storeTree_artLen_toNat, hcnt, hoff]
    · refine (artByte_storeTree p.bytes (finishTree c s) i).trans ?_
      obtain hi | hi := lt_or_ge i p.bytes.length
      · rw [List.getD_eq_getElem _ _ hi, artByte_of_append hart hi]
      · exact List.getD_eq_default _ _ hi

end Sys2Proof.Machine
end

section
/-! PROOF. The composites (R140, R142, R144, R146): their stages, and the artifact COMPRESS makes. -/

namespace Sys2Proof.Machine

variable {s t : State} {p : ParseTree}

/-! ### The stages (R140) -/

theorem exec_compress (s : State) :
    exec .compress s = andThen (andThen (exec .train s) (exec .tser)) (exec .encode) := rfl

theorem exec_expand (s : State) : exec .expand s = andThen (exec .tdes s) fun t => exec .decode (feedAllBits t) := rfl

/-- A fault of TRAIN ends COMPRESS (R140, R142). -/
theorem exec_compress_of_train_fault (h : exec .train s = .next t) (he : t.err ≠ none) : exec .compress s = .next t :=
  andThen_of_fault (andThen_of_fault h he) he

/-- Settles O43: a stage that faults ends the composite, and after one that does not the next runs. -/
theorem compositeStages : Obligations.CompositeStages := by
  refine ⟨fun s t ht => ⟨fun he => ?_, fun he u hu => ?_⟩, fun s t ht => ⟨fun he => ?_, fun he => ?_⟩⟩
  · exact exec_compress_of_train_fault ht he
  · rw [exec_compress, andThen_of_ok ht he]
    exact ⟨andThen_of_fault hu, andThen_of_ok hu⟩
  · rw [exec_expand, andThen_of_fault ht he]
  · rw [exec_expand, andThen_of_ok ht he]
    rfl

/-! ### COMPRESS (R142) -/

/-- The record of a fault without position and value is 0 (R170). -/
theorem errInfoOf_zero : errInfoOf 0 0 = 0 := by decide

/-- A fault that leaves the tree alone leaves the tree (R170). -/
theorem SameTree.raise (h : SameTree s t) (k : ErrKind) (pos : Nat) (val : Byte) :
    SameTree s (Machine.raise k pos val t) := h

/-- The bits ENCODE makes of the sequence with the held tree (R114). -/
def sequenceBits (s : State) : List Bool := (symbols s).flatMap (codeword s)

/-- The state TSER leaves without fault for a tree of derivation `p` (R132). -/
def serialized (p : ParseTree) (s : State) : State := succeed (storeTree p.bytes s)

/-- The state TSER and ENCODE leave without fault (R142). -/
def encoded (p : ParseTree) (s : State) : State := succeed (storeMessage (sequenceBits s) (serialized p s))

theorem serialized_sameTree (p : ParseTree) (s : State) : SameTree s (serialized p s) := ⟨rfl, rfl, rfl, rfl, rfl, rfl⟩

theorem encoded_sameTree (p : ParseTree) (s : State) : SameTree s (encoded p s) := ⟨rfl, rfl, rfl, rfl, rfl, rfl⟩

theorem encoded_arena (p : ParseTree) (s : State) : (encoded p s).arena = s.arena := rfl
theorem encoded_msgOff (p : ParseTree) (s : State) : (encoded p s).msgOff = (serialized p s).msgOff := rfl

@[simp] theorem serialized_params (p : ParseTree) (s : State) : (serialized p s).params = s.params := rfl
@[simp] theorem serialized_symLen (p : ParseTree) (s : State) : (serialized p s).symLen = s.symLen := rfl
@[simp] theorem serialized_arena (p : ParseTree) (s : State) : (serialized p s).arena = s.arena := rfl
@[simp] theorem symByte_serialized (p : ParseTree) (s : State) (i : Nat) :
    symByte (serialized p s) i = symByte s i := rfl

theorem sequenceBits_serialized (p : ParseTree) (s : State) : sequenceBits (serialized p s) = sequenceBits s := by
  unfold sequenceBits
  rw [← (serialized_sameTree p s).codeword_eq]
  rfl

@[simp] theorem artByte_succeed (s : State) (i : Nat) : artByte (succeed s) i = artByte s i := rfl
@[simp] theorem artByte_raise (k : ErrKind) (pos : Nat) (val : Byte) (s : State) (i : Nat) :
    artByte (raise k pos val s) i = artByte s i := rfl
@[simp] theorem artifact_succeed (s : State) : artifact (succeed s) = artifact s := rfl
@[simp] theorem artifact_raise (k : ErrKind) (pos : Nat) (val : Byte) (s : State) :
    artifact (raise k pos val s) = artifact s := rfl

theorem artByte_serialized {i : Nat} (hi : p.bytes.length ≤ i) : artByte (serialized p s) i = artByte s i :=
  (artByte_storeTree p.bytes s i).trans (List.getD_eq_default _ _ hi)

/-- A message put right after the artifact is appended to it (R78, R115). -/
theorem artifact_storeMessage {bits : List Bool} (hp : s.params.ok = true)
    (hcap : s.msgOff.toNat + ceil8 bits.length ≤ s.params.artCap) (hoff : s.artLen.toNat = s.msgOff.toNat) :
    artifact (storeMessage bits s) = artifact s ++ pack bits := by
  have hlen := storeMessage_artLen_toNat hp hcap
  refine List.ext_getElem (by simp only [artifact_length, List.length_append, pack_length, hlen, hoff]) fun i hi _ => ?_
  rw [artifact_length, hlen] at hi
  have hbyte := artByte_pokeAll s (storeMessage bits s) (pack bits) s.msgOff.toNat rfl rfl i
  rw [List.getElem_append]
  split
  · next hold =>
    rw [artifact_length, hoff] at hold
    rw [dif_neg (by omega)] at hbyte
    simpa [artifact] using hbyte
  · next hnew =>
    rw [artifact_length, hoff] at hnew
    rw [dif_pos (by rw [pack_length]; omega)] at hbyte
    simpa [artifact, hoff] using hbyte

section

variable (h : TreeReady s) (hs : Shaped s.arena p s.root.toNat)
include h hs

theorem serialized_msgOff_toNat : (serialized p s).msgOff.toNat = p.bytes.length := by
  obtain ⟨hlen, -⟩ := h.bytes_length hs
  rw [hlen]
  exact storeTree_artLen_toNat p.bytes s

theorem artifact_serialized : artifact (serialized p s) = p.bytes := by
  obtain ⟨hlen, -⟩ := h.bytes_length hs
  exact artifact_storeTree hlen

/-- TSER and ENCODE of a sequence over the tree's alphabet: the tree bytes and the message bits decide, in this order,
whether they fit (R142). -/
theorem exec_tser_encode (hle : s.symLen.toNat ≤ s.params.symCap)
    (hall : ∀ i < s.symLen.toNat, InAlphabet s.arena (symByte s i)) :
    andThen (exec .tser s) (exec .encode) =
      if s.params.artCap < p.bytes.length then .next (raise .capacityExceeded 0 0 s)
      else if s.params.artCap < p.bytes.length + ceil8 (sequenceBits s).length
        then .next (raise .capacityExceeded 0 0 (serialized p s))
      else .next (encoded p s) := by
  obtain ⟨hvalid, -⟩ := id h
  obtain ⟨hlen, -⟩ := h.bytes_length hs
  split_ifs with htree hmsg
  · exact andThen_of_fault (exec_tser_of_overlong hvalid (hlen ▸ htree)) (by simp)
  all_goals
    have hoff : (serialized p s).msgOff.toNat ≤ s.params.artCap :=
      (serialized_msgOff_toNat h hs).trans_le (not_lt.1 htree)
    have hencode := exec_encode_of_inAlphabet ((serialized_sameTree p s).treeReady h) hle hoff hall
    rw [← sequenceBits, sequenceBits_serialized, serialized_msgOff_toNat h hs] at hencode
    rw [andThen_of_ok (exec_tser_of_fits h hs (hlen ▸ not_lt.1 htree)) rfl]
  · exact hencode.trans (if_pos hmsg)
  · exact hencode.trans (if_neg hmsg)

section

variable (hp : s.params.ok = true) (hcap : p.bytes.length + ceil8 (sequenceBits s).length ≤ s.params.artCap)
include hp hcap

/-- The artifact of R78: the tree bytes and the packed message. -/
theorem artifact_encoded : artifact (encoded p s) = p.bytes ++ pack (sequenceBits s) := by
  rw [← serialized_msgOff_toNat h hs] at hcap
  rw [encoded, artifact_succeed, artifact_storeMessage (s := serialized p s) hp hcap rfl, artifact_serialized h hs]

theorem encoded_bitLen_toNat : (encoded p s).bitLen.toNat = (sequenceBits s).length := by
  rw [← serialized_msgOff_toNat h hs] at hcap
  exact storeMessage_bitLen_toNat (s := serialized p s) hp hcap

theorem artByte_encoded {i : Nat} (hi : (encoded p s).artLen.toNat ≤ i) : artByte (encoded p s) i = artByte s i := by
  rw [artLen_of_append (artifact_encoded h hs hp hcap), pack_length] at hi
  rw [encoded, artByte_succeed, storeMessage_other, artByte_serialized (by omega)]
  rw [serialized_msgOff_toNat h hs]
  exact .inr hi

end

end

/-- Every symbol of a sequence that TRAIN accepts has its leaf (R93, R94). -/
theorem trained_symByte (hno : ∀ i < s.symLen.toNat, symByte s i ≠ marker) :
    ∀ i < s.symLen.toNat, InAlphabet (trained s).arena (symByte s i) := fun i hi =>
  trained_inAlphabet (by simpa [symbols] using hno) (List.mem_map.2 ⟨i, List.mem_range.2 hi, rfl⟩)

/-- After TRAIN only room can lack (R116, R142). -/
theorem exec_compress_of_clean (hle : s.symLen.toNat ≤ s.params.symCap)
    (hno : ∀ i < s.symLen.toNat, symByte s i ≠ marker) (hs : Shaped (trained s).arena p (trained s).root.toNat) :
    exec .compress s =
      if s.params.artCap < p.bytes.length then .next (raise .capacityExceeded 0 0 (trained s))
      else if s.params.artCap < p.bytes.length + ceil8 (sequenceBits (trained s)).length
        then .next (raise .capacityExceeded 0 0 (serialized p (trained s)))
      else .next (encoded p (trained s)) := by
  rw [exec_compress, andThen_of_ok (exec_train_of_clean hle hno) rfl]
  exact exec_tser_encode (treeReady_trained s) hs hle (trained_symByte hno)

/-- Settles O40: the faults of TRAIN, and after it the lack of room for the tree bytes or the message bits. -/
theorem compressCommand : Obligations.CompressCommand := by
  refine fun s hp => ⟨fun hlong => ?_, fun i hi hle hm hfirst => ?_, fun hle hno => ?_⟩
  · rw [exec_compress_of_train_fault (exec_train_of_overlong hlong) (by simp),
      raiseInTree_eq_faultedInTree _ _ _ _ (by decide)]
  · rw [exec_compress_of_train_fault (exec_train_of_firstMarker hle hi hm hfirst) (by simp),
      raiseInTree_eq_faultedInTree _ _ _ _ (hi.trans s.symLen.isLt)]
  · have hready := treeReady_trained s
    obtain ⟨-, -, htree⟩ := id hready
    obtain ⟨p, hs, -⟩ := shaped_root htree
    obtain ⟨hlen, hsize⟩ := hready.bytes_length hs
    rw [hsize] at hlen
    have hoff := (serialized_msgOff_toNat hready hs).trans hlen
    have htrain := exec_train_of_clean hle hno
    have hrun := exec_compress_of_clean hle hno hs
    rw [hlen] at hrun
    split_ifs at hrun with hlong hmsg
    · have hsame := (SameTree.refl (trained s)).raise .capacityExceeded 0 0
      refine ⟨_, _, htrain, hrun, hsame.treeReady hready, hsame,
        fun _ => raise_eq_faulted _ _ _ _ (by decide), fun hfits => absurd hlong hfits.not_gt, ?_⟩
      rfl
    · have hsame := (serialized_sameTree p (trained s)).raise .capacityExceeded 0 0
      refine ⟨_, _, htrain, hrun, hsame.treeReady hready, hsame, (absurd · hlong), fun _ =>
        ⟨p, hs, (congrArg BitVec.toNat (raise_msgOff _ _ _ _)).trans hoff, hlen,
          fun _ => ⟨rfl, errInfoOf_zero, rfl, ?_, rfl⟩, fun hfits => absurd hmsg hfits.not_gt, fun i hi => ?_⟩, ?_⟩
      · rw [artifact_raise, artifact_serialized hready hs]
      · rw [artByte_raise, artByte_serialized]
        · rfl
        · rw [hlen, ← hoff]
          exact hi
      · rfl
    · have hcap : p.bytes.length + ceil8 (sequenceBits (trained s)).length ≤ s.params.artCap := by
        rw [hlen]; exact not_lt.1 hmsg
      have hsame := encoded_sameTree p (trained s)
      have hart := artifact_encoded hready hs hp hcap
      have hbits := encoded_bitLen_toNat hready hs hp hcap
      rw [← encoded_msgOff] at hoff
      refine ⟨_, _, htrain, hrun, hsame.treeReady hready, hsame, (absurd · hlong), fun _ =>
        ⟨p, hs, hoff, hlen, (absurd · hmsg), fun _ => ⟨rfl, rfl, rfl, hart, hbits⟩, fun i hi => ?_⟩, ?_⟩
      · exact artByte_encoded hready hs hp hcap hi
      · rfl

end Sys2Proof.Machine
end

section
/-! PROOF. EXPAND (R144): the tree of TDES, and the symbols the walk of all the bits after it emits. -/

namespace Sys2Proof.Machine

variable {s t : State} {p : ParseTree} {c : DeserCtx} {rest : List Byte}

/-! ### The bits EXPAND feeds -/

/-- The state between TDES and DECODE of EXPAND (R144). -/
def fed (c : DeserCtx) (s : State) : State := feedAllBits (finishTree c s)

theorem fed_sameTree (c : DeserCtx) (s : State) : SameTree (finishTree c s) (fed c s) := SameTree.refl _

section

variable (hart : artifact s = p.bytes ++ rest) (hoff : (finishTree c s).msgOff.toNat = p.bytes.length)
include hart hoff

/-- `BIT_LEN` is eight times the number of the bytes after the tree (R144). -/
theorem fed_bitLen_toNat : (fed c s).bitLen.toNat = 8 * rest.length := by
  have hsum := artLen_of_append hart
  have hlt := s.artLen.isLt
  rw [fed, feedAllBits_bitLen, BitVec.toNat_ofNat, finishTree_artLen, hoff]
  omega

/-- All the bits after the tree are fed, in their order (R120, R144). -/
theorem messageBits_fed : messageBits (fed c s) = unpack rest (8 * rest.length) := by
  unfold messageBits unpack
  rw [fed_bitLen_toNat hart hoff]
  refine List.map_congr_left fun i hi => ?_
  have hi : i / 8 < rest.length := by have := List.mem_range.1 hi; omega
  have hbyte : artByte s (p.bytes.length + i / 8) = rest[i / 8] := by
    have hget := artByte_of_append (bytes := p.bytes ++ rest) (rest := []) (by simpa using hart)
      (i := p.bytes.length + i / 8) (by simp; omega)
    simpa using hget
  rw [List.getD_eq_getElem _ _ hi, ← hbyte, ← hoff]
  rfl

end

/-! ### The outcomes of EXPAND -/

/-- EXPAND of an artifact that begins with an accepted derivation: TDES builds its tree, and what is left is the walk of
all the bits after it (R144). -/
theorem exec_expand_of_accepted (hcap : s.artLen.toNat ≤ s.params.artCap) (hacc : p.accepted)
    (hart : artifact s = p.bytes ++ rest) :
    ∃ c, exec .tdes s = .next (finishTree c s) ∧ TreeReady (fed c s) ∧ Shaped (fed c s).arena p (fed c s).root.toNat ∧
      (fed c s).msgOff.toNat = p.bytes.length ∧ (fed c s).bitLen.toNat = 8 * rest.length ∧
      messageBits (fed c s) = unpack rest (8 * rest.length) ∧
      exec .expand s = endOfWalk (fed c s)
        (walkBits (fed c s).arena (fed c s).root.toNat (walkStart (fed c s)) (unpack rest (8 * rest.length))) := by
  obtain ⟨c, hrun, hready, hplaced, -, hoff⟩ := exec_tdes_of_accepted hcap hacc hart
  have hbits := fed_bitLen_toNat hart hoff
  have hmsg := messageBits_fed hart hoff
  have hsum := artLen_of_append hart
  have hready' := (fed_sameTree c s).treeReady hready
  obtain ⟨hvalid, -⟩ := id hready'
  refine ⟨c, hrun, hready', hplaced.shaped, hoff, hbits, hmsg, ?_⟩
  rw [exec_expand, andThen_of_ok hrun rfl, ← hmsg]
  have hlen : (fed c s).artLen.toNat = (fed c s).msgOff.toNat + rest.length :=
    hsum.trans (congrArg (· + rest.length) hoff.symm)
  exact exec_decode_of_tests (s := fed c s) hvalid hcap (by omega) (by omega)

/-- Settles O41: a fault of TDES ends EXPAND, and otherwise the walk goes over all the bits and its symbols fit or
not. -/
theorem expandCommand : Obligations.ExpandCommand := by
  refine fun s => ⟨fun t ht he => andThen_of_fault ht he, fun p rest hp hcap hacc hart => ?_⟩
  obtain ⟨c, hrun, hready, hs, hoff, hbits, -, hexpand⟩ := exec_expand_of_accepted hcap hacc hart
  obtain ⟨-, -, htree⟩ := id hready
  obtain ⟨w, hwalk, -⟩ := walkBits_total htree (unpack rest (8 * rest.length)) (walkStart (fed c s))
    hready.walkStart_internal
  rw [hwalk] at hexpand
  obtain hfits | hlong := le_or_gt w.out.length s.params.symCap
  · have hlen : w.out.length < 2 ^ 32 := hfits.trans_lt (capacityOf_lt hp .sym)
    refine ⟨_, w, decoded w.out (fed c s), hrun, rfl, hexpand.trans (finishWalk_of_fits hfits), hready,
      SameTree.refl _, hs, hoff, hbits, hwalk, fun hlong => absurd hlong hfits.not_gt,
      fun _ => ⟨rfl, rfl, rfl, symbols_decoded hlen _, fun i hi => ?_⟩, rfl⟩
    rw [symByte_decoded, List.getD_eq_default _ _ hi]
    rfl
  · exact ⟨_, w, raise .capacityExceeded 0 0 (fed c s), hrun, rfl, hexpand.trans (finishWalk_of_overlong hlong), hready,
      SameTree.refl _, hs, hoff, hbits, hwalk, fun _ => ⟨rfl, errInfoOf_zero, rfl, rfl, rfl⟩,
      fun hfits => absurd hlong hfits.not_gt, rfl⟩

end Sys2Proof.Machine
end

section
/-! PROOF. EXPAND after COMPRESS (R146): the tree comes back, the message bits come back with the pad bits after them,
and the pad bits spell copies of the leftmost leaf's value. -/

namespace Sys2Proof.Machine

variable {s t : State} {p : ParseTree}

/-! ### The leftmost leaf -/

/-- A derivation's leftmost leaf is reached by zeros alone, and not at its root if that is an internal node (R75). -/
theorem ParseTree.leftmost (p : ParseTree) :
    ∃ x d, (x, List.replicate d false) ∈ p.paths ∧ ∀ l r, p = .node l r → 1 ≤ d := by
  induction p with
  | leaf v => exact ⟨v, 0, by simp [ParseTree.paths], by simp⟩
  | node l r ihl _ =>
    obtain ⟨x, d, hpath, -⟩ := ihl
    refine ⟨x, d + 1, ?_, fun _ _ _ => by omega⟩
    rw [ParseTree.paths, List.mem_append, List.mem_map]
    exact .inl ⟨_, hpath, rfl⟩

/-- In a held tree a value has a codeword of zeros alone (R146). -/
theorem TreeReady.leftmost (h : TreeReady s) (hs : Shaped s.arena p s.root.toNat) :
    ∃ x0 d0, InAlphabet s.arena x0 ∧ 1 ≤ d0 ∧ codeword s x0 = List.replicate d0 false := by
  obtain ⟨x0, d0, hpath, hpos⟩ := p.leftmost
  obtain ⟨l, r, hp⟩ := (h.accepted hs).node
  refine ⟨x0, d0, (inAlphabet_iff h hs x0).2 ?_, hpos l r hp, (codeword_eq_path h hs hpath).1⟩
  rw [← p.paths_values]
  exact List.mem_map.2 ⟨_, hpath, rfl⟩

/-! ### The walk over the pad bits -/

/-- Zeros are as many whole codewords of the leftmost leaf as they hold, and a proper beginning of one more. -/
theorem replicate_false_split (code : Byte → List Bool) {x0 : Byte} {d0 : Nat}
    (hcode : code x0 = List.replicate d0 false) (n : Nat) :
    List.replicate n false = (List.replicate (n / d0) x0).flatMap code ++ List.replicate (n % d0) false := by
  rw [List.flatMap_replicate, hcode, List.flatten_replicate_replicate, List.replicate_append_replicate,
    Nat.div_add_mod']

/-- The walk over the codewords of a sequence and zeros after them emits the sequence and the copies the zeros spell
(R122, R123, R146). -/
theorem walkBits_padded (h : TreeReady s) {vs : List Byte} (hvs : ∀ v ∈ vs, InAlphabet s.arena v) {x0 : Byte} {d0 : Nat}
    (hx0 : InAlphabet s.arena x0) (hpos : 1 ≤ d0) (hcode : codeword s x0 = List.replicate d0 false) (n : Nat) :
    ∃ w, walkBits s.arena s.root.toNat (walkStart s) (vs.flatMap (codeword s) ++ List.replicate n false) = some w ∧
      w.out = vs ++ List.replicate (n / d0) x0 := by
  have hall : ∀ v ∈ vs ++ List.replicate (n / d0) x0, InAlphabet s.arena v := fun v hv => by
    rcases List.mem_append.1 hv with hv | hv
    · exact hvs v hv
    · exact List.eq_of_mem_replicate hv ▸ hx0
  have hlt := Nat.mod_lt n hpos
  obtain ⟨w, hwalk, hout⟩ := walkBits_codeword_prefix h hx0 (p := List.replicate (n % d0) false)
    (c := { cur := s.root.toNat, out := vs ++ List.replicate (n / d0) x0,
            bi := ((vs ++ List.replicate (n / d0) x0).flatMap (codeword s)).length })
    (by rw [hcode]; exact ⟨List.replicate (d0 - n % d0) false, by rw [List.replicate_append_replicate]; congr 1; omega⟩)
    (fun heq => by have := congrArg List.length heq; rw [hcode] at this; simp at this; omega) rfl
  refine ⟨w, ?_, hout⟩
  rw [replicate_false_split (codeword s) hcode n, ← List.append_assoc, ← List.flatMap_append, walkBits_append,
    walkBits_codewords h hall (c := walkStart s) rfl, Option.bind_some, ← hwalk]
  simp [walkStart]

/-! ### The artifact of COMPRESS -/

/-- COMPRESS without fault: the sequence is one that TRAIN accepts, and the tree bytes and the message fit (R142). -/
theorem compress_ok (h : exec .compress s = .next t) (he : t.err = none) :
    s.symLen.toNat ≤ s.params.symCap ∧ marker ∉ symbols s ∧ ∃ p, Shaped (trained s).arena p (trained s).root.toNat ∧
      p.bytes.length + ceil8 (sequenceBits (trained s)).length ≤ s.params.artCap ∧ t = encoded p (trained s) := by
  obtain ⟨-, -, htree⟩ := treeReady_trained s
  obtain ⟨p, hs, -⟩ := shaped_root htree
  rcases trainStage_cases s with ⟨-, e⟩ | ⟨-, i, -, -, -, e⟩ | ⟨hle, hno, -⟩
  · obtain rfl := next_unique h (exec_compress_of_train_fault e (by simp))
    simp at he
  · obtain rfl := next_unique h (exec_compress_of_train_fault e (by simp))
    simp at he
  · have hrun := h.symm.trans (exec_compress_of_clean hle hno hs)
    split_ifs at hrun with hlong hmsg <;> obtain rfl := Host.Outcome.next.inj hrun
    · simp at he
    · simp at he
    · exact ⟨hle, by simpa [symbols] using hno, p, hs, not_lt.1 hmsg, rfl⟩

/-- The number of pad bits of a message (R77). -/
theorem ceil8_sub (n : Nat) : 8 * ceil8 n - n = (8 - n % 8) % 8 := by
  unfold ceil8; omega

/-- EXPAND of what TSER and ENCODE made of a sequence: the tree of the same code, the message bits and the pad bits, and
the symbols they spell (R146). -/
theorem exec_expand_encoded (h : TreeReady s) (hs : Shaped s.arena p s.root.toNat) (hp : s.params.ok = true)
    (hcap : p.bytes.length + ceil8 (sequenceBits s).length ≤ s.params.artCap)
    (hall : ∀ v ∈ symbols s, InAlphabet s.arena v) {x0 : Byte} {d0 n : Nat} (hx0 : InAlphabet s.arena x0)
    (hpos : 1 ≤ d0) (hcode : codeword s x0 = List.replicate d0 false) (hn : n = (8 - (sequenceBits s).length % 8) % 8) :
    ∃ f, f.params = s.params ∧ (∀ v, symbolCode f v = symbolCode s v) ∧
      messageBits f = sequenceBits s ++ List.replicate n false ∧
      exec .expand (encoded p s) = finishWalk (symbols s ++ List.replicate (n / d0) x0) f := by
  have hart := artifact_encoded h hs hp hcap
  have hlen := artLen_of_append hart
  rw [pack_length] at hlen
  obtain ⟨c, -, hready, hshape, -, -, hmsg, hexpand⟩ :=
    exec_expand_of_accepted (s := encoded p s) (hlen.trans_le hcap) (h.accepted hs) hart
  have hpad : unpack (pack (sequenceBits s)) (8 * (pack (sequenceBits s)).length) =
      sequenceBits s ++ List.replicate n false := by
    rw [pack_length, unpack_pack (by unfold ceil8; omega), ceil8_sub, hn]
  have hsame := symbolCode_of_shape hready h hshape hs
  have hcodes : codeword (fed c (encoded p s)) = codeword s := funext fun v => congrArg (·.getD []) (hsame v)
  have halpha (v : Byte) : InAlphabet (fed c (encoded p s)).arena v ↔ InAlphabet s.arena v :=
    (inAlphabet_iff hready hshape v).trans (inAlphabet_iff h hs v).symm
  obtain ⟨w, hwalk, hout⟩ := walkBits_padded hready (fun v hv => (halpha v).2 (hall v hv)) ((halpha x0).2 hx0) hpos
    (by rw [hcodes, hcode]) n
  rw [hcodes, ← sequenceBits] at hwalk
  refine ⟨fed c (encoded p s), rfl, hsame, hmsg.trans hpad, ?_⟩
  rw [hexpand, hpad, hwalk, ← hout]
  rfl

@[simp] theorem trained_params (s : State) : (trained s).params = s.params := rfl
@[simp] theorem symbols_trained (s : State) : symbols (trained s) = symbols s := rfl

/-- Settles O42: the leftmost leaf's codeword is of zeros alone, and so are the pad bits. -/
theorem expandAfterCompress : Obligations.ExpandAfterCompress := by
  intro s t hp h he
  obtain ⟨hle, hno, p, hs, hcap, rfl⟩ := compress_ok h he
  have hready := treeReady_trained s
  obtain ⟨x0, d0, hx0, hpos, hcode⟩ := hready.leftmost hs
  have htree := encoded_sameTree p (trained s)
  have hbits := encoded_bitLen_toNat hready hs hp hcap
  obtain ⟨f, hparams, hsame, hmsg, hexpand⟩ :=
    exec_expand_encoded hready hs hp hcap (fun v hv => trained_inAlphabet hno hv) hx0 hpos hcode rfl
  rw [← hbits, sequenceBits, symbols_trained, htree.codeword_eq] at hmsg
  rw [← hbits, symbols_trained] at hexpand
  rw [trained_params] at hparams
  rw [htree.codeword_eq] at hcode
  rw [← encoded_arena p] at hx0
  generalize (8 - (encoded p (trained s)).bitLen.toNat % 8) % 8 = n at hmsg hexpand ⊢
  have hsize : (symbols s ++ List.replicate (n / d0) x0).length = s.symLen.toNat + n / d0 := by simp
  refine ⟨x0, d0, hx0, hpos, hcode, ?_⟩
  rw [← hsize, ← hparams]
  refine ⟨fun hfits => ?_, fun hlong => ?_⟩
  · have hsyms := symbols_decoded (hfits.trans_lt (capacityOf_lt (hparams ▸ hp) .sym)) f
    refine ⟨_, hexpand.trans (finishWalk_of_fits hfits), rfl, fun v => (hsame v).trans (symbolCode_congr htree v),
      hmsg, hsyms, ?_⟩
    rw [hsyms, List.append_right_eq_self, List.replicate_eq_nil_iff, Nat.div_eq_zero_iff_lt hpos]
  · exact ⟨_, hexpand.trans (finishWalk_of_overlong hlong), rfl⟩

end Sys2Proof.Machine
end

section
/-! PROOF. Every command ends in a next state (R150), and what a step can be refused for (R37, R56). -/

namespace Sys2Proof.Machine

variable {s : State}

/-! ### The stages -/

theorem trainStage_ends (s : State) : ∃ t, trainStage s = .next t := by
  rcases trainStage_cases s with ⟨-, e⟩ | ⟨-, i, -, -, -, e⟩ | ⟨-, -, e⟩ <;> exact ⟨_, e⟩

theorem tdesStage_ends (s : State) : ∃ t, tdesStage s = .next t := by
  rcases tdesStage_cases s with ⟨k, val, -, e⟩ | ⟨-, ⟨pos, val, -, e⟩ | ⟨c, -, e⟩⟩ <;> exact ⟨_, e⟩

/-- The invariant says that the tree is as R40 describes it, or that there is none. -/
theorem StateOK.tree_cases (hs : StateOK s) : s.treeValid = false ∨ TreeReady s := by
  cases hv : s.treeValid with
  | false => exact .inl rfl
  | true => exact .inr (hs.tree hv).1

theorem tserStage_ends (hs : StateOK s) : ∃ t, tserStage s = .next t := by
  obtain hv | h := hs.tree_cases
  · exact ⟨_, exec_tser_of_noTree hv⟩
  · obtain ⟨_, _, _, e, -⟩ | ⟨_, -, e, -⟩ := tserStage_alike h (SameTree.refl s) rfl <;> exact ⟨_, e⟩

theorem encodeStage_ends (hs : StateOK s) : ∃ t, encodeStage s = .next t := by
  obtain hv | h := hs.tree_cases
  · exact ⟨_, exec_encode_of_noTree hv⟩
  · obtain ⟨_, _, _, e, -⟩ | ⟨_, e, -⟩ := encodeStage_alike h (SameTree.refl s) rfl rfl rfl rfl <;> exact ⟨_, e⟩

theorem decodeStage_ends (hs : StateOK s) : ∃ t, decodeStage s = .next t := by
  obtain hv | h := hs.tree_cases
  · exact ⟨_, exec_decode_of_noTree hv⟩
  · obtain ⟨_, _, _, e, -⟩ | ⟨_, e, -⟩ := decodeStage_alike h (SameTree.refl s) rfl rfl rfl rfl rfl <;> exact ⟨_, e⟩

/-- With a tree the lookup ends at a leaf, whose path to the root exists, or at no leaf (R110, R111). -/
theorem codewordStage_ends (hs : StateOK s) : ∃ t, codewordStage s = .next t := by
  obtain hv | h := hs.tree_cases
  · exact ⟨_, exec_codeword_of_noTree hv⟩
  · obtain ⟨hv, -, htree⟩ := id h
    obtain ⟨n, hl, hn, -⟩ | ⟨hl, -⟩ := lookup_spec h s.arg
    · obtain ⟨c, hc, -⟩ := codeOf_spec htree hn
      exact ⟨_, exec_codeword_of_found hv hl hc⟩
    · exact ⟨_, exec_codeword_of_notFound hv hl⟩

/-! ### The commands -/

theorem exec_command_ends (hs : StateOK s) {i : Instr} (hi : spaceOf i = .command) : ∃ t, exec i s = .next t := by
  cases i with
  | nop => exact ⟨s, rfl⟩
  | clear => exact ⟨_, exec_clear s⟩
  | train => exact trainStage_ends s
  | tser => exact tserStage_ends hs
  | encode => exact encodeStage_ends hs
  | compress =>
    obtain ⟨t, _, e, -⟩ := compress_alike (s := s) rfl rfl rfl
    exact ⟨t, e⟩
  | tdes => exact tdesStage_ends s
  | decode => exact decodeStage_ends hs
  | expand =>
    obtain ⟨t, _, e, -⟩ := expand_alike (s := s) rfl rfl rfl
    exact ⟨t, e⟩
  | codeword => exact codewordStage_ends hs
  | reservedA | reservedB | reservedC | reservedD | reservedE | reservedF => exact ⟨_, rfl⟩
  | treeInternal | treeLeaf _ | codeLeft | codeRight | msgByte _ => cases hi

/-! ### The host -/

/-- A register below 13 can be read. -/
theorem hostReadReg_ends (s : State) {n : Nat} (hn : n < 13) : ∃ t, hostReadReg n s = .next t := by
  interval_cases n <;> exact ⟨_, rfl⟩

theorem hostReadReg_of_absent (s : State) {n : Nat} (hn : 13 ≤ n) : hostReadReg n s = .refused .noSuchRegister := by
  simp only [hostReadReg, registerValue_of_absent s hn]

/-- A register below 13 can be written; the write of register 0 is the command it runs (R24). -/
theorem hostWriteReg_ends (hs : StateOK s) (v : BitVec 254) {n : Nat} (hn : n < 13) : ∃ t, hostWriteReg n v s = .next t := by
  interval_cases n
  · exact exec_command_ends hs (decodeCommand_spec (commandWord v)).1
  all_goals exact ⟨_, rfl⟩

/-- The host accesses that do not exist, by R37 a register 13 or above, by R56 a buffer index at or beyond the capacity, each with
the refusal that answers it. -/
inductive AbsentAccess (p : Params) : HostAct → Refusal → Prop
  | readReg {n : Nat} (hn : 13 ≤ n) : AbsentAccess p (.readReg n) .noSuchRegister
  | writeReg {n : Nat} (hn : 13 ≤ n) (v : BitVec 254) : AbsentAccess p (.writeReg n v) .noSuchRegister
  | readByte {b : Buffer} {i : Nat} (hi : capacityOf p b ≤ i) : AbsentAccess p (.readByte b i) .indexBeyondCapacity
  | writeByte {b : Buffer} {i : Nat} (hi : capacityOf p b ≤ i) (v : Byte) :
      AbsentAccess p (.writeByte b i v) .indexBeyondCapacity

/-- Between commands a host action has a next state, unless what it accesses does not exist. -/
theorem hostAct_outcome (hs : StateOK s) (a : HostAct) :
    (∃ t, hostAct a s = .next t) ∨ ∃ r, AbsentAccess s.params a r ∧ hostAct a s = .refused r := by
  cases a with
  | reset => exact .inl ⟨_, rfl⟩
  | readReg n =>
    obtain hn | hn := Nat.lt_or_ge n 13
    · exact .inl (hostReadReg_ends s hn)
    · exact .inr ⟨_, .readReg hn, hostReadReg_of_absent s hn⟩
  | writeReg n v =>
    obtain hn | hn := Nat.lt_or_ge n 13
    · exact .inl (hostWriteReg_ends hs v hn)
    · exact .inr ⟨_, .writeReg hn v, hostWriteReg_of_absent s v hn⟩
  | readByte b i =>
    obtain hi | hi := Nat.lt_or_ge i (capacityOf s.params b)
    · exact .inl ⟨_, hostReadByte_of_lt hi⟩
    · exact .inr ⟨_, .readByte hi, hostReadByte_of_le hi⟩
  | writeByte b i v =>
    obtain hi | hi := Nat.lt_or_ge i (capacityOf s.params b)
    · exact .inl ⟨_, hostWriteByte_of_lt hi v⟩
    · exact .inr ⟨_, .writeByte hi v, hostWriteByte_of_le hi v⟩

/-- A step has a next state, unless the host's next action is an access that does not exist. -/
theorem step_outcome (hs : StateOK s) :
    (∃ t, step s = .next t) ∨
      ∃ a rest r, s.input = a :: rest ∧ AbsentAccess s.params a r ∧ step s = .refused r := by
  cases hi : s.input with
  | nil => exact .inl ⟨s, step_of_no_input hs.idle hi⟩
  | cons a rest =>
    rw [step_of_input hs.idle hi]
    obtain h | ⟨r, ha, h⟩ :=
      hostAct_outcome (hs.withFree s.symLen s.artLen s.msgOff s.bitLen s.arg rest s.hostRead) a
    · exact .inl h
    · exact .inr ⟨a, rest, r, rfl, ha, h⟩

/-- Settles O58: a command ends because the invariant gives it the tree it reads, and a host action that is no command is
refused for what it accesses only. -/
theorem commandsAlwaysEnd : Obligations.CommandsAlwaysEnd := by
  refine ⟨fun i s hs hi => ?_, fun s hs => ?_⟩
  · obtain ⟨t, h⟩ := exec_command_ends hs hi
    exact ⟨t, h, exec_keeps_stateOK hs i h⟩
  · obtain ⟨t, h⟩ | ⟨a, rest, r, hin, ha, h⟩ := step_outcome hs <;> rw [h]
    · exact ⟨nofun, nofun⟩
    · refine ⟨nofun, fun r' hr => ?_⟩
      obtain rfl := Host.Outcome.refused.inj hr
      cases ha with
      | readReg hn => exact .inl ⟨rfl, _, rest, _, hin, hn, .inl rfl⟩
      | writeReg hn v => exact .inl ⟨rfl, _, rest, _, hin, hn, .inr ⟨v, rfl⟩⟩
      | readByte hi => exact .inr ⟨rfl, _, rest, _, _, hin, hi, .inl rfl⟩
      | writeByte hi v => exact .inr ⟨rfl, _, rest, _, _, hin, hi, .inr ⟨v, rfl⟩⟩

end Sys2Proof.Machine
end

section
/-! PROOF. The system commands NOP, CLEAR and the reserved codes (R151 to R153), and the sticky flag `FAULT_SEEN`, which no
instruction but CLEAR clears (R23, R173). -/

namespace Sys2Proof.Machine

variable {s t : State}

/-- Settles O6: the meaning of NOP is the state it is given. -/
theorem nopChangesNothing : Obligations.NopChangesNothing := fun _ => rfl

/-! ### The reserved codes -/

/-- The six codes from `0xA` on share one meaning, with the code as its argument (R153). -/
theorem exec_reserved {c : BitVec 4} (hc : 10 ≤ c.toNat) (s : State) :
    exec (Sys2Proof.decodeCommand c) s = illegalCommand (c.setWidth 8) s := by
  have hcases : c = 0xA ∨ c = 0xB ∨ c = 0xC ∨ c = 0xD ∨ c = 0xE ∨ c = 0xF := by bv_omega
  obtain rfl | rfl | rfl | rfl | rfl | rfl := hcases <;> rfl

/-- Settles O7: the fault entry of R170 at position 0, with the code as the value. -/
theorem reservedCodesRaise : Obligations.ReservedCodesRaise := by
  refine fun c s hc => ⟨?_, rfl⟩
  have hval : (c.setWidth 8).toNat = c.toNat := BitVec.toNat_setWidth_of_le (by decide)
  rw [exec_reserved hc, illegalCommand, raise_eq_faulted _ _ _ _ (by decide), faulted, hval, Nat.add_zero]

/-! ### The sticky flag -/

section
variable (hseen : s.faultSeen = true)
include hseen

theorem trainStage_keeps_faultSeen (h : trainStage s = .next t) : t.faultSeen = true := by
  obtain ⟨k, pos, val, rfl⟩ | rfl := trainStage_next h
  · rfl
  · exact hseen

theorem tdesStage_keeps_faultSeen (h : tdesStage s = .next t) : t.faultSeen = true := by
  obtain ⟨k, pos, val, rfl⟩ | ⟨c, -, rfl⟩ := tdesStage_next h
  · rfl
  · exact hseen

theorem tserStage_keeps_faultSeen (h : tserStage s = .next t) : t.faultSeen = true := by
  obtain ⟨k, pos, val, -, rfl⟩ | ⟨bytes, -, -, -, rfl⟩ := tserStage_next h
  · rfl
  · exact hseen

theorem encodeStage_keeps_faultSeen (h : encodeStage s = .next t) : t.faultSeen = true := by
  obtain ⟨k, pos, val, -, rfl⟩ | ⟨bits, -, rfl⟩ := encodeStage_next h
  · rfl
  · exact hseen

theorem decodeStage_keeps_faultSeen (h : decodeStage s = .next t) : t.faultSeen = true := by
  obtain ⟨k, pos, val, -, rfl⟩ | ⟨out, -, rfl⟩ := decodeStage_next h
  · rfl
  · exact hseen

theorem codewordStage_keeps_faultSeen (h : codewordStage s = .next t) : t.faultSeen = true := by
  obtain ⟨k, pos, val, -, rfl⟩ | ⟨leaf, c, -, -, -, rfl⟩ := codewordStage_next h
  · rfl
  · exact hseen

theorem takeTreeWord_keeps_faultSeen {b : Byte} (h : takeTreeWord b s = .next t) : t.faultSeen = true := by
  obtain ⟨c, -, ⟨c', rfl⟩ | ⟨pos, val, rfl⟩⟩ := takeTreeWord_next h
  · exact hseen
  · rfl

theorem takeBits_keeps_faultSeen {bits : List Bool} (h : takeBits bits s = .next t) : t.faultSeen = true := by
  obtain ⟨c, c', -, rfl⟩ := takeBits_next h; exact hseen

end

theorem illegalCommand_sets_faultSeen {c : Byte} (h : illegalCommand c s = .next t) : t.faultSeen = true := by
  obtain rfl := Host.Outcome.next.inj h; rfl

/-- Nothing but CLEAR clears the flag (R152): a fault sets it, and a success leaves it. -/
theorem exec_keeps_faultSeen {i : Instr} (hseen : s.faultSeen = true) (hi : i ≠ .clear) (h : exec i s = .next t) :
    t.faultSeen = true := by
  cases i with
  | nop => obtain rfl := Host.Outcome.next.inj h; exact hseen
  | clear => exact absurd rfl hi
  | train => exact trainStage_keeps_faultSeen hseen h
  | tser => exact tserStage_keeps_faultSeen hseen h
  | encode => exact encodeStage_keeps_faultSeen hseen h
  | compress =>
    exact andThen_keeps (P := fun u => u.faultSeen = true)
      (fun _ => andThen_keeps (fun _ => trainStage_keeps_faultSeen hseen) fun _ _ ht => tserStage_keeps_faultSeen ht)
      (fun _ _ ht => encodeStage_keeps_faultSeen ht) h
  | tdes => exact tdesStage_keeps_faultSeen hseen h
  | decode => exact decodeStage_keeps_faultSeen hseen h
  | expand =>
    exact andThen_keeps (P := fun u => u.faultSeen = true) (fun _ => tdesStage_keeps_faultSeen hseen)
      (fun u _ hu => decodeStage_keeps_faultSeen (s := feedAllBits u) hu) h
  | codeword => exact codewordStage_keeps_faultSeen hseen h
  | reservedA | reservedB | reservedC | reservedD | reservedE | reservedF => exact illegalCommand_sets_faultSeen h
  | treeInternal | treeLeaf _ => exact takeTreeWord_keeps_faultSeen hseen h
  | codeLeft | codeRight | msgByte _ => exact takeBits_keeps_faultSeen hseen h

/-- Settles O5: the state CLEAR leaves, and the flag that only CLEAR clears. -/
theorem clearResetsRegisters : Obligations.ClearResetsRegisters :=
  ⟨exec_clear, fun _ _ _ h hseen hi => exec_keeps_faultSeen hseen hi h⟩

end Sys2Proof.Machine
end

section
/-! PROOF. The fault entry (R170) with the record of the fault table (R171): how each elementary command can end, and so which
faults a command can end with (R160, R169). -/

namespace Sys2Proof.Machine

variable {s t base : State} {i : Instr} {kinds : List ErrKind} {k : ErrKind}

/-! ### How a command ends -/

/-- How the elementary command `i` ends from `s`: without fault and without a fault record (R25), or in the fault entry of one
of its kinds, with the table's record and `base` for the rest of the state (R170, R171). -/
inductive Ends (i : Instr) (kinds : List ErrKind) (s base : State) : State → Prop
  | success {t : State} (herr : t.err = none) (hinfo : t.errInfo = 0) : Ends i kinds s base t
  | fault {k : ErrKind} {pos : Nat} {val : Byte} (hk : k ∈ kinds) (hrecord : FaultRecord s i k pos val) :
      Ends i kinds s base (faulted k pos val base)

/-- The model's fault entry is the statements', at a position of 32 bits. -/
theorem ends_raise {pos : Nat} {val : Byte} (hpos : pos < 2 ^ 32) (hk : k ∈ kinds) (hrecord : FaultRecord s i k pos val) :
    Ends i kinds s base (raise k pos val base) := by
  rw [raise_eq_faulted k pos val base hpos]
  exact .fault hk hrecord

/-- What a command reports, it raised itself (R171). -/
theorem Ends.record (h : Ends i kinds s base t) (he : t.err = some k) :
    ∃ pos val, FaultRecord s i k pos val ∧ t = faulted k pos val base := by
  cases h with
  | success herr => exact nomatch herr.symm.trans he
  | fault _ hrecord =>
    obtain rfl := Option.some.inj he
    exact ⟨_, _, hrecord, rfl⟩

theorem Ends.err_mem (h : Ends i kinds s base t) : t.err ∈ none :: kinds.map some := by
  cases h with
  | success herr => simp [herr]
  | fault hk => exact List.mem_cons_of_mem _ (List.mem_map_of_mem hk)

/-! ### The rows of the fault table -/

/-- The faults without a datum record 0 and 0 (R171). -/
theorem faultRecord_zero (hk : k ∈ [ErrKind.noTree, .capacityExceeded, .badRange]) : FaultRecord s i k 0 0 := by
  simp only [List.mem_cons, List.not_mem_nil, or_false] at hk
  obtain rfl | rfl | rfl := hk <;> exact And.intro rfl rfl

theorem ends_raise_zero (hk : k ∈ kinds) (hzero : k ∈ [ErrKind.noTree, .capacityExceeded, .badRange]) :
    Ends i kinds s base (raise k 0 0 base) :=
  ends_raise (by decide) hk (faultRecord_zero hzero)

/-- What the validation pass of ENCODE finds is the first offending byte of the sequence (R115). -/
theorem scanSymbols_record {pos : Nat} {val : Byte} (h : scanSymbols s 0 (symbols s) = .bad k pos val) :
    pos < s.symLen.toNat ∧ FaultRecord s .encode k pos val := by
  rcases scanSymbols_cases s 0 (symbols s) with ⟨e, -⟩ | ⟨e, -⟩ | ⟨j, hj, hbefore, hbad⟩
  · exact nomatch h.symm.trans e
  · exact nomatch h.symm.trans e
  have hget {n : Nat} (hn : n < (symbols s).length) : (symbols s)[n] = symByte s n := by simp [symbols]
  have hlt : j < s.symLen.toNat := by simpa using hj
  have hbefore (n : Nat) (hn : n < j) : symByte s n ≠ marker ∧ lookup s (symByte s n) ≠ .notFound := by
    obtain ⟨hm, leaf, hfound⟩ := hbefore n hn
    rw [hget] at hm hfound
    exact ⟨hm, by simp [hfound]⟩
  rw [hget hj, Nat.zero_add] at hbad
  rcases hbad with ⟨hm, e⟩ | ⟨hm, hl, e⟩ <;> cases h.symm.trans e
  · exact ⟨hlt, .inr ⟨rfl, fun n hn => (hbefore n hn).2⟩, hlt, hm, fun n hn => (hbefore n hn).1, rfl⟩
  · exact ⟨hlt, .inr ⟨rfl, hlt, rfl, hm, hl, hbefore⟩⟩

/-- Legal bytes at the head of the artifact that leave the tree open are an incomplete tree (R136, R137). -/
theorem incompleteTree_of_read {read more : List Byte} (hart : artifact s = ([marker] ++ read) ++ more)
    (hfew : ([marker] ++ read).countP (· == marker) ≤ maxInt) (hnd : (([marker] ++ read).filter (· != marker)).Nodup)
    (hopen : ∀ m ≤ read.length,
      ([marker] ++ read.take m).countP (· != marker) ≤ ([marker] ++ read.take m).countP (· == marker)) :
    IncompleteTree s ([marker] ++ read).length := by
  have hlen := artLen_of_append hart
  have htake {m : Nat} (hm : m ≤ ([marker] ++ read).length) :
      (List.range m).map (artByte s) = ([marker] ++ read).take m := by
    rw [← artifact_take (by omega), hart, List.take_append_of_le_length hm]
  refine ⟨by simp, artByte_of_append hart (by simp), fun m hpos hm => ?_, ?_, ?_⟩
  · obtain ⟨n, rfl⟩ := Nat.exists_eq_add_of_le' hpos
    rw [htake hm]
    exact hopen n (by simpa using hm)
  · rwa [htake le_rfl, List.take_length]
  · rwa [htake le_rfl, List.take_length]

/-- What the loop of TDES reports is M3, M4 or M5, where it meets it (R137). -/
theorem deserialize_record (hne : s.artLen ≠ 0) (h0 : artByte s 0 = marker) {pos : Nat} {val : Byte}
    (h : deserialize s.artLen.toNat ((artifact s).drop 1) deserStart = .error (pos, val)) :
    pos ≤ s.artLen.toNat ∧ FaultRecord s .tdes .malformedArtifact pos val := by
  obtain ⟨read, more, hread, hfew, hnd, hopen, hdefect⟩ := deserialize_error _ _ deserOK_start h
  have hart : artifact s = ([marker] ++ read) ++ more := by
    rw [artifact_eq_cons hne, h0, hread]; rfl
  have hinc := incompleteTree_of_read hart hfew hnd hopen
  have hlen := artLen_of_append hart
  have hbytes : (List.range ([marker] ++ read).length).map (artByte s) = [marker] ++ read := by
    rw [← artifact_take (by omega), hart, List.take_left]
  rcases hdefect with ⟨rfl, rfl, rfl⟩ | ⟨b, tail, rfl, rfl, hbyte⟩
  · rw [List.length_nil, Nat.add_zero] at hlen
    exact ⟨le_rfl, rfl, .inr (.inr (.inl ⟨hlen ▸ hinc, rfl, rfl⟩))⟩
  · rw [List.length_cons] at hlen
    have hlt : ([marker] ++ read).length < s.artLen.toNat := by omega
    have hb : artByte s ([marker] ++ read).length = b := by
      rw [artByte_of_append (rest := tail) (bytes := ([marker] ++ read) ++ [b]) (by simpa using hart) (by simp)]
      simp
    refine ⟨hlt.le, rfl, .inr (.inr (.inr ?_))⟩
    rw [hbytes, hb]
    rcases hbyte with ⟨hm, hcount, hval⟩ | ⟨hm, hseen, rfl⟩
    · exact .inl ⟨hinc, hlt, hm, hcount, hval⟩
    · exact .inr ⟨hinc, hlt, rfl, hm, hseen⟩

/-! ### The elementary commands -/

theorem train_ends (h : exec .train s = .next t) : Ends .train [.ambiguousAlphabet, .badRange] s (dropTree s) t := by
  rcases trainStage_cases s with ⟨-, e⟩ | ⟨-, n, hn, hm, hfirst, e⟩ | ⟨-, -, e⟩ <;> obtain rfl := next_unique h e
  · exact ends_raise_zero (by simp) (by simp)
  · exact ends_raise (hn.trans s.symLen.isLt) (by simp) ⟨.inl rfl, hn, hm, hfirst, rfl⟩
  · exact .success rfl rfl

theorem tdes_ends (h : exec .tdes s = .next t) : Ends .tdes [.malformedArtifact, .badRange] s (dropTree s) t := by
  rcases tdesStage_cases s with ⟨k, val, htest, e⟩ | ⟨htest, ⟨pos, val, hloop, e⟩ | ⟨c, -, e⟩⟩ <;>
    obtain rfl := next_unique h e
  · rcases tdesTests_cases s with ⟨-, e⟩ | ⟨-, hz, e⟩ | ⟨-, hne, hm, e⟩ | ⟨-, -, -, e⟩ <;> cases htest.symm.trans e
    · exact ends_raise_zero (by simp) (by simp)
    · exact ends_raise (by decide) (by simp) ⟨rfl, .inl ⟨hz, rfl, rfl⟩⟩
    · exact ends_raise (by decide) (by simp) ⟨rfl, .inr (.inl ⟨hne, hm, rfl, rfl⟩)⟩
  · rcases tdesTests_cases s with ⟨-, e⟩ | ⟨-, -, e⟩ | ⟨-, -, -, e⟩ | ⟨-, hne, h0, -⟩
    iterate 3 exact nomatch htest.symm.trans e
    obtain ⟨hpos, hrecord⟩ := deserialize_record hne h0 hloop
    exact ends_raise (hpos.trans_lt s.artLen.isLt) (by simp) hrecord
  · exact .success rfl rfl

theorem tser_ends (h : exec .tser s = .next t) : Ends .tser [.noTree, .capacityExceeded] s s t := by
  rcases tserStage_cases s with ⟨-, e⟩ | ⟨-, -, e⟩ | ⟨-, -, ⟨-, e⟩ | ⟨bytes, -, e⟩⟩
  · obtain rfl := next_unique h e; exact ends_raise_zero (by simp) (by simp)
  · obtain rfl := next_unique h e; exact ends_raise_zero (by simp) (by simp)
  · exact nomatch h.symm.trans e
  · obtain rfl := next_unique h e; exact .success rfl rfl

theorem encode_ends (h : exec .encode s = .next t) :
    Ends .encode [.symbolNotFound, .ambiguousAlphabet, .noTree, .capacityExceeded, .badRange] s s t := by
  rcases encodeStage_cases s with ⟨-, e⟩ | ⟨-, -, e⟩ |
    ⟨-, -, -, ⟨k, pos, val, hscan, e⟩ | e | ⟨-, bits, -, ⟨-, e⟩ | ⟨-, e⟩⟩⟩
  · obtain rfl := next_unique h e; exact ends_raise_zero (by simp) (by simp)
  · obtain rfl := next_unique h e; exact ends_raise_zero (by simp) (by simp)
  · obtain rfl := next_unique h e
    obtain ⟨hpos, hrecord⟩ := scanSymbols_record hscan
    refine ends_raise (hpos.trans s.symLen.isLt) ?_ hrecord
    rcases scanSymbols_bad hscan with rfl | rfl <;> simp
  · exact nomatch h.symm.trans e
  · obtain rfl := next_unique h e; exact ends_raise_zero (by simp) (by simp)
  · obtain rfl := next_unique h e; exact .success rfl rfl

theorem decode_ends (h : exec .decode s = .next t) : Ends .decode [.noTree, .capacityExceeded, .badRange] s s t := by
  rcases decodeStage_cases s with ⟨k, htest, e⟩ | ⟨-, ⟨-, e⟩ | ⟨c, -, ⟨-, e⟩ | ⟨-, e⟩⟩⟩
  · obtain rfl := next_unique h e
    rcases decodeTests_cases s with ⟨-, e⟩ | ⟨-, -, e⟩ | ⟨-, -, -, -, e⟩ <;> cases htest.symm.trans e <;>
      exact ends_raise_zero (by simp) (by simp)
  · exact nomatch h.symm.trans e
  · obtain rfl := next_unique h e; exact ends_raise_zero (by simp) (by simp)
  · obtain rfl := next_unique h e; exact .success rfl rfl

theorem codeword_ends (h : exec .codeword s = .next t) :
    Ends .codeword [.symbolNotFound, .noTree] s { s with cwLen := 0, cwBits := 0 } t := by
  rcases codewordStage_cases s with ⟨-, e⟩ | ⟨-, -, e⟩ | ⟨-, hl, e⟩ | ⟨-, leaf, -, ⟨-, e⟩ | ⟨c, -, e⟩⟩
  · obtain rfl := next_unique h e; exact ends_raise_zero (by simp) (by simp)
  · exact nomatch h.symm.trans e
  · obtain rfl := next_unique h e; exact ends_raise (by decide) (by simp) (.inl ⟨rfl, hl, rfl, rfl⟩)
  · exact nomatch h.symm.trans e
  · obtain rfl := next_unique h e; exact .success rfl rfl

/-- A reserved code is the datum of its own fault (R153). -/
theorem reserved_ends (hi : i ∈ [Instr.reservedA, .reservedB, .reservedC, .reservedD, .reservedE, .reservedF])
    (h : exec i s = .next t) : Ends i [.illegalCommand] s s t := by
  have hexec : exec i s = illegalCommand (encodeByte i) s := by
    simp only [List.mem_cons, List.not_mem_nil, or_false] at hi
    obtain rfl | rfl | rfl | rfl | rfl | rfl := hi <;> rfl
  obtain rfl := next_unique h hexec
  exact ends_raise (by decide) (by simp) ⟨rfl, rfl⟩

/-- Settles O45: command by command, with the row of the fault table for each kind. -/
theorem faultEntryEffect : Obligations.FaultEntryEffect := by
  refine fun s t k => ⟨fun i hi h he => ?_, fun i hi h he => ?_, fun h he => (codeword_ends h).record he⟩
  · simp only [List.mem_cons, List.not_mem_nil, or_false] at hi
    obtain rfl | rfl := hi
    · exact (train_ends h).record he
    · exact (tdes_ends h).record he
  · rw [List.mem_cons, List.mem_cons, List.mem_cons] at hi
    obtain rfl | rfl | rfl | hi := hi
    · exact (tser_ends h).record he
    · exact (encode_ends h).record he
    · exact (decode_ends h).record he
    · exact (reserved_ends hi h).record he

/-! ### The faults of a command (R160, R169) -/

/-- COMPRESS ends in a fault of TRAIN, or lacks room: TRAIN has given it a tree, with a leaf for every symbol (R116, R142). -/
theorem compress_err (h : exec .compress s = .next t) :
    t.err ∈ [none, some .ambiguousAlphabet, some .capacityExceeded, some .badRange] := by
  rcases trainStage_cases s with ⟨-, e⟩ | ⟨-, n, -, -, -, e⟩ | ⟨hle, hno, -⟩
  · obtain rfl := next_unique h (exec_compress_of_train_fault e (by simp))
    simp
  · obtain rfl := next_unique h (exec_compress_of_train_fault e (by simp))
    simp
  · obtain ⟨-, -, htree⟩ := treeReady_trained s
    obtain ⟨p, hs, -⟩ := shaped_root htree
    rw [exec_compress_of_clean hle hno hs] at h
    split_ifs at h <;> obtain rfl := Host.Outcome.next.inj h <;> simp [encoded]

/-- DECODE raises `NoTree` without a tree only (R164). -/
theorem treeValid_of_decode_noTree (h : exec .decode s = .next t) (he : t.err = some .noTree) : s.treeValid = false := by
  obtain ⟨k, pos, val, hraisable, rfl⟩ | ⟨out, -, rfl⟩ := decodeStage_next h
  · exact hraisable (.inl (Option.some.inj he))
  · exact nomatch he

/-- EXPAND ends in a fault of TDES, or in a fault of DECODE with the tree that TDES has built (R144). -/
theorem expand_err (h : exec .expand s = .next t) :
    t.err ∈ [none, some .malformedArtifact, some .capacityExceeded, some .badRange] := by
  obtain ⟨u, hu, ⟨-, rfl⟩ | ⟨hok, hdecode⟩⟩ := andThen_next h
  · have := (tdes_ends hu).err_mem
    simp only [List.map_cons, List.map_nil, List.mem_cons] at this ⊢
    tauto
  · have hvalid : u.treeValid = true := by
      obtain ⟨_, _, _, rfl⟩ | ⟨c, -, rfl⟩ := tdesStage_next hu
      · exact nomatch hok
      · rfl
    have hnoTree : t.err ≠ some .noTree := fun he =>
      nomatch hvalid.symm.trans (treeValid_of_decode_noTree (s := feedAllBits u) hdecode he)
    have := (decode_ends hdecode).err_mem
    simp only [List.map_cons, List.map_nil, List.mem_cons] at this ⊢
    tauto

/-- Settles O48: the elementary commands by how they end, the composites by their stages. -/
theorem commandsRaiseOnlyTheirFaults : Obligations.CommandsRaiseOnlyTheirFaults := fun _ _ _ =>
  ⟨fun h => (train_ends h).err_mem, fun h => (tser_ends h).err_mem, fun h => (encode_ends h).err_mem,
    fun h => (tdes_ends h).err_mem, fun h => (decode_ends h).err_mem, fun h => (codeword_ends h).err_mem,
    compress_err, expand_err⟩

end Sys2Proof.Machine
end

section
/-! PROOF. The sticky flag over a step, and the report of a command, which is its own outcome (R23, R25, R173). -/

namespace Sys2Proof.Machine

variable {s t : State} {i : Instr}

/-! ### The report of a command -/

/-- A command has reported its outcome: no fault and no record, or a fault with the sticky flag set (R23, R25). -/
def Reported (t : State) : Prop := (t.err = none ∧ t.errInfo = 0) ∨ (t.err ≠ none ∧ t.faultSeen = true)

theorem Ends.reported {kinds : List ErrKind} {base : State} (h : Ends i kinds s base t) : Reported t := by
  cases h with
  | success herr hinfo => exact .inl ⟨herr, hinfo⟩
  | fault => exact .inr ⟨nofun, rfl⟩

/-- Every command but NOP reports (R25, R151). -/
theorem exec_reported (hi : spaceOf i = .command) (hnop : i ≠ .nop) (h : exec i s = .next t) : Reported t := by
  cases i with
  | nop => exact absurd rfl hnop
  | clear => obtain rfl := Host.Outcome.next.inj h; exact .inl ⟨rfl, rfl⟩
  | train => exact (train_ends h).reported
  | tser => exact (tser_ends h).reported
  | encode => exact (encode_ends h).reported
  | compress =>
    exact andThen_keeps (fun _ => andThen_keeps (fun _ ht => (train_ends ht).reported) fun _ _ _ hu => (tser_ends hu).reported)
      (fun _ _ _ hu => (encode_ends hu).reported) h
  | tdes => exact (tdes_ends h).reported
  | decode => exact (decode_ends h).reported
  | expand =>
    exact andThen_keeps (fun _ ht => (tdes_ends ht).reported) (fun _ _ _ hu => (decode_ends hu).reported) h
  | codeword => exact (codeword_ends h).reported
  | reservedA | reservedB | reservedC | reservedD | reservedE | reservedF => exact (reserved_ends (by decide) h).reported
  | treeInternal | treeLeaf _ | codeLeft | codeRight | msgByte _ => cases hi

/-! ### The report before -/

section
variable (s) (e : Option ErrKind) (x : BitVec 40)

/-- The validation pass and the codewords read the tree, and not the report (R115). -/
theorem encodeStage_of_report : encodeStage { s with err := e, errInfo := x } = encodeStage s := by
  have htree : SameTree { s with err := e, errInfo := x } s := SameTree.refl s
  have hsym : symbols { s with err := e, errInfo := x } = symbols s := rfl
  simp only [encodeStage, hsym, scanSymbols_congr htree, encodeBits_congr htree]
  rfl

/-- No command but NOP sees the `ERR` and `ERR_INFO` it finds: it writes both in every outcome (R25, R170). -/
theorem exec_of_report (hi : spaceOf i = .command) (hnop : i ≠ .nop) :
    exec i { s with err := e, errInfo := x } = exec i s := by
  cases i with
  | nop => exact absurd rfl hnop
  | encode => exact encodeStage_of_report s e x
  | clear | train | tser | compress | tdes | decode | expand | codeword => rfl
  | reservedA | reservedB | reservedC | reservedD | reservedE | reservedF => rfl
  | treeInternal | treeLeaf _ | codeLeft | codeRight | msgByte _ => cases hi

end

/-! ### The sticky flag over a step -/

theorem decodeCommand_eq_clear {c : BitVec 4} (h : Sys2Proof.decodeCommand c = .clear) : c = 1 := by
  revert c; decide

/-- Of the host's actions only CLEAR and reset clear the flag (R23, R173). -/
theorem hostAct_keeps_faultSeen {a : HostAct} (hseen : s.faultSeen = true) (h : hostAct a s = .next t) :
    t.faultSeen = true ∨ (∃ v, a = .writeReg 0 v ∧ commandWord v = 1) ∨ a = .reset := by
  obtain ⟨v, ha, h⟩ | ⟨ha, -⟩ | ⟨b, n, v, -, rfl⟩ | ⟨_, _, _, _, _, _, rfl⟩ := hostAct_next h
  · by_cases hclear : Sys2Proof.decodeCommand (commandWord v) = .clear
    · exact .inr (.inl ⟨v, ha, decodeCommand_eq_clear hclear⟩)
    · exact .inl (exec_keeps_faultSeen hseen hclear h)
  · exact .inr (.inr ha)
  · exact .inl ((writeByte_faultSeen s b n v).trans hseen)
  · exact .inl hseen

theorem treeStreamStep_keeps_faultSeen {c : DeserCtx} (hseen : s.faultSeen = true) (h : treeStreamStep c s = .next t) :
    t.faultSeen = true := by
  unfold treeStreamStep at h
  split at h
  · obtain rfl := Host.Outcome.next.inj h; exact hseen
  · split at h
    · obtain rfl := Host.Outcome.next.inj h; rfl
    · rw [exec_decodeTreeByte] at h
      exact takeTreeWord_keeps_faultSeen hseen h

theorem messageStreamStep_keeps_faultSeen {c : WalkCtx} (hw : s.work = .walk c) (hseen : s.faultSeen = true)
    (h : messageStreamStep c s = .next t) : t.faultSeen = true := by
  unfold messageStreamStep finishWalk at h
  split at h
  · split at h <;> obtain rfl := Host.Outcome.next.inj h
    · rfl
    · exact hseen
  · next hbi =>
    obtain ⟨m, -, -, hexec⟩ := exec_messageWord hw (Nat.lt_of_not_le hbi)
    rw [hexec] at h
    exact takeBits_keeps_faultSeen hseen h

/-- Between commands a step is a host action, and inside one it is a word of a stream; no word clears the flag. -/
theorem step_keeps_faultSeen (hseen : s.faultSeen = true) (h : step s = .next t) :
    t.faultSeen = true ∨ ∃ a rest, s.input = a :: rest ∧ ((∃ v, a = .writeReg 0 v ∧ commandWord v = 1) ∨ a = .reset) := by
  cases hw : s.work with
  | idle =>
    obtain rfl | ⟨a, rest, hin, h⟩ := step_idle_next hw h
    · exact .inl hseen
    · exact (hostAct_keeps_faultSeen (s := { s with input := rest }) hseen h).imp_right fun ha => ⟨a, rest, hin, ha⟩
  | deser c => simp only [step, advance, hw] at h; exact .inl (treeStreamStep_keeps_faultSeen hseen h)
  | walk c => simp only [step, advance, hw] at h; exact .inl (messageStreamStep_keeps_faultSeen hw hseen h)

/-- Settles O46: the flag over a step, the report of a command, and its independence of the report before. -/
theorem faultSeenSticks : Obligations.FaultSeenSticks := by
  refine ⟨fun s t h hseen => ?_, fun i s t hi hnop h => exec_reported hi hnop h, fun i s t e x hi hnop h => ?_⟩
  · obtain hkept | ⟨a, rest, hin, ⟨v, rfl, hv⟩ | rfl⟩ := step_keeps_faultSeen hseen h
    · exact .inl hkept
    · exact .inr (.inl ⟨v, rest, hin, (BitVec.ofNat_toNat 4 v).trans hv⟩)
    · exact .inr (.inr ⟨rest, hin⟩)
  · exact ⟨t, (exec_of_report s e x hi hnop).trans h, rfl, rfl⟩

end Sys2Proof.Machine
end
